-- ==== Sys2Proof/Word.lean ====
section
/-! DEFINITION. The plain word types of the block: bytes, chip register addresses, operation words, the event-select vector. -/

namespace Sys2Proof

/-- A byte on the serial bus, a mask, a data byte of the operation port (R9, R82). -/
abbrev Byte := BitVec 8

/-- A chip register address, an "integer in [0,31]" (R51). -/
abbrev Addr := BitVec 5

/-- The operation word `W[23:0]` (R84). -/
abbrev OpWord := BitVec 24

/-- The event-select vector `SEL[3:0]` (R89). -/
abbrev Sel := BitVec 4

/-- Which callback a reference refers to (R25: "a single registered function reference"). The block only keeps it and
invokes it; there is no arithmetic on it. -/
abbrev CallbackRef := Nat

end Sys2Proof
end

