-- ==== Sys2Proof/Syntax.lean ====
section
/-! DEFINITION. The instructions: one constructor for each row of spec/opcode_table.json, and the encoded forms in which they
reach the block. -/

namespace Sys2Proof

/-- The operand of `start(role)` (R155). -/
inductive UsbRole where
  | host
  | peripheral
deriving DecidableEq, Repr, Inhabited

/-- The direction bit of a command byte: 1 is write, 0 is read (R81). -/
inductive Dir where
  | read
  | write
deriving DecidableEq, Repr, Inhabited

/-- One constructor per row of spec/opcode_table.json. -/
inductive Instr where
  /-- `REGRD`: a read transaction on the bus, its command byte's address and AS bit, and how many dummy bytes follow (R56, R81). -/
  | regrd (addr : Addr) (ackstat : Bool) (n : Nat)
  /-- `REGWR`: a write transaction on the bus, its command byte's address and AS bit, and the data bytes (R57, R81). -/
  | regwr (addr : Addr) (ackstat : Bool) (values : List Byte)
  /-- `readRegister(addr)` (R111). -/
  | readRegister (addr : Addr)
  /-- `writeRegister(addr, value)` (R112). -/
  | writeRegister (addr : Addr) (value : Byte)
  /-- `readRegisterAS(addr)` (R113). -/
  | readRegisterAS (addr : Addr)
  /-- `writeRegisterAS(addr, value)` (R114). -/
  | writeRegisterAS (addr : Addr) (value : Byte)
  /-- `multiReadRegister(addr, buffer, n)` (R116); the buffer is the data-out port. -/
  | multiReadRegister (addr : Addr) (n : Byte)
  /-- `multiWriteRegister(addr, values, n)` (R115); `n` is the number of values. -/
  | multiWriteRegister (addr : Addr) (values : List Byte)
  /-- `enableOptions(addr, bits)` (R117). -/
  | enableOptions (addr : Addr) (bits : Byte)
  /-- `disableOptions(addr, bits)` (R118). -/
  | disableOptions (addr : Addr) (bits : Byte)
  /-- `setAckstat()` (R110). -/
  | setAckstat
  /-- `enableInterrupts(bits)` (R130). -/
  | enableInterrupts (bits : Byte)
  /-- `disableInterrupts(bits)` (R131). -/
  | disableInterrupts (bits : Byte)
  /-- `enableEndpointInterrupts(bits)` (R132). -/
  | enableEndpointInterrupts (bits : Byte)
  /-- `disableEndpointInterrupts(bits)` (R133). -/
  | disableEndpointInterrupts (bits : Byte)
  /-- `clearInterruptStatus(bits)` (R134). -/
  | clearInterruptStatus (bits : Byte)
  /-- `clearEndpointInterruptStatus(bits)` (R135). -/
  | clearEndpointInterruptStatus (bits : Byte)
  /-- `getEnabledInterruptStatus()` (R138). -/
  | getEnabledInterruptStatus
  /-- `getEnabledEndpointInterruptStatus()` (R139). -/
  | getEnabledEndpointInterruptStatus
  /-- `masterEnable()` (R140). -/
  | masterEnable
  /-- `masterDisable()` (R141). -/
  | masterDisable
  /-- The operation `reset()` (R150 to R154); not the power-on reset. -/
  | reset
  /-- `start(role)` (R155, R156). -/
  | start (role : UsbRole)
  /-- `scanBus()` (R180). -/
  | scanBus
  /-- `registerCallback(cb)`, a reference or null (R157). -/
  | registerCallback (cb : Option CallbackRef)
  /-- The illegal row with `OPC = 0x00`: the 19 bits below the operation code (R87). -/
  | illegal00 (low : BitVec 19)
  /-- The illegal row with `OPC = 0x18..0x1F`: the 22 bits below the two fixed ones (R87). -/
  | illegal18to1F (low : BitVec 22)
  /-- The handler `onSetup` (R190 to R193), selected by `SEL[0]`. -/
  | onSetup
  /-- The handler `onInBufAvail` (R195), selected by `SEL[1]`. -/
  | onInBufAvail
  /-- The handler `onResetDone` (R194), selected by `SEL[2]`. -/
  | onResetDone
  /-- The handler `onConnectDetect` (R170 to R177), selected by `SEL[3]`. -/
  | onConnectDetect
deriving DecidableEq, Repr, Inhabited

/-- An instruction as it is presented to the block, in the format of its row (R80). -/
inductive Presented where
  /-- Format `OP`: the operation word, the payload bytes that follow it on the data-in port, and the callback reference beside it
  (looked at only by `registerCallback` with `IMM[0] = 1`). -/
  | op (w : OpWord) (payload : List Byte) (ref : CallbackRef)
  /-- Formats `CB` and `DB`: the bytes of one bus transaction, the command byte first (R54, R82). -/
  | bus (bytes : List Byte)
  /-- Format `EVT`: the event-select vector (R89). -/
  | evt (sel : Sel)
deriving DecidableEq, Repr, Inhabited

end Sys2Proof
end

