-- ==== Sys2Proof/WellFormed.lean ====
section
/-! DEFINITION. When a term of `Instr` is an instruction the encodings can carry. -/

namespace Sys2Proof

/-- The most data bytes a transaction or burst can ask for: the range of the 8-bit `IMM` field (R84), and so the largest
`MAX_BURST` a configuration can have (P8 of 92_eei_decisions.md). -/
abbrev maxBytes : Nat := 255

/-- The check: every length fits the 8-bit count field (R84, R86, R90). All other operands are bit vectors of their field's
width, or names, so nothing is left to check of them. A count beyond `MAX_BURST` is not ill formed: the block answers it with
`Refused` (R87). -/
def Instr.wellFormed : Instr → Bool
  | .regrd _ _ n => Nat.ble n maxBytes
  | .regwr _ _ vs => Nat.ble vs.length maxBytes
  | .multiWriteRegister _ vs => Nat.ble vs.length maxBytes
  | .readRegister _ => true
  | .writeRegister _ _ => true
  | .readRegisterAS _ => true
  | .writeRegisterAS _ _ => true
  | .multiReadRegister _ _ => true
  | .enableOptions _ _ => true
  | .disableOptions _ _ => true
  | .setAckstat => true
  | .enableInterrupts _ => true
  | .disableInterrupts _ => true
  | .enableEndpointInterrupts _ => true
  | .disableEndpointInterrupts _ => true
  | .clearInterruptStatus _ => true
  | .clearEndpointInterruptStatus _ => true
  | .getEnabledInterruptStatus => true
  | .getEnabledEndpointInterruptStatus => true
  | .masterEnable => true
  | .masterDisable => true
  | .reset => true
  | .start _ => true
  | .scanBus => true
  | .registerCallback _ => true
  | .illegal00 _ => true
  | .illegal18to1F _ => true
  | .onSetup => true
  | .onInBufAvail => true
  | .onResetDone => true
  | .onConnectDetect => true

/-- An instruction is well formed when its check passes. -/
abbrev Instr.WellFormed (i : Instr) : Prop := i.wellFormed = true

end Sys2Proof
end

