-- ==== Sys2Proof/Config.lean ====
section
/-! DEFINITION. What the spec leaves to the configuration (the record `Cfg` of R7), the events of the trace (R12), the answers
of the chip and of the collaborators, and the free values: what those answers are when nothing scripts them. -/

namespace Sys2Proof

/-- The Host role's register address table (R7, R8: never merged with the Peripheral table). -/
structure HostRegs where
  topIrq : Addr
  topIen : Addr
  mode : Addr
  sofReg : Addr
  sampleReg : Addr
  sampleDone : Addr
  lineState : Addr
  oscStat : Addr
  chipCtl : Addr
  gate : Addr
deriving DecidableEq, Repr, Inhabited

/-- The Peripheral role's register address table (R7, R8). The third pair may be absent (R152, P9 of 92_eei_decisions.md). -/
structure PeriphRegs where
  topIrq : Addr
  topIen : Addr
  epIrq : Addr
  epIen : Addr
  pair3Irq : Option Addr
  pair3Ien : Option Addr
  sudFifo : Addr
  ep2InBc : Addr
  ackReg : Addr
  oscStat : Addr
  chipCtl : Addr
  gate : Addr
deriving DecidableEq, Repr, Inhabited

/-- The bit-mask parameters `B_...` (R7). -/
structure Masks where
  chipRes : Byte
  oscOk : Byte
  gate : Byte
  hostOpts : Byte
  sofEn : Byte
  sampleBus : Byte
  sampleDoneMask : Byte
  sampleDoneValue : Byte
  frame : Byte
  conDet : Byte
  sudAv : Byte
  inBAv : Byte
  uresDn : Byte
deriving DecidableEq, Repr, Inhabited

/-- The configuration record `Cfg` (R7). The durations have no meaning but their order (R260). -/
structure Cfg where
  host : HostRegs
  periph : PeriphRegs
  b : Masks
  oscPollCap : Nat
  framePollCap : Nat
  samplePollCap : Nat
  tSamplePoll : Nat
  tSettle : Nat
  tStabilize : Nat
  reqSetAddress : Byte
  reqGetStatus : Byte
  ep2Refill : Byte
  maxBurst : Nat
deriving DecidableEq, Repr, Inhabited

/-- What a model may assume of a configuration (R7; P3 to P9 of 92_eei_decisions.md): masks non-zero (but
`B_SAMPLEDONE_VALUE`), the two pairs of disjoint masks, caps at least 1, the order of the two delays, distinct request codes,
`8 <= MAX_BURST <= 255`, the third pair whole or absent. -/
def Cfg.valid (c : Cfg) : Bool :=
  [c.b.chipRes, c.b.oscOk, c.b.gate, c.b.hostOpts, c.b.sofEn, c.b.sampleBus, c.b.sampleDoneMask, c.b.frame, c.b.conDet,
    c.b.sudAv, c.b.inBAv, c.b.uresDn].all (· != 0)
  && c.b.sudAv &&& c.b.inBAv == 0 && c.b.frame &&& c.b.conDet == 0
  && Nat.ble 1 c.oscPollCap && Nat.ble 1 c.framePollCap && Nat.ble 1 c.samplePollCap
  && Nat.blt c.tSettle c.tStabilize && c.reqSetAddress != c.reqGetStatus
  && Nat.ble 8 c.maxBurst && Nat.ble c.maxBurst maxBytes
  && c.periph.pair3Irq.isSome == c.periph.pair3Ien.isSome

/-- The constraints as a proposition. -/
abbrev Cfg.Valid (c : Cfg) : Prop := c.valid = true

/-- Profile P0 with the values of test configuration T0 (G4, G5 of 93_implementation_defined.md). PRESUMED: no source backs the
numbers. Used by the model's own tests, and to show that a valid configuration exists; no meaning reads it. -/
def Cfg.t0 : Cfg where
  host := { topIrq := 25, topIen := 26, mode := 27, sofReg := 27, sampleReg := 29, sampleDone := 29, lineState := 31,
            oscStat := 13, chipCtl := 15, gate := 16 }
  periph := { topIrq := 13, topIen := 14, epIrq := 11, epIen := 12, pair3Irq := none, pair3Ien := none, sudFifo := 4,
              ep2InBc := 7, ackReg := 19, oscStat := 13, chipCtl := 15, gate := 16 }
  b := { chipRes := 0x20, oscOk := 0x01, gate := 0x01, hostOpts := 0xC1, sofEn := 0x08, sampleBus := 0x04,
         sampleDoneMask := 0x04, sampleDoneValue := 0x00, frame := 0x40, conDet := 0x20, sudAv := 0x20, inBAv := 0x10,
         uresDn := 0x80 }
  oscPollCap := 4
  framePollCap := 4
  samplePollCap := 4
  tSamplePoll := 1
  tSettle := 2
  tStabilize := 3
  reqSetAddress := 0x05
  reqGetStatus := 0x00
  ep2Refill := 0x40
  maxBurst := 64

/-- The three delay parameters, by name (R230). -/
inductive DelayName where
  | samplePoll
  | settle
  | stabilize
deriving DecidableEq, Repr, Inhabited

/-- The two fault kinds (R221, R222). -/
inductive FaultKind where
  | transportError
  | hardwareTimeout
deriving DecidableEq, Repr, Inhabited

/-- The log events (R231). -/
inductive LogEvent where
  | enumResult (ok : Bool)
  | unimplementedRequest (q : Byte)
  | fault (k : FaultKind)
deriving DecidableEq, Repr, Inhabited

/-- The collaborator request ports (R228). -/
inductive CollabCall where
  | performBusReset
  | performEnumeration
  | respondToStatusRequest (packet : List Byte)
deriving DecidableEq, Repr, Inhabited

/-- One event of the trace (R12, D30). `ss false` is `SS(0)` (select asserted), `ss true` is `SS(1)`; `x out none` is
`X(out, fault)`; `notify cb b` is `Notify(b)`, delivered to the callback `cb`. -/
inductive Event where
  | ss (level : Bool)
  | x (out : Byte) (inn : Option Byte)
  | delay (d : DelayName)
  | call (c : CollabCall)
  | notify (cb : CallbackRef) (b : Bool)
  | log (e : LogEvent)
deriving DecidableEq, Repr, Inhabited

/-- What the chip does in one byte exchange: the byte it shifts in, or, where there is none, a transport fault (R52, R102). -/
structure ChipAnswer where
  miso : Option Byte
deriving DecidableEq, Repr, Inhabited

/-- An operation a collaborator or the callback may present while its call runs: those of 41_register_access.md and
42_interrupt_shadow.md (R228). -/
inductive CollabOp where
  | readRegister (addr : Addr)
  | writeRegister (addr : Addr) (value : Byte)
  | readRegisterAS (addr : Addr)
  | writeRegisterAS (addr : Addr) (value : Byte)
  | multiReadRegister (addr : Addr) (n : Byte)
  | multiWriteRegister (addr : Addr) (values : List Byte)
  | enableOptions (addr : Addr) (bits : Byte)
  | disableOptions (addr : Addr) (bits : Byte)
  | setAckstat
  | enableInterrupts (bits : Byte)
  | disableInterrupts (bits : Byte)
  | enableEndpointInterrupts (bits : Byte)
  | disableEndpointInterrupts (bits : Byte)
  | clearInterruptStatus (bits : Byte)
  | clearEndpointInterruptStatus (bits : Byte)
  | getEnabledInterruptStatus
  | getEnabledEndpointInterruptStatus
  | masterEnable
  | masterDisable
deriving DecidableEq, Repr, Inhabited

/-- What a collaborator does in one call: the operations it presents, in order, and its answer (read only of
`performEnumeration`: success or failure; R228). -/
structure CollabAnswer where
  ops : List CollabOp
  success : Bool
deriving DecidableEq, Repr, Inhabited

/-- A free value of any inhabited type: no body, so no proof can tell what it is. -/
opaque Config.free (α : Type) [Inhabited α] (k : Nat) : α

/-- The configuration of the block after reset: a free value of which only the constraints of R7 are known (OPEN points P1 to
P9). `Cfg.t0` only shows that the type has a value. -/
def Config.validCfg : { c : Cfg // c.Valid } :=
  @Config.free { c : Cfg // c.Valid } ⟨⟨Cfg.t0, by decide⟩⟩ 0

/-- See `Config.validCfg`. -/
def Config.cfg : Cfg := Config.validCfg.val

/-- The chip, where no answer of it is scripted: a free function of the history so far and of the byte going out (R52: "given
the history of exchanges so far, returns the byte shifted in, or `TransportError`"; nothing may be assumed of it). -/
opaque Config.chip : List Event → Byte → ChipAnswer

/-- The collaborators and the callback, where no answer of theirs is scripted: a free function of the history, which ends with
the call made (R228). -/
opaque Config.collab : List Event → CollabAnswer

end Sys2Proof
end

