-- ==== Sys2Proof/Decode.lean ====
section
/-! DEFINITION. The decoder (total, refusing by name), the encoder after it, and the harness' view of the opcode table. -/

namespace Sys2Proof

/-- Why something presented to the block is no instruction. The first six are of operation words: the malformed words of R87, and a
payload of another length than the word's. The block answers each with `Refused`. The others are no input the spec gives the block. -/
inductive DecodeError where
  /-- `Z1 != 0` (R87). -/
  | z1NotZero
  /-- `Z2 != 0` (R87). -/
  | z2NotZero
  /-- `ADDR != 0` in an operation that does not use it (R87). -/
  | addrNotUsed
  /-- `IMM != 0` where R85 says 0 (R87). -/
  | immNotZero
  /-- A must-be-zero bit of `IMM` is 1 in `start` or `registerCallback` (R87). -/
  | immReserved
  /-- Not exactly the payload bytes the word announces (R90; `Refused`: DESIGN CHOICE, log entry 7). -/
  | payloadLength
  /-- A bus transaction without a command byte (R54). -/
  | noCommandByte
  /-- A command byte with bit 2 set: a byte this block cannot have produced (R88). -/
  | commandBit2
  /-- A read transaction whose outgoing data bytes are not the dummy `0x00` (R56, R82). -/
  | dummyNotZero
  /-- A transaction of more data bytes than any burst has (R56, R57). -/
  | tooManyBytes
  /-- `SEL = 0`: no handler is selected (R89). -/
  | noHandler
deriving DecidableEq, Repr

/-! ## The fields of an operation word (R84, R86) -/

/-- `OPC = W[23:19]`. -/
def opcOf (w : OpWord) : BitVec 5 := w.extractLsb' 19 5

/-- `Z1 = W[18:16]`. -/
def z1Of (w : OpWord) : BitVec 3 := w.extractLsb' 16 3

/-- `ADDR = W[15:11]`. -/
def addrOf (w : OpWord) : Addr := w.extractLsb' 11 5

/-- `Z2 = W[10:8]`. -/
def z2Of (w : OpWord) : BitVec 3 := w.extractLsb' 8 3

/-- `IMM = W[7:0]`. -/
def immOf (w : OpWord) : Byte := w.extractLsb' 0 8

/-- A word from its fields (R84). -/
def mkWord (opc : BitVec 5) (z1 : BitVec 3) (addr : Addr) (z2 : BitVec 3) (imm : Byte) : OpWord :=
  opc ++ z1 ++ addr ++ z2 ++ imm

/-! ## The command byte (R81) -/

/-- The direction bit: 1 is write, 0 is read (R81). -/
def Dir.bit : Dir → Byte
  | .read => 0
  | .write => 1

/-- A flag as a byte. -/
def flagByte (b : Bool) : Byte := if b then 1 else 0

/-- The command byte `(address << 3) | (direction << 1) | ackstat` (R81, R83). -/
def cmdByte (a : Addr) (d : Dir) (ackstat : Bool) : Byte :=
  (a.setWidth 8 <<< 3) ||| (d.bit <<< 1) ||| flagByte ackstat

/-- `ADDR`, bits 7 to 3 of a command byte (R81). -/
def cmdAddr (c : Byte) : Addr := c.extractLsb' 3 5

/-- `DIR`, bit 1 of a command byte (R81). -/
def cmdIsWrite (c : Byte) : Bool := c.getLsbD 1

/-- `AS`, bit 0 of a command byte (R81). -/
def cmdAckstat (c : Byte) : Bool := c.getLsbD 0

/-- `ZERO`, bit 2 of a command byte (R81, R88). -/
def cmdBit2 (c : Byte) : Bool := c.getLsbD 2

/-! ## The decoder -/

/-- Which operations of R85 use `ADDR`: the raw register operations. -/
def usesAddr (opc : Nat) : Bool := Nat.ble 1 opc && Nat.ble opc 8

/-- Which operations of R85 have `IMM` 0. -/
def immIsZero : Nat → Bool
  | 0x01 | 0x03 | 0x09 | 0x10 | 0x11 | 0x12 | 0x13 | 0x14 | 0x16 => true
  | _ => false

/-- Which operations of R85 use bit 0 of `IMM` alone. -/
def immIsOneBit : Nat → Bool
  | 0x15 | 0x17 => true
  | _ => false

/-- The payload bytes that follow a word (R90): `n = IMM` after `multiWriteRegister`, none after any other. -/
def payloadCount (w : OpWord) : Nat :=
  if opcOf w = 0x06 then (immOf w).toNat else 0

/-- What is wrong with a word of a legal operation code, if anything (R87). -/
def wordFault (w : OpWord) : Option DecodeError :=
  let opc := (opcOf w).toNat
  if z1Of w ≠ 0 then some .z1NotZero
  else if z2Of w ≠ 0 then some .z2NotZero
  else if !usesAddr opc && addrOf w != 0 then some .addrNotUsed
  else if immIsZero opc && immOf w != 0 then some .immNotZero
  else if immIsOneBit opc && immOf w >>> 1 != 0 then some .immReserved
  else none

/-- The operation a well-formed word of operation code `0x01` to `0x17` names (R85). -/
def opOf (w : OpWord) (payload : List Byte) (ref : CallbackRef) : Instr :=
  match (opcOf w).toNat with
  | 0x01 => .readRegister (addrOf w)
  | 0x02 => .writeRegister (addrOf w) (immOf w)
  | 0x03 => .readRegisterAS (addrOf w)
  | 0x04 => .writeRegisterAS (addrOf w) (immOf w)
  | 0x05 => .multiReadRegister (addrOf w) (immOf w)
  | 0x06 => .multiWriteRegister (addrOf w) payload
  | 0x07 => .enableOptions (addrOf w) (immOf w)
  | 0x08 => .disableOptions (addrOf w) (immOf w)
  | 0x09 => .setAckstat
  | 0x0A => .enableInterrupts (immOf w)
  | 0x0B => .disableInterrupts (immOf w)
  | 0x0C => .enableEndpointInterrupts (immOf w)
  | 0x0D => .disableEndpointInterrupts (immOf w)
  | 0x0E => .clearInterruptStatus (immOf w)
  | 0x0F => .clearEndpointInterruptStatus (immOf w)
  | 0x10 => .getEnabledInterruptStatus
  | 0x11 => .getEnabledEndpointInterruptStatus
  | 0x12 => .masterEnable
  | 0x13 => .masterDisable
  | 0x14 => .reset
  | 0x15 => .start (if (immOf w).getLsbD 0 then .peripheral else .host)
  | 0x16 => .scanBus
  | 0x17 => .registerCallback (if (immOf w).getLsbD 0 then some ref else none)
  | 0x00 => .illegal00 (w.extractLsb' 0 19)
  | _ => .illegal18to1F (w.extractLsb' 0 22)

/-- Format `OP` (R84 to R87, R90). The two illegal rows take every word of their operation codes. -/
def decodeOp (w : OpWord) (payload : List Byte) (ref : CallbackRef) : Except DecodeError Instr :=
  let opc := (opcOf w).toNat
  if opc = 0 ∨ 0x18 ≤ opc then .ok (opOf w payload ref)
  else
    match wordFault w with
    | some e => .error e
    | none => if payload.length = payloadCount w then .ok (opOf w payload ref) else .error .payloadLength

/-- Formats `CB` and `DB`: the bytes of one bus transaction (R54, R81, R82). -/
def decodeBus : List Byte → Except DecodeError Instr
  | [] => .error .noCommandByte
  | c :: ds =>
    if cmdBit2 c then .error .commandBit2
    else if Nat.blt maxBytes ds.length then .error .tooManyBytes
    else if cmdIsWrite c then .ok (.regwr (cmdAddr c) (cmdAckstat c) ds)
    else if ds.all (· == 0) then .ok (.regrd (cmdAddr c) (cmdAckstat c) ds.length)
    else .error .dummyNotZero

/-- Format `EVT`: the handler the vector selects next, in ascending bit order (R89, R214). -/
def decodeEvt (sel : Sel) : Except DecodeError Instr :=
  if sel.getLsbD 0 then .ok .onSetup
  else if sel.getLsbD 1 then .ok .onInBufAvail
  else if sel.getLsbD 2 then .ok .onResetDone
  else if sel.getLsbD 3 then .ok .onConnectDetect
  else .error .noHandler

/-- The decoder, over everything that can be presented. -/
def decode : Presented → Except DecodeError Instr
  | .op w payload ref => decodeOp w payload ref
  | .bus bytes => decodeBus bytes
  | .evt sel => decodeEvt sel

/-! ## The encoder -/

/-- An operation word with no address and no immediate. -/
def plainWord (opc : BitVec 5) : Presented := .op (mkWord opc 0 0 0 0) [] 0

/-- An operation word with an immediate and no address. -/
def immWord (opc : BitVec 5) (imm : Byte) : Presented := .op (mkWord opc 0 0 0 imm) [] 0

/-- An operation word with an address and an immediate. -/
def addrWord (opc : BitVec 5) (a : Addr) (imm : Byte) : Presented := .op (mkWord opc 0 a 0 imm) [] 0

/-- The encoding of an instruction, from the tables of R81, R85 and R89. -/
def encode : Instr → Presented
  | .regrd a s n => .bus (cmdByte a .read s :: List.replicate n 0)
  | .regwr a s vs => .bus (cmdByte a .write s :: vs)
  | .readRegister a => addrWord 0x01 a 0
  | .writeRegister a v => addrWord 0x02 a v
  | .readRegisterAS a => addrWord 0x03 a 0
  | .writeRegisterAS a v => addrWord 0x04 a v
  | .multiReadRegister a n => addrWord 0x05 a n
  | .multiWriteRegister a vs => .op (mkWord 0x06 0 a 0 (BitVec.ofNat 8 vs.length)) vs 0
  | .enableOptions a bits => addrWord 0x07 a bits
  | .disableOptions a bits => addrWord 0x08 a bits
  | .setAckstat => plainWord 0x09
  | .enableInterrupts bits => immWord 0x0A bits
  | .disableInterrupts bits => immWord 0x0B bits
  | .enableEndpointInterrupts bits => immWord 0x0C bits
  | .disableEndpointInterrupts bits => immWord 0x0D bits
  | .clearInterruptStatus bits => immWord 0x0E bits
  | .clearEndpointInterruptStatus bits => immWord 0x0F bits
  | .getEnabledInterruptStatus => plainWord 0x10
  | .getEnabledEndpointInterruptStatus => plainWord 0x11
  | .masterEnable => plainWord 0x12
  | .masterDisable => plainWord 0x13
  | .reset => plainWord 0x14
  | .start .host => immWord 0x15 0
  | .start .peripheral => immWord 0x15 1
  | .scanBus => plainWord 0x16
  | .registerCallback none => immWord 0x17 0
  | .registerCallback (some r) => .op (mkWord 0x17 0 0 0 1) [] r
  | .illegal00 low => .op (0#5 ++ low) [] 0
  | .illegal18to1F low => .op (0b11#2 ++ low) [] 0
  | .onSetup => .evt 0b0001
  | .onInBufAvail => .evt 0b0010
  | .onResetDone => .evt 0b0100
  | .onConnectDetect => .evt 0b1000

/-! ## The opcode table's numbering -/

/-- Whether an 8-bit table word is taken as an event-select vector: a number below 16 that has bit 2 set, which no command byte has (R88),
or one of the other one-bit vectors 1, 2 and 8. A row of format `EVT` has 4 bits and is asked for in whole bytes, as the 8-bit rows of
format `CB` are; the block never confuses the two, since they never share a port. -/
def isEvtByte (w : Nat) : Bool := w.testBit 2 && Nat.blt w 16 || w == 1 || w == 2 || w == 8

/-- How a table word of `nbits` bits is presented to the block: 24 bits are an operation word (with as many payload bytes of zeros as
it announces), 4 bits an event-select vector, 8 bits a command byte followed by one data byte of zeros (a single access), or an
event-select vector. -/
def tableLayout (nbits w : Nat) : Presented :=
  if nbits == 24 then
    .op (BitVec.ofNat 24 w) (List.replicate (payloadCount (BitVec.ofNat 24 w)) 0) 0
  else if nbits == 4 || isEvtByte w then .evt (BitVec.ofNat 4 w)
  else .bus [BitVec.ofNat 8 w, 0]

/-- The instruction the decoder reads from a row of spec/opcode_table.json whose bits are `w`. -/
def decodeTableWord (nbits w : Nat) : Option Instr := (decode (tableLayout nbits w)).toOption

end Sys2Proof
end

