-- ==== Sys2Proof/Machine/State.lean ====
section
/-! DEFINITION. The state of the block (R20), the inputs and outputs of its step relation (R33), the reasons to stop, and the
state after power-on reset (R34, R250). -/

namespace Sys2Proof.Machine

/-- `ROLE` (R23). `unset` is a value of the register, held from power-on until the one accepted `start`. -/
inductive Role where
  | unset
  | host
  | peripheral
deriving DecidableEq, Repr, Inhabited

/-- `BSTATE` (R27). -/
inductive BusState where
  | noDevice
  | connected
  | resetting
  | enumerating
  | ready
deriving DecidableEq, Repr, Inhabited

/-- The result codes on the operation port (R226). -/
inductive ResCode where
  | ok
  | transportError
  | hardwareTimeout
  | refused
deriving DecidableEq, Repr, Inhabited

/-- What the operation port gives for one operation (R11, R84): its result code and the bytes that came out of the data-out port
while it ran. After a `TransportError` in a burst read these are the bytes received before the failing exchange (R116, R119). -/
structure Answer where
  code : ResCode
  out : List Byte
deriving DecidableEq, Repr, Inhabited

/-- An item of the schedule (R261): an operation word with its payload and, beside it, a callback reference; a falling edge on
`INT_N` that reaches an idle block; or a raw bus transaction given to the byte transport (R101), which no word of the operation port can ask for. -/
inductive Item where
  | op (w : OpWord) (payload : List Byte) (ref : CallbackRef)
  | bus (bytes : List Byte)
  | edge
deriving DecidableEq, Repr, Inhabited

/-- Why the machine stops. -/
inductive Fault where
  /-- Raised by a read of an `RXBUF` byte that was never written (R34; U12 of 93_implementation_defined.md: such a read has no
  value). No rule of the block makes such a read. Safe: nothing can be proved of a value that does not exist. -/
  | rxbufUnwritten (index : Nat)
deriving DecidableEq, Repr

/-- Why the model gives no meaning. -/
inductive Refusal where
  /-- Raised by `exec` for an instruction without a meaning. Safe. -/
  | notModelled (mnemonic : String)
  /-- Raised by `step` for a raw bus transaction that is no command byte followed by data bytes of this block (R54, R56, R82,
  R88: "one this block cannot have produced"). Such an item is in no schedule. Safe. -/
  | notATransaction
deriving DecidableEq, Repr

/-- The state: the ten registers of R20; then the model's own fields: the running dispatcher's remaining handlers, and what R33
calls the parameters of the step relation (configuration, oracles, schedule) and its outputs (trace, results). -/
@[ext]
structure State where
  /-- `ACKSTAT` (R21). -/
  ackstat : Bool
  /-- `enabledTopIRQ` (R22). -/
  enabledTopIRQ : Byte
  /-- `enabledEndpointIRQ` (R22). -/
  enabledEndpointIRQ : Byte
  /-- `ROLE` (R23). -/
  role : Role
  /-- `CONN` (R24): true is connected. -/
  conn : Bool
  /-- `CB` (R25). -/
  cb : Option CallbackRef
  /-- `RXBUF` (R26): the bytes that have a value, by index. -/
  rxbuf : List Host.Cell
  /-- `BSTATE` (R27). -/
  bstate : BusState
  /-- `IRQ_PEND` (R28). -/
  irqPend : Bool
  /-- `INT_ARMED` (R29). -/
  intArmed : Bool
  /-- The model's own: the handlers the running dispatcher has still to run (R214, R31); 0 when the block is idle. -/
  sel : Sel
  /-- The model's own: the configuration `Cfg` (R7). No step writes it. -/
  cfg : Cfg
  /-- The model's own: what the chip does in the next exchanges; where the list ends, `Config.chip` answers (R52). -/
  chip : List ChipAnswer
  /-- The model's own: what the collaborators do in the next calls; where the list ends, `Config.collab` answers (R228). -/
  collab : List CollabAnswer
  /-- The model's own: what reaches the block next (R261). -/
  sched : List Item
  /-- The model's own: the items of the schedule placed in the middle of an operation or a dispatcher run (R261): for each exchange to
  come, whether a falling edge falls in it. Where the list ends none does. -/
  midEdges : List Bool
  /-- The model's own: the event trace, oldest first (R12). -/
  trace : List Event
  /-- The model's own: the results given on the operation port, oldest first (R226, R261). -/
  results : List Answer
deriving DecidableEq, Repr

/-- Power-on reset (R34, R250): the ten registers at the values of the table of R34, the block idle, nothing presented yet. -/
def State.reset : State where
  ackstat := false
  enabledTopIRQ := 0x00
  enabledEndpointIRQ := 0x00
  role := .unset
  conn := false
  cb := none
  rxbuf := []
  bstate := .noDevice
  irqPend := false
  intArmed := false
  sel := 0
  cfg := Config.cfg
  chip := []
  collab := []
  sched := []
  midEdges := []
  trace := []
  results := []

end Sys2Proof.Machine
end

