-- ==== Sys2Proof/Machine/Flags.lean ====
section
/-! DEFINITION. The conditions that steer a sequence (R32): each is computed from a byte just read, none is stored. -/

namespace Sys2Proof.Machine

/-- Some bit of the mask is 1 in `v`: `(v & mask) != 0` (R32). -/
def anyBit (v mask : Byte) : Bool := v &&& mask != 0

/-- Oscillator stable (R151). -/
def oscStable (c : Cfg) (v : Byte) : Bool := anyBit v c.b.oscOk

/-- Frame generated, in the raw status (R176). -/
def frameSeen (c : Cfg) (v : Byte) : Bool := anyBit v c.b.frame

/-- Sampling complete (R180). -/
def sampleDone (c : Cfg) (v : Byte) : Bool := v &&& c.b.sampleDoneMask == c.b.sampleDoneValue

/-- The line state `(v & 0xC0) >> 6`: 0 = SE0, 1 = K, 2 = J, 3 = both (R171, R181). -/
def lineState (v : Byte) : Byte := (v &&& 0xC0) >>> 6

/-- Device present: any non-zero line state (R171). -/
def devicePresent (v : Byte) : Bool := lineState v != 0

/-- OR-in (R117). -/
def setBits (v bits : Byte) : Byte := v ||| bits

/-- AND-NOT-out (R118). -/
def clearBits (v bits : Byte) : Byte := v &&& ~~~bits

/-- Enabled status: raw status AND the shadow mask (R138, R139). -/
def enabledStatus (raw mask : Byte) : Byte := raw &&& mask

/-- One bit of `SEL`. -/
def selBit (b : Bool) (i : Nat) : Sel := if b then 1#4 <<< i else 0

/-- `SEL[3:0]` from the snapshot and the role (R89). -/
def selVector (c : Cfg) (r : Role) (t e : Byte) : Sel :=
  match r with
  | .unset => 0
  | .host => selBit (anyBit t c.b.conDet) 3
  | .peripheral => selBit (anyBit e c.b.sudAv) 0 ||| selBit (anyBit e c.b.inBAv) 1 ||| selBit (anyBit t c.b.uresDn) 2

/-- `SEL` without its lowest set bit: the handlers left once that one has been started (R214: ascending bit order). -/
def clearLowest (sel : Sel) : Sel := sel &&& (sel - 1)

end Sys2Proof.Machine
end

