-- ==== Sys2Proof/Machine/Operands.lean ====
section
/-! DEFINITION. The operand forms that are not in the word: the register addresses an operation takes from the role's table (R8, R136),
and the indices and range checks of bursts. -/

namespace Sys2Proof.Machine

/-- The role `start(role)` fixes (R155). -/
def roleOf : UsbRole → Role
  | .host => .host
  | .peripheral => .peripheral

/-- `TOPIEN(ROLE)` (R136); undefined while `ROLE = Unset`. -/
def topIen (c : Cfg) : Role → Option Addr
  | .unset => none
  | .host => some c.host.topIen
  | .peripheral => some c.periph.topIen

/-- `TOPIRQ(ROLE)` (R136). -/
def topIrq (c : Cfg) : Role → Option Addr
  | .unset => none
  | .host => some c.host.topIrq
  | .peripheral => some c.periph.topIrq

/-- `GATE(ROLE)` (R136). -/
def gateReg (c : Cfg) : Role → Option Addr
  | .unset => none
  | .host => some c.host.gate
  | .peripheral => some c.periph.gate

/-- `CHIPCTL(ROLE)` (R150). -/
def chipCtl (c : Cfg) : Role → Option Addr
  | .unset => none
  | .host => some c.host.chipCtl
  | .peripheral => some c.periph.chipCtl

/-- `OSCSTAT(ROLE)` (R151). -/
def oscStat (c : Cfg) : Role → Option Addr
  | .unset => none
  | .host => some c.host.oscStat
  | .peripheral => some c.periph.oscStat

/-- The third pair, `(ien, irq)`, if both are addresses (R152). -/
def thirdPair (p : PeriphRegs) : List (Addr × Addr) :=
  match p.pair3Ien, p.pair3Irq with
  | some ien, some irq => [(ien, irq)]
  | _, _ => []

/-- `PAIRS(ROLE)`, each `(ien, irq)` (R152). -/
def pairs (c : Cfg) : Role → List (Addr × Addr)
  | .unset => []
  | .host => [(c.host.topIen, c.host.topIrq)]
  | .peripheral => [(c.periph.topIen, c.periph.topIrq), (c.periph.epIen, c.periph.epIrq)] ++ thirdPair c.periph

/-- Whether a burst of `n` bytes is one the block makes (R56, R57, R87). -/
def burstAllowed (c : Cfg) (n : Nat) : Bool := Nat.ble n c.maxBurst

end Sys2Proof.Machine
end

