-- ==== Sys2Proof/Machine/Ops.lean ====
section
/-! DEFINITION. The shared operations: the receive buffer, the trace and the interrupt latch, byte transport, register access, the
shadow masks, polls, collaborator calls, and the start and the return of a dispatcher run. Every meaning is built from these. -/

namespace Sys2Proof.Machine

/-- What a step of an operation gives (R11): data, a fault, or `Refused`. -/
inductive Res (α : Type) where
  | ok (a : α)
  | fault (k : FaultKind)
  | refused
deriving DecidableEq, Repr

/-- The result without its data. -/
def Res.done {α : Type} : Res α → Res Unit
  | .ok _ => .ok ()
  | .fault k => .fault k
  | .refused => .refused

/-- The result with its data changed. -/
def Res.map {α β : Type} (f : α → β) : Res α → Res β
  | .ok a => .ok (f a)
  | .fault k => .fault k
  | .refused => .refused

/-! ## The receive buffer (R26, R50, R53) -/

/-- Whether cells are in the canonical form: indices strictly rising and below the bound, starting no lower than `lo`. A byte that is not
listed has no value, so no listed value is excluded. -/
def cellsFrom (lo : Nat) : List Host.Cell → Bool
  | [] => true
  | (i, _) :: rest => Nat.ble lo i && Nat.blt i 64 && cellsFrom (i + 1) rest

/-- The canonical form of `RXBUF`: strictly rising indices, all in [0,63] (R26). -/
def Memory.wf (m : List Host.Cell) : Bool := cellsFrom 0 m

/-- The byte of `RXBUF` at an index; none where no byte was ever written (R34). -/
def rxPeek : List Host.Cell → Nat → Option Byte
  | [], _ => none
  | (j, v) :: rest, i => if j = i then some v else rxPeek rest i

/-- A write of one byte, in the canonical form. -/
def rxPoke (i : Nat) (b : Byte) : List Host.Cell → List Host.Cell
  | [] => [(i, b)]
  | (j, v) :: rest =>
    if i < j then (i, b) :: (j, v) :: rest
    else if i = j then (i, b) :: rest
    else (j, v) :: rxPoke i b rest

/-- Writes of consecutive bytes in ascending order from an index (R53); `RXBUF` ends at index 63 (R26). -/
def rxFill (i : Nat) : List Byte → List Host.Cell → List Host.Cell
  | [], m => m
  | b :: bs, m => if i < 64 then rxFill (i + 1) bs (rxPoke i b m) else m

/-- A read of one byte; a byte without a value is a fault (R34). -/
def rxRead (i : Nat) (m : List Host.Cell) : Except Fault Byte :=
  match rxPeek m i with
  | some b => .ok b
  | none => .error (.rxbufUnwritten i)

/-- A read of consecutive bytes. -/
def rxReadMany (i : Nat) : Nat → List Host.Cell → Except Fault (List Byte)
  | 0, _ => .ok []
  | n + 1, m =>
    match rxRead i m with
    | .error e => .error e
    | .ok b =>
      match rxReadMany (i + 1) n m with
      | .error e => .error e
      | .ok bs => .ok (b :: bs)

/-! ## Trace, results, interrupt latch -/

/-- Records one event (R12). -/
def State.emit (s : State) (e : Event) : State := { s with trace := s.trace ++ [e] }

/-- `Log(Fault(kind))` (R231). -/
def State.logFault (s : State) (k : FaultKind) : State := s.emit (.log (.fault k))

/-- `Delay(T)`: an event and nothing else (R260). -/
def State.delay (s : State) (d : DelayName) : State := s.emit (.delay d)

/-- The operation port answers (R226). -/
def State.answer (s : State) (a : Answer) : State := { s with results := s.results ++ [a] }

/-- A falling edge on `INT_N` (R211): it sets `IRQ_PEND` while `INT_ARMED = 1`, is lost otherwise, and is absorbed while
`IRQ_PEND` is already 1. -/
def State.fallingEdge (s : State) : State := { s with irqPend := s.irqPend || s.intArmed }

/-- The edge, if one falls here. -/
def State.edgeIf (s : State) (b : Bool) : State := if b then s.fallingEdge else s

/-! ## Byte transport (R100 to R103) -/

/-- What the chip does in the next exchange (R52). -/
def State.chipAnswer (s : State) (out : Byte) : ChipAnswer :=
  match s.chip with
  | a :: _ => a
  | [] => Config.chip s.trace out

/-- `Xchg(out)`: one full-duplex exchange; none is `TransportError` (R100, R102). The edge the schedule places in it, if any, falls (R261). -/
def xchg (out : Byte) (s : State) : Option Byte × State :=
  ((s.chipAnswer out).miso,
    ({ s with chip := s.chip.tail, midEdges := s.midEdges.tail }.edgeIf (s.midEdges.headD false)).emit (.x out (s.chipAnswer out).miso))

/-- What a sequence of exchanges gives: the bytes shifted in, and whether every exchange succeeded. -/
structure Xfer where
  ins : List Byte
  ok : Bool
deriving DecidableEq, Repr

/-- The exchanges of a list, stopping at the first `TransportError` (R101). -/
def xchgs : List Byte → State → Xfer × State
  | [], s => (⟨[], true⟩, s)
  | o :: os, s =>
    match xchg o s with
    | (none, s1) => (⟨[], false⟩, s1)
    | (some b, s1) =>
      match xchgs os s1 with
      | (r, s2) => (⟨b :: r.ins, r.ok⟩, s2)

/-- `exchangeSequence(outs)`: one transaction, framed by `SS(0)` and `SS(1)`, also when it ends early (R54, R101). -/
def exchangeSequence (outs : List Byte) (s : State) : Xfer × State :=
  match xchgs outs (s.emit (.ss false)) with
  | (r, s1) => (r, s1.emit (.ss true))

/-! ## Transactions (R56, R57, R83) -/

/-- `BuildCmd(a, d)`: the command byte, and `ACKSTAT` cleared at construction (R83). -/
def buildCmd (a : Addr) (d : Dir) (s : State) : Byte × State :=
  (cmdByte a d s.ackstat, { s with ackstat := false })

/-- One transaction: a command byte built here, then the data bytes. The byte shifted in during the command phase is discarded
(R56, R57). -/
def transaction (a : Addr) (d : Dir) (datas : List Byte) (s : State) : Xfer × State :=
  match exchangeSequence ((buildCmd a d s).1 :: datas) (buildCmd a d s).2 with
  | (r, s1) => (⟨r.ins.tail, r.ok⟩, s1)

/-- `MemRead(a, n)` (R56): the dummy byte is `0x00`. -/
def memRead (a : Addr) (n : Nat) (s : State) : Xfer × State := transaction a .read (List.replicate n 0) s

/-- `MemWrite(a, n, vs)` (R57). -/
def memWrite (a : Addr) (vs : List Byte) (s : State) : Xfer × State := transaction a .write vs s

/-- The one data byte of a single access. -/
def Xfer.single : Xfer → Res Byte
  | ⟨v :: _, true⟩ => .ok v
  | _ => .fault .transportError

/-- Whether the transaction went through. -/
def Xfer.done (x : Xfer) : Res Unit := if x.ok then .ok () else .fault .transportError

/-! ## Register access (R110 to R119) -/

/-- `ACKSTAT <- 1` (R110). -/
def setFlag (s : State) : State := { s with ackstat := true }

/-- `readRegister(addr)` (R111). -/
def readReg (a : Addr) (s : State) : Res Byte × State :=
  match memRead a 1 s with
  | (x, s1) => (x.single, s1)

/-- `writeRegister(addr, value)`: gives the byte shifted in during the data byte (R112). -/
def writeReg (a : Addr) (v : Byte) (s : State) : Res Byte × State :=
  match memWrite a [v] s with
  | (x, s1) => (x.single, s1)

/-- `readRegisterAS(addr)` (R113, R92). -/
def readRegAS (a : Addr) (s : State) : Res Byte × State := readReg a (setFlag s)

/-- `writeRegisterAS(addr, value)` (R114, R92). -/
def writeRegAS (a : Addr) (v : Byte) (s : State) : Res Byte × State := writeReg a v (setFlag s)

/-- The read-modify-write of R117 and R118: two transactions; if the read faults the write is not attempted; the byte the write shifts in
is discarded. -/
def rmw (f : Byte → Byte) (a : Addr) (s : State) : Res Unit × State :=
  match readReg a s with
  | (.ok v, s1) =>
    match writeReg a (f v) s1 with
    | (r, s2) => (r.done, s2)
  | (.fault k, s1) => (.fault k, s1)
  | (.refused, s1) => (.refused, s1)

/-- `enableOptions(addr, bits)` (R117). -/
def enableOpts (a : Addr) (bits : Byte) (s : State) : Res Unit × State := rmw (setBits · bits) a s

/-- `disableOptions(addr, bits)` (R118). -/
def disableOpts (a : Addr) (bits : Byte) (s : State) : Res Unit × State := rmw (clearBits · bits) a s

/-! ## Bursts from the operation port (R87, R115, R116) -/

/-- What `multiReadRegister` gives: the result, and the bytes delivered to the data-out port, which stay delivered after a fault
(R116). More than `MAX_BURST` bytes are `Refused` with nothing done (R87). -/
def burstRead (a : Addr) (n : Nat) (s : State) : (Res Unit × List Byte) × State :=
  if burstAllowed s.cfg n then
    match memRead a n s with
    | (x, s1) => ((x.done, x.ins), s1)
  else ((.refused, []), s)

/-- `multiWriteRegister`: the bytes shifted in are discarded (R115). -/
def burstWrite (a : Addr) (vs : List Byte) (s : State) : Res Unit × State :=
  if burstAllowed s.cfg vs.length then
    match memWrite a vs s with
    | (x, s1) => (x.done, s1)
  else (.refused, s)

/-! ## Interrupt shadow state (R130 to R142). `ROLE = Unset` refuses all of it (R142). -/

/-- `enableInterrupts(bits)`: write-through, and the mask updated whatever the write-through gives (R130). -/
def enableTop (bits : Byte) (s : State) : Res Unit × State :=
  match topIen s.cfg s.role with
  | none => (.refused, s)
  | some a =>
    match enableOpts a bits s with
    | (r, s1) => (r, { s1 with enabledTopIRQ := setBits s1.enabledTopIRQ bits })

/-- `disableInterrupts(bits)` (R131). -/
def disableTop (bits : Byte) (s : State) : Res Unit × State :=
  match topIen s.cfg s.role with
  | none => (.refused, s)
  | some a =>
    match disableOpts a bits s with
    | (r, s1) => (r, { s1 with enabledTopIRQ := clearBits s1.enabledTopIRQ bits })

/-- `enableEndpointInterrupts(bits)`: nothing in Host role (R132). -/
def enableEp (bits : Byte) (s : State) : Res Unit × State :=
  match s.role with
  | .unset => (.refused, s)
  | .host => (.ok (), s)
  | .peripheral =>
    match enableOpts s.cfg.periph.epIen bits s with
    | (r, s1) => (r, { s1 with enabledEndpointIRQ := setBits s1.enabledEndpointIRQ bits })

/-- `disableEndpointInterrupts(bits)` (R133). -/
def disableEp (bits : Byte) (s : State) : Res Unit × State :=
  match s.role with
  | .unset => (.refused, s)
  | .host => (.ok (), s)
  | .peripheral =>
    match disableOpts s.cfg.periph.epIen bits s with
    | (r, s1) => (r, { s1 with enabledEndpointIRQ := clearBits s1.enabledEndpointIRQ bits })

/-- `clearInterruptStatus(bits)`: one plain write (R134). -/
def clearTop (bits : Byte) (s : State) : Res Unit × State :=
  match topIrq s.cfg s.role with
  | none => (.refused, s)
  | some a =>
    match writeReg a bits s with
    | (r, s1) => (r.done, s1)

/-- `clearEndpointInterruptStatus(bits)`: nothing in Host role (R135). -/
def clearEp (bits : Byte) (s : State) : Res Unit × State :=
  match s.role with
  | .unset => (.refused, s)
  | .host => (.ok (), s)
  | .peripheral =>
    match writeReg s.cfg.periph.epIrq bits s with
    | (r, s1) => (r.done, s1)

/-- `getEnabledInterruptStatus()` (R138). -/
def statusTop (s : State) : Res Byte × State :=
  match topIrq s.cfg s.role with
  | none => (.refused, s)
  | some a =>
    match readReg a s with
    | (r, s1) => (r.map (enabledStatus · s1.enabledTopIRQ), s1)

/-- `getEnabledEndpointInterruptStatus()`: `0x00` without bus activity in Host role (R139). -/
def statusEp (s : State) : Res Byte × State :=
  match s.role with
  | .unset => (.refused, s)
  | .host => (.ok 0x00, s)
  | .peripheral =>
    match readReg s.cfg.periph.epIrq s with
    | (r, s1) => (r.map (enabledStatus · s1.enabledEndpointIRQ), s1)

/-- `masterEnable()` (R140). -/
def gateOn (s : State) : Res Unit × State :=
  match gateReg s.cfg s.role with
  | none => (.refused, s)
  | some a => enableOpts a s.cfg.b.gate s

/-- `masterDisable()` (R141). -/
def gateOff (s : State) : Res Unit × State :=
  match gateReg s.cfg s.role with
  | none => (.refused, s)
  | some a => disableOpts a s.cfg.b.gate s

/-! ## Polls (R151, R176, R180) -/

/-- How a poll ends. -/
inductive PollEnd where
  | seen
  | timeout
  | fault
deriving DecidableEq, Repr

/-- At most `cap` reads of a register, the test after each; `miss` is what follows a read that fails the test. -/
def poll (a : Addr) (hit : Byte → Bool) (miss : State → State) : Nat → State → PollEnd × State
  | 0, s => (.timeout, s)
  | cap + 1, s =>
    match readReg a s with
    | (.ok v, s1) => if hit v then (.seen, s1) else poll a hit miss cap (miss s1)
    | (.fault _, s1) => (.fault, s1)
    | (.refused, s1) => (.fault, s1)

/-! ## Collaborators and the callback (R178, R192, R228, R229) -/

/-- One operation presented from inside a call, run at once; its result goes to the collaborator, not to the operation port (R228). -/
def runNested : CollabOp → State → State
  | .readRegister a, s => (readReg a s).2
  | .writeRegister a v, s => (writeReg a v s).2
  | .readRegisterAS a, s => (readRegAS a s).2
  | .writeRegisterAS a v, s => (writeRegAS a v s).2
  | .multiReadRegister a n, s => (burstRead a n.toNat s).2
  | .multiWriteRegister a vs, s => (burstWrite a vs s).2
  | .enableOptions a bits, s => (enableOpts a bits s).2
  | .disableOptions a bits, s => (disableOpts a bits s).2
  | .setAckstat, s => setFlag s
  | .enableInterrupts bits, s => (enableTop bits s).2
  | .disableInterrupts bits, s => (disableTop bits s).2
  | .enableEndpointInterrupts bits, s => (enableEp bits s).2
  | .disableEndpointInterrupts bits, s => (disableEp bits s).2
  | .clearInterruptStatus bits, s => (clearTop bits s).2
  | .clearEndpointInterruptStatus bits, s => (clearEp bits s).2
  | .getEnabledInterruptStatus, s => (statusTop s).2
  | .getEnabledEndpointInterruptStatus, s => (statusEp s).2
  | .masterEnable, s => (gateOn s).2
  | .masterDisable, s => (gateOff s).2

/-- The operations of one call, in order. -/
def runAll : List CollabOp → State → State
  | [], s => s
  | o :: os, s => runAll os (runNested o s)

/-- What the callee does in the call just recorded. -/
def State.collabAnswer (s : State) : CollabAnswer :=
  match s.collab with
  | a :: _ => a
  | [] => Config.collab s.trace

/-- A synchronous call, recorded as the given event: `Call(name, args)` or `Notify(b)`. Gives the callee's answer (R10, R228). -/
def callOut (e : Event) (s : State) : Bool × State :=
  (((s.emit e).collabAnswer).success,
    runAll ((s.emit e).collabAnswer).ops { s.emit e with collab := s.collab.tail })

/-! ## The operation port -/

/-- The result code of a result (R226). -/
def Res.code {α : Type} : Res α → ResCode
  | .ok _ => .ok
  | .fault .transportError => .transportError
  | .fault .hardwareTimeout => .hardwareTimeout
  | .refused => .refused

/-- `RES[1:0]` (R226). -/
def resBits : ResCode → BitVec 2
  | .ok => 0
  | .transportError => 1
  | .hardwareTimeout => 2
  | .refused => 3

/-- The answer of an operation that returns nothing. -/
def answerUnit (r : Res Unit × State) : State := r.2.answer ⟨r.1.code, []⟩

/-- The data byte of a result, if it has one. -/
def Res.bytes : Res Byte → List Byte
  | .ok b => [b]
  | .fault _ => []
  | .refused => []

/-- The answer of an operation that returns a byte. -/
def answerByte (r : Res Byte × State) : State := r.2.answer ⟨r.1.code, r.1.bytes⟩

/-- `Refused`, with no other change (R223). -/
def answerRefused (s : State) : State := s.answer ⟨.refused, []⟩

/-! ## The dispatcher: start and return of a run (R212 to R215) -/

/-- The start of a dispatcher run: `IRQ_PEND <- 0`, the snapshot (top-level status first, then endpoint status), `SEL`. Nothing is saved, no
mode is switched. A fault in a read is logged and ends the run; a fault in the first means the second is not made (R213). -/
def takeInterrupt (s : State) : State :=
  match statusTop { s with irqPend := false } with
  | (.ok t, s1) =>
    match statusEp s1 with
    | (.ok e, s2) => { s2 with sel := selVector s2.cfg s2.role t e }
    | (.fault k, s2) => s2.logFault k
    | (.refused, s2) => s2
  | (.fault k, s1) => s1.logFault k
  | (.refused, s1) => s1

/-- The return: the handler about to run is struck from the remaining ones; with none left the run ends with it and the block is idle.
Nothing is restored, nothing having been saved (R214, R215). -/
def retireHandler (s : State) : State := { s with sel := clearLowest s.sel }

end Sys2Proof.Machine
end

