-- ==== Sys2Proof/Machine/BusState.lean ====
section
/-! DEFINITION. The meanings of `scanBus()` and of the handler `onConnectDetect` (R170 to R181). -/

namespace Sys2Proof.Machine

/-- `scanBus()` after its poll (R180 step 3). -/
def scanLines (p : PollEnd × State) : Res Byte × State :=
  match p with
  | (.seen, s) =>
    match readReg s.cfg.host.lineState s with
    | (r, s1) => (r.map lineState, s1)
  | (.timeout, s) => (.fault .hardwareTimeout, s)
  | (.fault, s) => (.fault .transportError, s)

/-- `scanBus()` (R180): `Refused` outside Host role. -/
def scanOp (s : State) : Res Byte × State :=
  match s.role with
  | .unset => (.refused, s)
  | .peripheral => (.refused, s)
  | .host =>
    match enableOpts s.cfg.host.sampleReg s.cfg.b.sampleBus s with
    | (.ok (), s1) =>
      scanLines (poll s1.cfg.host.sampleDone (sampleDone s1.cfg) (·.delay .samplePoll) s1.cfg.samplePollCap s1)
    | (.fault k, s1) => (.fault k, s1)
    | (.refused, s1) => (.refused, s1)

/-- The operation `scanBus()`. -/
def execScanBus (s : State) : Host.Outcome State Fault Refusal := .next (answerByte (scanOp s))

/-- A handler's step that may fault: a fault is logged and the handler goes on (R177, R194, R195, R227). -/
def logged (r : Res Unit × State) : State :=
  match r with
  | (.ok (), s) => s
  | (.fault k, s) => s.logFault k
  | (.refused, s) => s

/-- The notification, on a change only (R174): `CONN` is updated, and the callback invoked if there is one. -/
def notifyChange (connected : Bool) (s : State) : State :=
  if connected = s.conn then s
  else
    match s.cb with
    | some cb => (callOut (.notify cb connected) { s with conn := connected }).2
    | none => { s with conn := connected }

/-- Step 4 of `onConnectDetect` (R174): notify on change, then acknowledge, last. -/
def finishConnect (connected : Bool) (s : State) : State :=
  logged (clearTop s.cfg.b.conDet (notifyChange connected s))

/-- Step 3 of `onConnectDetect`, the not-connected path (R173, R175), then step 4. -/
def notConnected (s : State) : State :=
  finishConnect false
    { logged (disableOpts s.cfg.host.sofReg s.cfg.b.sofEn s) with bstate := .noDevice }

/-- The fault path of steps 1 to 2b (R176, R177): logged, reported as not connected. -/
def abortConnect (k : FaultKind) (s : State) : State := notConnected (s.logFault k)

/-- Steps 2c to 2f of `onConnectDetect` (R172, R175, R178), then step 4. -/
def bringUp (s : State) : State :=
  match callOut (.call .performBusReset) { s with bstate := .resetting } with
  | (_, s1) =>
    match callOut (.call .performEnumeration) { s1.delay .settle with bstate := .enumerating } with
    | (ok, s2) =>
      let s3 := (s2.emit (.log (.enumResult ok))).delay .stabilize
      finishConnect true (if ok then { s3 with bstate := .ready } else s3)

/-- Steps 2a and 2b of `onConnectDetect`: start-of-frame on, wait for the frame bit in the raw status (R172, R176). -/
def connectedPath (s : State) : State :=
  match enableOpts s.cfg.host.sofReg s.cfg.b.sofEn s with
  | (.ok (), s1) =>
    match poll s1.cfg.host.topIrq (frameSeen s1.cfg) id s1.cfg.framePollCap s1 with
    | (.seen, s2) => bringUp s2
    | (.timeout, s2) => abortConnect .hardwareTimeout s2
    | (.fault, s2) => abortConnect .transportError s2
  | (.fault k, s1) => abortConnect k s1
  | (.refused, s1) => abortConnect .transportError s1

/-- `onConnectDetect` from step 1 (R171). -/
def connectDetect (s : State) : State :=
  match readReg s.cfg.host.lineState s with
  | (.ok v, s1) => if devicePresent v then connectedPath { s1 with bstate := .connected } else notConnected s1
  | (.fault k, s1) => abortConnect k s1
  | (.refused, s1) => abortConnect .transportError s1

/-- The handler `onConnectDetect` (R170): it runs only in Host role, and in no other role is it ever started, so there it does
nothing (DEDUCED, log entry 10). -/
def execOnConnectDetect (s : State) : Host.Outcome State Fault Refusal :=
  match s.role with
  | .unset => .next s
  | .host => .next (connectDetect s)
  | .peripheral => .next s

end Sys2Proof.Machine
end

