-- ==== Sys2Proof/Machine/Illegal.lean ====
section
/-! DEFINITION. The meanings of the two illegal rows: `Refused`, no state change, no bus activity (R87, R223). -/

namespace Sys2Proof.Machine

/-- `ILLEGAL_00`: `OPC = 0x00` (R87). -/
def execIllegal00 (s : State) : Host.Outcome State Fault Refusal := .next (answerRefused s)

/-- `ILLEGAL_18_1F`: `OPC = 0x18..0x1F` (R87). -/
def execIllegal18to1F (s : State) : Host.Outcome State Fault Refusal := .next (answerRefused s)

end Sys2Proof.Machine
end

