-- ==== Sys2Proof/Machine/InterruptShadow.lean ====
section
/-! DEFINITION. The meanings of the interrupt shadow operations (R130 to R142). -/

namespace Sys2Proof.Machine

/-- `enableInterrupts(bits)` (R130). -/
def execEnableInterrupts (bits : Byte) (s : State) : Host.Outcome State Fault Refusal :=
  .next (answerUnit (enableTop bits s))

/-- `disableInterrupts(bits)` (R131). -/
def execDisableInterrupts (bits : Byte) (s : State) : Host.Outcome State Fault Refusal :=
  .next (answerUnit (disableTop bits s))

/-- `enableEndpointInterrupts(bits)` (R132). -/
def execEnableEndpointInterrupts (bits : Byte) (s : State) : Host.Outcome State Fault Refusal :=
  .next (answerUnit (enableEp bits s))

/-- `disableEndpointInterrupts(bits)` (R133). -/
def execDisableEndpointInterrupts (bits : Byte) (s : State) : Host.Outcome State Fault Refusal :=
  .next (answerUnit (disableEp bits s))

/-- `clearInterruptStatus(bits)` (R134). -/
def execClearInterruptStatus (bits : Byte) (s : State) : Host.Outcome State Fault Refusal :=
  .next (answerUnit (clearTop bits s))

/-- `clearEndpointInterruptStatus(bits)` (R135). -/
def execClearEndpointInterruptStatus (bits : Byte) (s : State) : Host.Outcome State Fault Refusal :=
  .next (answerUnit (clearEp bits s))

/-- `getEnabledInterruptStatus()` (R138). -/
def execGetEnabledInterruptStatus (s : State) : Host.Outcome State Fault Refusal :=
  .next (answerByte (statusTop s))

/-- `getEnabledEndpointInterruptStatus()` (R139). -/
def execGetEnabledEndpointInterruptStatus (s : State) : Host.Outcome State Fault Refusal :=
  .next (answerByte (statusEp s))

/-- `masterEnable()` (R140). -/
def execMasterEnable (s : State) : Host.Outcome State Fault Refusal :=
  .next (answerUnit (gateOn s))

/-- `masterDisable()` (R141). -/
def execMasterDisable (s : State) : Host.Outcome State Fault Refusal :=
  .next (answerUnit (gateOff s))

end Sys2Proof.Machine
end

