-- ==== Sys2Proof/Machine/RegisterAccess.lean ====
section
/-! DEFINITION. The meanings of the register access operations (R110 to R119). They ignore `ROLE`. -/

namespace Sys2Proof.Machine

/-- `setAckstat()` (R110): no bus activity. -/
def execSetAckstat (s : State) : Host.Outcome State Fault Refusal :=
  .next (answerUnit (.ok (), setFlag s))

/-- `readRegister(addr)` (R111). -/
def execReadRegister (a : Addr) (s : State) : Host.Outcome State Fault Refusal :=
  .next (answerByte (readReg a s))

/-- `writeRegister(addr, value)` (R112). -/
def execWriteRegister (a : Addr) (v : Byte) (s : State) : Host.Outcome State Fault Refusal :=
  .next (answerByte (writeReg a v s))

/-- `readRegisterAS(addr)` (R113). -/
def execReadRegisterAS (a : Addr) (s : State) : Host.Outcome State Fault Refusal :=
  .next (answerByte (readRegAS a s))

/-- `writeRegisterAS(addr, value)` (R114). -/
def execWriteRegisterAS (a : Addr) (v : Byte) (s : State) : Host.Outcome State Fault Refusal :=
  .next (answerByte (writeRegAS a v s))

/-- `multiReadRegister(addr, buffer, n)` (R116); the buffer is the data-out port (R86). -/
def execMultiReadRegister (a : Addr) (n : Byte) (s : State) : Host.Outcome State Fault Refusal :=
  match burstRead a n.toNat s with
  | ((r, out), s1) => .next (s1.answer ⟨r.code, out⟩)

/-- `multiWriteRegister(addr, values, n)` (R115). -/
def execMultiWriteRegister (a : Addr) (values : List Byte) (s : State) : Host.Outcome State Fault Refusal :=
  .next (answerUnit (burstWrite a values s))

/-- `enableOptions(addr, bits)` (R117). -/
def execEnableOptions (a : Addr) (bits : Byte) (s : State) : Host.Outcome State Fault Refusal :=
  .next (answerUnit (enableOpts a bits s))

/-- `disableOptions(addr, bits)` (R118). -/
def execDisableOptions (a : Addr) (bits : Byte) (s : State) : Host.Outcome State Fault Refusal :=
  .next (answerUnit (disableOpts a bits s))

end Sys2Proof.Machine
end

