-- ==== Sys2Proof/Machine/ResetInit.lean ====
section
/-! DEFINITION. The meanings of `reset()`, `start(role)` and `registerCallback(cb)` (R150 to R157). -/

namespace Sys2Proof.Machine

/-- One bus step after another; a transport fault skips what is left (R154). -/
def andThen (r : Res Unit × State) (f : State → Res Unit × State) : Res Unit × State :=
  match r with
  | (.ok (), s) => f s
  | (.fault k, s) => (.fault k, s)
  | (.refused, s) => (.refused, s)

/-- A plain write whose returned byte is discarded. -/
def writePlain (a : Addr) (v : Byte) (s : State) : Res Unit × State :=
  match writeReg a v s with
  | (r, s1) => (r.done, s1)

/-- Step 5 of `reset()`: per pair, the enable register is zeroed, then the status register fully cleared (R152). -/
def clearPairs : List (Addr × Addr) → State → Res Unit × State
  | [], s => (.ok (), s)
  | (ien, irq) :: rest, s =>
    andThen (writePlain ien 0x00 s) fun s1 => andThen (writePlain irq 0xFF s1) fun s2 => clearPairs rest s2

/-- Steps 4 and 5 of `reset()` (R152). -/
def resetInterrupts (s : State) : Res Unit × State :=
  andThen (gateOff s) fun s1 => clearPairs (pairs s1.cfg s1.role) s1

/-- The result of steps 4 and 5, after a timeout in step 3: a later transport fault replaces the timeout (R154, D41). -/
def timedOut : Res Unit → Res Unit
  | .ok () => .fault .hardwareTimeout
  | .fault k => .fault k
  | .refused => .refused

/-- Steps 3 to 5 of `reset()`: the bounded oscillator wait, then on with the sequence whether or not it timed out (R151, R152, R154). -/
def resetFromPoll (osc : Addr) (s : State) : Res Unit × State :=
  match poll osc (oscStable s.cfg) id s.cfg.oscPollCap s with
  | (.seen, s1) => resetInterrupts s1
  | (.timeout, s1) =>
    match resetInterrupts s1 with
    | (r, s2) => (timedOut r, s2)
  | (.fault, s1) => (.fault .transportError, s1)

/-- Steps 1 to 5 of `reset()`: the chip reset pulse first (R150). -/
def resetBus (ctl osc : Addr) (s : State) : Res Unit × State :=
  andThen (enableOpts ctl s.cfg.b.chipRes s) fun s1 =>
    andThen (disableOpts ctl s1.cfg.b.chipRes s1) fun s2 => resetFromPoll osc s2

/-- Step 6 of `reset()` (R153). -/
def clearShadow (s : State) : State :=
  { s with enabledTopIRQ := 0x00, enabledEndpointIRQ := 0x00, ackstat := false }

/-- `reset()` (R150 to R154): step 6 is done whatever the bus steps gave; `Refused` with `ROLE = Unset`. -/
def resetOp (s : State) : Res Unit × State :=
  match chipCtl s.cfg s.role, oscStat s.cfg s.role with
  | some ctl, some osc =>
    match resetBus ctl osc s with
    | (r, s1) => (r, clearShadow s1)
  | _, _ => (.refused, s)

/-- The operation `reset()`. -/
def execReset (s : State) : Host.Outcome State Fault Refusal := .next (answerUnit (resetOp s))

/-- `start(role)`, second half (R156): the Host option setup; nothing in Peripheral role. -/
def optionSetup (s : State) : Res Unit × State :=
  match s.role with
  | .unset => (.ok (), s)
  | .host => enableOpts s.cfg.host.mode s.cfg.b.hostOpts s
  | .peripheral => (.ok (), s)

/-- `start(role)` (R155, R156): a second `start` is `Refused`. -/
def startOp (r : UsbRole) (s : State) : Res Unit × State :=
  if s.role = .unset then optionSetup { s with role := roleOf r, intArmed := true }
  else (.refused, s)

/-- The operation `start(role)`. -/
def execStart (r : UsbRole) (s : State) : Host.Outcome State Fault Refusal := .next (answerUnit (startOp r s))

/-- `registerCallback(cb)` (R157): the last one wins; no bus activity. -/
def execRegisterCallback (cb : Option CallbackRef) (s : State) : Host.Outcome State Fault Refusal :=
  .next (answerUnit (.ok (), { s with cb := cb }))

end Sys2Proof.Machine
end

