-- ==== Sys2Proof/Machine/SetupHandler.lean ====
section
/-! DEFINITION. The meanings of the three Peripheral-role handlers (R190 to R196). They run only in Peripheral role, and in no other
role is one ever started, so there each does nothing (DEDUCED, log entry 10). -/

namespace Sys2Proof.Machine

/-- How many bytes a setup packet has (R6). -/
def packetBytes : Nat := 8

/-- `onSetup` step 3 (R190 to R193): dispatch on `RXBUF[1]`. -/
def dispatchRequest (q : Byte) (packet : List Byte) (s : State) : State :=
  if q = s.cfg.reqSetAddress then
    match readRegAS s.cfg.periph.ackReg s with
    | (r, s1) => logged (r.done, s1)
  else if q = s.cfg.reqGetStatus then (callOut (.call (.respondToStatusRequest packet)) s).2
  else s.emit (.log (.unimplementedRequest q))

/-- `onSetup` from the receive buffer: the request byte and the packet are read where the burst put them (R190, R192). -/
def dispatchPacket (s : State) : Host.Outcome State Fault Refusal :=
  match rxRead 1 s.rxbuf with
  | .error e => .fault e
  | .ok q =>
    match rxReadMany 0 packetBytes s.rxbuf with
    | .error e => .fault e
    | .ok packet => .next (dispatchRequest q packet s)

/-- `onSetup` step 2: the burst into `RXBUF`; bytes received before a fault stay there, and there is no dispatch (R190). -/
def fetchPacket (s : State) : Host.Outcome State Fault Refusal :=
  match memRead s.cfg.periph.sudFifo packetBytes s with
  | (x, s1) =>
    if x.ok then dispatchPacket { s1 with rxbuf := rxFill 0 x.ins s1.rxbuf }
    else .next ({ s1 with rxbuf := rxFill 0 x.ins s1.rxbuf }.logFault .transportError)

/-- `onSetup` from step 1, the acknowledge (R190). -/
def setupPacket (s : State) : Host.Outcome State Fault Refusal :=
  match clearEp s.cfg.b.sudAv s with
  | (.ok (), s1) => fetchPacket s1
  | (.fault k, s1) => .next (s1.logFault k)
  | (.refused, s1) => .next s1

/-- The handler `onSetup` (R190 to R193). -/
def execOnSetup (s : State) : Host.Outcome State Fault Refusal :=
  match s.role with
  | .unset => .next s
  | .host => .next s
  | .peripheral => setupPacket s

/-- The handler `onInBufAvail` (R195). -/
def execOnInBufAvail (s : State) : Host.Outcome State Fault Refusal :=
  match s.role with
  | .unset => .next s
  | .host => .next s
  | .peripheral => .next (logged (disableEp s.cfg.b.inBAv s))

/-- The four steps of `onResetDone`, each going on after a fault (R194). -/
def resetDone (s : State) : State :=
  let s1 := logged (clearTop s.cfg.b.uresDn s)
  let s2 := logged (enableEp s1.cfg.b.sudAv s1)
  let s3 := logged (enableTop s2.cfg.b.uresDn s2)
  match writeReg s3.cfg.periph.ep2InBc s3.cfg.ep2Refill s3 with
  | (r, s4) => logged (r.done, s4)

/-- The handler `onResetDone` (R194). -/
def execOnResetDone (s : State) : Host.Outcome State Fault Refusal :=
  match s.role with
  | .unset => .next s
  | .host => .next s
  | .peripheral => .next (resetDone s)

end Sys2Proof.Machine
end

