-- ==== Sys2Proof/Machine/Transport.lean ====
section
/-! DEFINITION. The meanings of the two bus transactions, `REGRD` and `REGWR` (R56, R57, R81). -/

namespace Sys2Proof.Machine

/-- A raw transaction given to the byte transport: `MemRead` or `MemWrite` with the command byte's own AS bit standing for the value
`ACKSTAT` has when the byte is constructed (R81). Where `ACKSTAT` already has that value this is the primitive itself; where it
has not, DESIGN CHOICE (log entry 9): the byte presented is the byte sent, and the flag is cleared by its construction all the
same (R60, R83). Its answer is what the primitive returns: the bytes shifted in during the data phase. A burst over `MAX_BURST`
is outside the primitive's domain and is `Refused` (R56, R57, R87). -/
def rawTransaction (a : Addr) (d : Dir) (flag : Bool) (datas : List Byte) (s : State) : State :=
  if burstAllowed s.cfg datas.length then
    match transaction a d datas { s with ackstat := flag } with
    | (x, s1) => s1.answer ⟨x.done.code, x.ins⟩
  else answerRefused s

/-- `REGRD` (R56): `n` dummy bytes go out. -/
def execRegrd (a : Addr) (flag : Bool) (n : Nat) (s : State) : Host.Outcome State Fault Refusal :=
  .next (rawTransaction a .read flag (List.replicate n 0) s)

/-- `REGWR` (R57): the values go out. -/
def execRegwr (a : Addr) (flag : Bool) (values : List Byte) (s : State) : Host.Outcome State Fault Refusal :=
  .next (rawTransaction a .write flag values s)

end Sys2Proof.Machine
end

