-- ==== Sys2Proof/Machine/Dispatch.lean ====
section
/-! DEFINITION. One arm per instruction, one direct call of its meaning each. -/

namespace Sys2Proof.Machine

def exec (i : Instr) (s : State) : Host.Outcome State Fault Refusal :=
  match i with
  | .regrd a flag n => Sys2Proof.Machine.execRegrd a flag n s
  | .regwr a flag values => Sys2Proof.Machine.execRegwr a flag values s
  | .readRegister a => Sys2Proof.Machine.execReadRegister a s
  | .writeRegister a v => Sys2Proof.Machine.execWriteRegister a v s
  | .readRegisterAS a => Sys2Proof.Machine.execReadRegisterAS a s
  | .writeRegisterAS a v => Sys2Proof.Machine.execWriteRegisterAS a v s
  | .multiReadRegister a n => Sys2Proof.Machine.execMultiReadRegister a n s
  | .multiWriteRegister a values => Sys2Proof.Machine.execMultiWriteRegister a values s
  | .enableOptions a bits => Sys2Proof.Machine.execEnableOptions a bits s
  | .disableOptions a bits => Sys2Proof.Machine.execDisableOptions a bits s
  | .setAckstat => Sys2Proof.Machine.execSetAckstat s
  | .enableInterrupts bits => Sys2Proof.Machine.execEnableInterrupts bits s
  | .disableInterrupts bits => Sys2Proof.Machine.execDisableInterrupts bits s
  | .enableEndpointInterrupts bits => Sys2Proof.Machine.execEnableEndpointInterrupts bits s
  | .disableEndpointInterrupts bits => Sys2Proof.Machine.execDisableEndpointInterrupts bits s
  | .clearInterruptStatus bits => Sys2Proof.Machine.execClearInterruptStatus bits s
  | .clearEndpointInterruptStatus bits => Sys2Proof.Machine.execClearEndpointInterruptStatus bits s
  | .getEnabledInterruptStatus => Sys2Proof.Machine.execGetEnabledInterruptStatus s
  | .getEnabledEndpointInterruptStatus => Sys2Proof.Machine.execGetEnabledEndpointInterruptStatus s
  | .masterEnable => Sys2Proof.Machine.execMasterEnable s
  | .masterDisable => Sys2Proof.Machine.execMasterDisable s
  | .reset => Sys2Proof.Machine.execReset s
  | .start r => Sys2Proof.Machine.execStart r s
  | .scanBus => Sys2Proof.Machine.execScanBus s
  | .registerCallback cb => Sys2Proof.Machine.execRegisterCallback cb s
  | .illegal00 _ => Sys2Proof.Machine.execIllegal00 s
  | .illegal18to1F _ => Sys2Proof.Machine.execIllegal18to1F s
  | .onSetup => Sys2Proof.Machine.execOnSetup s
  | .onInBufAvail => Sys2Proof.Machine.execOnInBufAvail s
  | .onResetDone => Sys2Proof.Machine.execOnResetDone s
  | .onConnectDetect => Sys2Proof.Machine.execOnConnectDetect s

end Sys2Proof.Machine
end

