-- ==== Sys2Proof/Machine/Fetch.lean ====
section
/-! DEFINITION. Arbitration: what the block does next (R212, R214, R261), and how something presented becomes the next thing it does. -/

namespace Sys2Proof.Machine

/-- What comes next: an instruction to run in a state, a state reached without one, or no meaning. -/
inductive Next where
  | run (i : Instr) (s : State)
  | done (s : State)
  | stop (r : Refusal)
deriving DecidableEq, Repr

/-- An operation word is taken from the port: decoded, or, if it or its payload is malformed, answered with `Refused` (R87; for the payload
log entry 7). -/
def fetchOp (w : OpWord) (payload : List Byte) (ref : CallbackRef) (s : State) : Next :=
  match decode (.op w payload ref) with
  | .ok i => .run i s
  | .error _ => .done (answerRefused s)

/-- A raw bus transaction is taken. -/
def fetchBus (bytes : List Byte) (s : State) : Next :=
  match decode (.bus bytes) with
  | .ok i => .run i s
  | .error _ => .stop .notATransaction

/-- The next item of the schedule; with none left the block stays idle (R261). -/
def fetchItem (s : State) : Next :=
  match s.sched with
  | [] => .done s
  | .op w payload ref :: rest => fetchOp w payload ref { s with sched := rest }
  | .bus bytes :: rest => fetchBus bytes { s with sched := rest }
  | .edge :: rest => .done { s with sched := rest }.fallingEdge

/-- Arbitration (R212): a running dispatcher goes on with its next handler (R214); an idle block with `IRQ_PEND = 1` starts a
dispatcher run; else it takes the next item of the schedule. -/
def fetch (s : State) : Next :=
  match decode (.evt s.sel) with
  | .ok handler => .run handler (retireHandler s)
  | .error _ => if s.irqPend then .done (takeInterrupt s) else fetchItem s

/-- The state in which what is presented is the very next thing the block does: an operation word or a raw transaction at the head of
the schedule of an idle block with no pending interrupt; an event-select vector as that of the running dispatcher. -/
def State.present (s : State) : Presented → State
  | .op w payload ref => { s with sel := 0, irqPend := false, sched := .op w payload ref :: s.sched }
  | .bus bytes => { s with sel := 0, irqPend := false, sched := .bus bytes :: s.sched }
  | .evt sel => { s with sel := sel }

end Sys2Proof.Machine
end

