-- ==== Sys2Proof/Machine/Step.lean ====
section
/-! DEFINITION. One step: one operation, one handler of a dispatcher run, the start of a dispatcher run, one falling edge, or idling. -/

namespace Sys2Proof.Machine

/-- One step of the block (R212, R261). -/
def step (s : State) : Host.Outcome State Fault Refusal :=
  match fetch s with
  | .run i s1 => exec i s1
  | .done s1 => .next s1
  | .stop r => .refused r

/-- The state whose next step takes the opcode-table word `w` of `nbits` bits and runs it. -/
def State.withFetchWord (s : State) (nbits w : Nat) : State := s.present (tableLayout nbits w)

end Sys2Proof.Machine
end

