-- ==== Sys2Proof/Safety.lean ====
section
/-! DEFINITION. The terms claims are stated in: what a transaction leaves behind for any chip at all, what an operation may change, when a
trace is made of whole transactions, the block's invariant, and the end of a run. -/

namespace Sys2Proof.Machine

/-! ## What the chip does in a transaction, whatever the chip is -/

/-- The chip's answer in an exchange: the script's first, or where there is none the free oracle's over the history (R52). -/
def answerOf (script : List ChipAnswer) (history : List Event) (out : Byte) : ChipAnswer :=
  match script with
  | a :: _ => a
  | [] => Config.chip history out

/-- The chip's answers to a sequence of outgoing bytes, up to and including the first fault (R101, R102). -/
def draws : List ChipAnswer → List Event → List Byte → List ChipAnswer
  | _, _, [] => []
  | script, history, o :: os =>
    if (answerOf script history o).miso.isSome then
      answerOf script history o :: draws script.tail (history ++ [.x o (answerOf script history o).miso]) os
    else [answerOf script history o]

/-- The answers a transaction with these outgoing bytes draws in a state: its `SS(0)` is already in the history. -/
def State.drawn (s : State) (outs : List Byte) : List ChipAnswer :=
  draws s.chip (s.trace ++ [.ss false]) outs

/-- Every exchange of the transaction succeeds. -/
def State.busOk (s : State) (outs : List Byte) : Bool := (s.drawn outs).all (·.miso.isSome)

/-- The bytes shifted in during the data phase: all but the first, the command phase's (R56). -/
def State.busData (s : State) (outs : List Byte) : List Byte := ((s.drawn outs).filterMap (·.miso)).tail

/-- The events of one transaction (R54). -/
def busEvents (outs : List Byte) (used : List ChipAnswer) : List Event :=
  [.ss false] ++ List.zipWith (fun o u => Event.x o u.miso) outs used ++ [.ss true]

/-- `IRQ_PEND` after `n` exchanges, with the edges the schedule places in them (R211, R261). -/
def State.latchAfter (s : State) (n : Nat) : Bool :=
  s.irqPend || (s.intArmed && (s.midEdges.take n).any id)

/-- The state after one transaction: `ACKSTAT` is cleared, the latch may have caught an edge, the script and the edges placed in the
exchanges are consumed, the trace has the transaction's events, and nothing else has changed (R56, R57, R83, R211). -/
def State.afterBus (s : State) (outs : List Byte) : State :=
  { s with
    ackstat := false
    irqPend := s.latchAfter (s.drawn outs).length
    chip := s.chip.drop (s.drawn outs).length
    midEdges := s.midEdges.drop (s.drawn outs).length
    trace := s.trace ++ busEvents outs (s.drawn outs) }

/-- The outgoing bytes of a read of `n` bytes in a state (R56, R82). -/
def State.readBytes (s : State) (a : Addr) (n : Nat) : List Byte :=
  cmdByte a .read s.ackstat :: List.replicate n 0

/-- The outgoing bytes of a write in a state (R57). -/
def State.writeBytes (s : State) (a : Addr) (vs : List Byte) : List Byte :=
  cmdByte a .write s.ackstat :: vs

/-- The byte a single read returns, when it succeeds. -/
def State.readByte (s : State) (a : Addr) : Byte := (s.busData (s.readBytes a 1)).headD 0

/-- Whether a read-modify-write goes through, and the state it leaves (R117, R118): the second transaction is made only if the first
went through, and writes back the byte read, modified. -/
def State.rmwOk (s : State) (a : Addr) (f : Byte → Byte) : Bool :=
  s.busOk (s.readBytes a 1) &&
    (s.afterBus (s.readBytes a 1)).busOk ((s.afterBus (s.readBytes a 1)).writeBytes a [f (s.readByte a)])

/-- See `State.rmwOk`. -/
def State.afterRmw (s : State) (a : Addr) (f : Byte → Byte) : State :=
  if s.busOk (s.readBytes a 1) then
    (s.afterBus (s.readBytes a 1)).afterBus ((s.afterBus (s.readBytes a 1)).writeBytes a [f (s.readByte a)])
  else s.afterBus (s.readBytes a 1)

/-- The code of an operation whose bus activity went through or did not (R119). -/
def busCode (ok : Bool) : ResCode := if ok then .ok else .transportError

/-! ## Sequences of accesses, for any chip -/

/-- The state after a single read (R111), a single write (R112). -/
def State.afterRead (s : State) (a : Addr) : State := s.afterBus (s.readBytes a 1)

/-- See `State.afterRead`. -/
def State.afterWrite (s : State) (a : Addr) (v : Byte) : State := s.afterBus (s.writeBytes a [v])

/-- Whether a single read, a single write goes through. -/
def State.readOk (s : State) (a : Addr) : Bool := s.busOk (s.readBytes a 1)

/-- See `State.readOk`. -/
def State.writeOk (s : State) (a : Addr) (v : Byte) : Bool := s.busOk (s.writeBytes a [v])

/-- The state after `n` status reads of a poll, none of which ended it; `between` is what the wait records after each (R151, R176: nothing;
R180: the delay). -/
def State.afterMisses (a : Addr) (between : List Event) : Nat → State → State
  | 0, s => s
  | n + 1, s => State.afterMisses a between n { s.afterRead a with trace := (s.afterRead a).trace ++ between }

/-- The first `n` status reads of a poll all go through and all fail its test. -/
def State.misses (a : Addr) (hit : Byte → Bool) (between : List Event) : Nat → State → Bool
  | 0, _ => true
  | n + 1, s =>
    s.readOk a && !hit (s.readByte a)
      && State.misses a hit between n { s.afterRead a with trace := (s.afterRead a).trace ++ between }

/-- Plain writes in order, up to and including the first that faults. -/
def State.afterWrites : List (Addr × Byte) → State → State
  | [], s => s
  | (a, v) :: rest, s => if s.writeOk a v then State.afterWrites rest (s.afterWrite a v) else s.afterWrite a v

/-- All of them go through. -/
def State.writesOk : List (Addr × Byte) → State → Bool
  | [], _ => true
  | (a, v) :: rest, s => s.writeOk a v && State.writesOk rest (s.afterWrite a v)

/-- A transport fault is logged, unless the access went through (R227). -/
def State.logUnless (s : State) (ok : Bool) : State :=
  if ok then s else { s with trace := s.trace ++ [.log (.fault .transportError)] }

/-- The writes of step 5 of `reset()` (R152): per pair `0x00` to the enable register, then `0xFF` to the status register. -/
def resetWrites (c : Cfg) : Role → List (Addr × Byte)
  | .unset => []
  | .host => [(c.host.topIen, 0x00), (c.host.topIrq, 0xFF)]
  | .peripheral =>
    [(c.periph.topIen, 0x00), (c.periph.topIrq, 0xFF), (c.periph.epIen, 0x00), (c.periph.epIrq, 0xFF)] ++
      match c.periph.pair3Ien, c.periph.pair3Irq with
      | some ien, some irq => [(ien, 0x00), (irq, 0xFF)]
      | _, _ => []

/-- What operations nested in a call do to `enabledTopIRQ` (R130, R131, R137). -/
def nestedTopMask (m : Byte) : CollabOp → Byte
  | .enableInterrupts x => m ||| x
  | .disableInterrupts x => m &&& ~~~x
  | _ => m

/-- What operations nested in a call do to `enabledEndpointIRQ` in Peripheral role (R132, R133, R137). -/
def nestedEpMask (m : Byte) : CollabOp → Byte
  | .enableEndpointInterrupts x => m ||| x
  | .disableEndpointInterrupts x => m &&& ~~~x
  | _ => m

/-! ## Frames -/

/-- `t` is `s` but for what bus activity may touch: `ACKSTAT`, the interrupt latch, the chip's script, the edges placed in exchanges, and
the trace. -/
structure BusFrame (s t : State) : Prop where
  enabledTopIRQ : t.enabledTopIRQ = s.enabledTopIRQ
  enabledEndpointIRQ : t.enabledEndpointIRQ = s.enabledEndpointIRQ
  role : t.role = s.role
  conn : t.conn = s.conn
  cb : t.cb = s.cb
  rxbuf : t.rxbuf = s.rxbuf
  bstate : t.bstate = s.bstate
  intArmed : t.intArmed = s.intArmed
  sel : t.sel = s.sel
  cfg : t.cfg = s.cfg
  collab : t.collab = s.collab
  sched : t.sched = s.sched
  results : t.results = s.results

/-- `t` is `s` but for what bus activity and collaborator calls may touch: also the two masks and the collaborators' script (R228). -/
structure CallFrame (s t : State) : Prop where
  role : t.role = s.role
  conn : t.conn = s.conn
  cb : t.cb = s.cb
  rxbuf : t.rxbuf = s.rxbuf
  bstate : t.bstate = s.bstate
  intArmed : t.intArmed = s.intArmed
  sel : t.sel = s.sel
  cfg : t.cfg = s.cfg
  sched : t.sched = s.sched
  results : t.results = s.results

/-- The latch only ever rises, and only while the edge detector is in service (R211). -/
def LatchRule (s t : State) : Prop :=
  (s.irqPend = true → t.irqPend = true) ∧ (t.irqPend = true → s.irqPend = true ∨ s.intArmed = true)

/-- How many exchanges are among events. -/
def exchanges : List Event → Nat
  | [] => 0
  | .x _ _ :: es => exchanges es + 1
  | _ :: es => exchanges es

/-- Between `s` and `t` there were `n` exchanges: the edges the schedule places in them are consumed, and the latch has caught one of them if
the edge detector, as it stands in `t`, is in service (R211, R261). -/
def EdgesTaken (n : Nat) (s t : State) : Prop :=
  t.midEdges = s.midEdges.drop n ∧ t.irqPend = (s.irqPend || (t.intArmed && (s.midEdges.take n).any id))

/-! ## Instructions by kind -/

/-- The operations and the illegal rows: what the operation port answers (R85, R87). -/
def isOp : Instr → Bool
  | .regrd _ _ _ => false
  | .regwr _ _ _ => false
  | .onSetup => false
  | .onInBufAvail => false
  | .onResetDone => false
  | .onConnectDetect => false
  | _ => true

/-- The operations of the interrupt shadow state (42_interrupt_shadow.md). -/
def isShadow : Instr → Bool
  | .enableInterrupts _ => true
  | .disableInterrupts _ => true
  | .enableEndpointInterrupts _ => true
  | .disableEndpointInterrupts _ => true
  | .clearInterruptStatus _ => true
  | .clearEndpointInterruptStatus _ => true
  | .getEnabledInterruptStatus => true
  | .getEnabledEndpointInterruptStatus => true
  | .masterEnable => true
  | .masterDisable => true
  | _ => false

/-- When an operation is answered `Refused` (R223): an illegal word, a burst over `MAX_BURST`, a role-table operation while
`ROLE = Unset`, a second `start`, `scanBus()` outside Host role. -/
def refusedCase (s : State) : Instr → Bool
  | .illegal00 _ => true
  | .illegal18to1F _ => true
  | .multiReadRegister _ n => Nat.blt s.cfg.maxBurst n.toNat
  | .multiWriteRegister _ vs => Nat.blt s.cfg.maxBurst vs.length
  | .start _ => s.role != .unset
  | .scanBus => s.role != .host
  | .reset => s.role == .unset
  | i => isShadow i && s.role == .unset

/-- What an accepted operation does to `enabledTopIRQ` (R137). -/
def topMaskAfter (i : Instr) (m : Byte) : Byte :=
  match i with
  | .enableInterrupts x => m ||| x
  | .disableInterrupts x => m &&& ~~~x
  | .reset => 0
  | _ => m

/-- What an accepted operation does to `enabledEndpointIRQ` in a role (R137). -/
def epMaskAfter (r : Role) (i : Instr) (m : Byte) : Byte :=
  match i, r with
  | .enableEndpointInterrupts x, .peripheral => m ||| x
  | .disableEndpointInterrupts x, .peripheral => m &&& ~~~x
  | .reset, _ => 0
  | _, _ => m

/-- An operation word the block answers with `Refused` whatever its payload (R87), but for bursts over `MAX_BURST`. -/
def IllegalWord (w : OpWord) : Prop :=
  let opc := (w >>> 19).toNat
  opc = 0 ∨ 0x18 ≤ opc
  ∨ (w >>> 16) &&& 7 ≠ 0
  ∨ (w >>> 8) &&& 7 ≠ 0
  ∨ (8 < opc ∧ (w >>> 11) &&& 31 ≠ 0)
  ∨ (opc ∈ [0x01, 0x03, 0x09, 0x10, 0x11, 0x12, 0x13, 0x14, 0x16] ∧ w &&& 0xFF ≠ 0)
  ∨ (opc ∈ [0x15, 0x17] ∧ w &&& 0xFE ≠ 0)

/-- The word of operation code `opc` with these fields decodes to the instruction (R84 to R86). -/
def CodedAs (opc : BitVec 5) (a : Addr) (imm : Byte) (i : Instr) : Prop :=
  ∀ ref : CallbackRef, decode (.op (mkWord opc 0 a 0 imm) [] ref) = .ok i

/-- A word of a multi operation that asks for more bytes than a burst has (R87). -/
def BurstTooLong (c : Cfg) (w : OpWord) : Prop :=
  ∃ (a : Addr) (n : Byte), c.maxBurst < n.toNat ∧ (w = mkWord 0x05 0 a 0 n ∨ w = mkWord 0x06 0 a 0 n)

/-- The one-word forms that set `ACKSTAT` first (R113, R114). -/
def isAckForm : Instr → Bool
  | .readRegisterAS _ => true
  | .writeRegisterAS _ _ => true
  | _ => false

/-! ## Traces -/

/-- Where a reader of the bus stands: between transactions, after `SS(0)`, in the data phase of a read or a write, or after a fault. -/
inductive BusPhase where
  | idle
  | opened
  | data (write : Bool)
  | broken
deriving DecidableEq, Repr

/-- Between transactions: `SS(0)` opens one; no exchange and no `SS(1)` (R54). -/
def nextIdle : Event → Option BusPhase
  | .ss level => if level then none else some .opened
  | .x _ _ => none
  | .delay _ => some .idle
  | .call _ => some .idle
  | .notify _ _ => some .idle
  | .log _ => some .idle

/-- After `SS(0)`: the first byte is a command byte, with bit 2 clear (R54, R88); its direction says how the data phase goes. -/
def nextOpened : Event → Option BusPhase
  | .x c inn => if cmdBit2 c then none else if inn.isSome then some (.data (cmdIsWrite c)) else some .broken
  | _ => none

/-- In the data phase: a read sends `0x00` (R56, R82); a failed exchange is the last (R102); `SS(1)` closes. -/
def nextData (write : Bool) : Event → Option BusPhase
  | .x o inn => if write || o == 0 then (if inn.isSome then some (.data write) else some .broken) else none
  | .ss level => if level then some .idle else none
  | _ => none

/-- After a fault only `SS(1)` may follow (R54). -/
def nextBroken : Event → Option BusPhase
  | .ss level => if level then some .idle else none
  | _ => none

/-- One event read (R54, R56, R82, R88, R102). -/
def busNext : BusPhase → Event → Option BusPhase
  | .idle, e => nextIdle e
  | .opened, e => nextOpened e
  | .data wr, e => nextData wr e
  | .broken, e => nextBroken e

/-- A list of events read from a phase. -/
def busRun : BusPhase → List Event → Option BusPhase
  | p, [] => some p
  | p, e :: es =>
    match busNext p e with
    | some q => busRun q es
    | none => none

/-- A trace made of whole transactions of this block, and of other events between them. -/
def WellFramed (es : List Event) : Prop := busRun .idle es = some .idle

/-- The notifications of a list of events, in order. -/
def notifications : List Event → List (CallbackRef × Bool)
  | [] => []
  | .notify cb b :: es => (cb, b) :: notifications es
  | _ :: es => notifications es

/-- The command bytes of a list of events: the byte after each `SS(0)` (R54). -/
def commandBytes : List Event → List Byte
  | .ss false :: .x c _ :: es => c :: commandBytes es
  | _ :: es => commandBytes es
  | [] => []

/-- The notifications owed for a change of the connection value (R25, R174): one, to the callback if there is one. -/
def owed (cb : Option CallbackRef) (before after : Bool) : List (CallbackRef × Bool) :=
  if after = before then []
  else
    match cb with
    | some c => [(c, after)]
    | none => []

/-! ## The invariant, and runs -/

/-- The handlers a role can have selected (R89). -/
def selLegal (r : Role) (sel : Sel) : Prop :=
  match r with
  | .unset => sel = 0
  | .host => sel &&& 0b0111 = 0
  | .peripheral => sel &&& 0b1000 = 0

/-- What holds of the block between any two steps. -/
structure Inv (s : State) : Prop where
  /-- `RXBUF` is in its canonical form, within [0,63] (R26). -/
  memory : Memory.wf s.rxbuf = true
  /-- The trace is made of whole transactions (R54). -/
  framed : WellFramed s.trace
  /-- The edge detector is in service exactly from `start` on (R29, R155). -/
  armed : s.intArmed = true ↔ s.role ≠ .unset
  /-- An event is pending only if edges are accepted (R28, R211). -/
  pending : s.irqPend = true → s.intArmed = true
  /-- The endpoint mask is zero outside Peripheral role (R22). -/
  endpoint : s.role ≠ .peripheral → s.enabledEndpointIRQ = 0
  /-- `CONN` and `BSTATE` keep their power-on values outside Host role (R24, R27). -/
  hostOnly : s.role ≠ .host → s.conn = false ∧ s.bstate = .noDevice
  /-- Between steps a connected bus is ready or was left by a failed enumeration, and an unconnected one has no device (R174, R175). -/
  busState : (s.conn = true ∧ (s.bstate = .ready ∨ s.bstate = .enumerating)) ∨ (s.conn = false ∧ s.bstate = .noDevice)
  /-- The handlers still to run are handlers of the role (R89). -/
  handlers : selLegal s.role s.sel
  /-- The configuration is one the spec allows (R7). -/
  config : s.cfg.Valid

/-- The named assumption `CollabQuiet` (R228): the next `n` calls present no operation. -/
def CollabQuiet (s : State) (n : Nat) : Prop :=
  n ≤ s.collab.length ∧ ∀ a ∈ s.collab.take n, a.ops = []

/-- The end of a run (R261): the schedule is exhausted, the block idle, nothing pending. -/
def RunEnded (s : State) : Prop := s.sched = [] ∧ s.sel = 0 ∧ s.irqPend = false

/-- A schedule as R261 has them, but that raw transactions, if it has any, must be ones of this block (log entry 9). -/
def ScheduleFormed (s : State) : Prop := ∀ bytes : List Byte, .bus bytes ∈ s.sched → ∃ i, decode (.bus bytes) = .ok i

/-- A bound on the steps a run still takes: every item of the schedule, and every edge placed in an exchange, is worth a step of its own and
the longest dispatcher run it can start; a pending event such a run; a running dispatcher its handlers. -/
def stepsOwed (s : State) : Nat :=
  6 * s.sched.length + 6 * s.midEdges.count true + (if s.irqPend then 5 else 0) + (List.range 4).countP (s.sel.getLsbD ·)

end Sys2Proof.Machine
end

