-- ==== Sys2Proof/Certificates/Slice0/Obligations.lean ====
section
/-! DEFINITION. The statements for the provers. -/

open Sys2Proof Sys2Proof.Machine

/-! ## Encoding -/

/-- Decoding gives back every encoded well-formed instruction, with every operand (R81, R84 to R90). -/
def Obligations.DecodeEncodeRoundTrip : Prop :=
  ∀ i : Instr, i.WellFormed → decode (encode i) = .ok i

/-- The decoder makes well-formed instructions only (R84, R86, R90). -/
def Obligations.DecodedIsWellFormed : Prop :=
  ∀ (p : Presented) (i : Instr), decode p = .ok i → i.WellFormed

/-- No bit of a bus transaction or of an operation word is dropped: it can be read back from the decoded instruction. The payload of an
operation word comes back too, but for the two illegal rows, which take none (R84 to R90). Not so the callback reference beside the word,
which is the model's own and is looked at by `registerCallback` only (log entry 6). -/
def Obligations.DecodedReadsBack : Prop :=
  (∀ (bytes : List Byte) (i : Instr), decode (.bus bytes) = .ok i → encode i = .bus bytes) ∧
  (∀ (w : OpWord) (payload : List Byte) (ref : CallbackRef) (i : Instr), decode (.op w payload ref) = .ok i →
    (∃ ref', encode i = .op w payload ref') ∨
    (((w >>> 19).toNat = 0 ∨ 0x18 ≤ (w >>> 19).toNat) ∧ ∃ ref', encode i = .op w [] ref'))

/-- The command byte, bit by bit (R81), and the flag cleared by its construction. -/
def Obligations.CommandByteLayout : Prop :=
  ∀ (a : Addr) (d : Dir) (s : State),
    (buildCmd a d s).1.extractLsb' 3 5 = a ∧ (buildCmd a d s).1.getLsbD 2 = false ∧
    (buildCmd a d s).1.getLsbD 1 = (d == .write) ∧ (buildCmd a d s).1.getLsbD 0 = s.ackstat ∧
    (buildCmd a d s).2 = { s with ackstat := false }

/-- After `setAckstat()` the first command byte carries the flag and the second does not; setting it twice changes nothing (R21, R83). -/
def Obligations.FlagIsOneShot : Prop :=
  ∀ (a b : Addr) (d e : Dir) (s : State),
    (buildCmd a d (setFlag s)).1.getLsbD 0 = true ∧
    (buildCmd b e (buildCmd a d (setFlag s)).2).1.getLsbD 0 = false ∧
    setFlag (setFlag s) = setFlag s

/-- A few words written out from the tables of R81, R85 and R89, one for each kind of operand. -/
def Obligations.KnownWordsDecode : Prop :=
  decode (.op 0x08F800 [] 0) = .ok (.readRegister 31) ∧
  decode (.op 0x10D8C1 [] 0) = .ok (.writeRegister 27 0xC1) ∧
  decode (.op 0x301003 [0x01, 0x02, 0x03] 0) = .ok (.multiWriteRegister 2 [0x01, 0x02, 0x03]) ∧
  decode (.op 0x500020 [] 0) = .ok (.enableInterrupts 0x20) ∧
  decode (.op 0xA80001 [] 0) = .ok (.start .peripheral) ∧
  decode (.op 0xB80001 [] 7) = .ok (.registerCallback (some 7)) ∧
  decode (.op 0xB80000 [] 7) = .ok (.registerCallback none) ∧
  decode (.op 0xB00000 [] 0) = .ok .scanBus ∧
  decode (.bus [0xCA, 0xFF]) = .ok (.regwr 25 false [0xFF]) ∧
  decode (.bus [0x99, 0x00]) = .ok (.regrd 19 true 1) ∧
  decode (.evt 0b1100) = .ok .onResetDone

/-- An illegal word is answered `Refused` and nothing else happens, whatever the state of the block and whatever payload stands beside the
word (R87). -/
def Obligations.IllegalWordsAreRefused : Prop :=
  ∀ (s : State) (w : OpWord) (payload : List Byte) (ref : CallbackRef) (rest : List Item),
    s.sel = 0 → s.irqPend = false → s.sched = .op w payload ref :: rest →
    IllegalWord w ∨ BurstTooLong s.cfg w →
    step s = .next { s with sched := rest, results := s.results ++ [⟨.refused, []⟩] }

/-! ## Steps and the dispatcher -/

/-- One step runs the decoded instruction: the next operation word or raw transaction of an idle block with nothing pending, taken off the
schedule; or the selected handler of a running dispatcher, its bit struck from the vector. Around `exec` the step does nothing else.
That a raw transaction can be an item of the schedule is the model's choice (log entry 9: R261 has operation words and edges), and so is
that a dispatcher run is one step for each handler (log entry 11). -/
def Obligations.StepRunsDecodedInstruction : Prop :=
  (∀ (s : State) (w : OpWord) (payload : List Byte) (ref : CallbackRef) (rest : List Item) (i : Instr),
    s.sel = 0 → s.irqPend = false → s.sched = .op w payload ref :: rest → decode (.op w payload ref) = .ok i →
    step s = exec i { s with sched := rest }) ∧
  (∀ (s : State) (bytes : List Byte) (rest : List Item) (i : Instr),
    s.sel = 0 → s.irqPend = false → s.sched = .bus bytes :: rest → decode (.bus bytes) = .ok i →
    step s = exec i { s with sched := rest }) ∧
  (∀ (s : State) (h : Instr), decode (.evt s.sel) = .ok h →
    step s = exec h { s with sel := s.sel &&& (s.sel - 1) })

/-- A falling edge sets the latch while the detector is in service, is lost before `start`, and changes nothing when an event is already
pending; between items or inside an exchange, whose whole next state is given (R210, R211, R261). With nothing to do the block stays as
it is. -/
def Obligations.EdgesAndIdling : Prop :=
  (∀ s : State, s.fallingEdge = { s with irqPend := s.irqPend || s.intArmed }) ∧
  (∀ (s : State) (rest : List Item), s.sel = 0 → s.irqPend = false → s.sched = .edge :: rest →
    step s = .next { s with sched := rest, irqPend := s.intArmed }) ∧
  (∀ (s : State) (out : Byte),
    let inn := (answerOf s.chip s.trace out).miso
    xchg out s = (inn, { s with
      irqPend := s.irqPend || (s.intArmed && s.midEdges.headD false)
      chip := s.chip.tail
      midEdges := s.midEdges.tail
      trace := s.trace ++ [.x out inn] })) ∧
  (∀ s : State, s.sel = 0 → s.irqPend = false → s.sched = [] → step s = .next s)

/-- A pending event is served before the schedule: in Host role one status read, and `SEL` from it; a fault is logged and ends the run
(R89, R212, R213). -/
def Obligations.DispatcherEntryHost : Prop :=
  ∀ s : State, s.sel = 0 → s.irqPend = true → s.role = .host →
    let s0 := { s with irqPend := false }
    let a := s.cfg.host.topIrq
    step s = .next (if s0.readOk a then
        { s0.afterRead a with
          sel := if (s0.readByte a &&& s.enabledTopIRQ) &&& s.cfg.b.conDet = 0 then 0 else 0b1000 }
      else (s0.afterRead a).logUnless false)

/-- In Peripheral role two status reads, top-level first, each ANDed with its mask; a fault in the first means the second is not made
(R89, R212, R213). -/
def Obligations.DispatcherEntryPeripheral : Prop :=
  ∀ s : State, s.sel = 0 → s.irqPend = true → s.role = .peripheral →
    let s0 := { s with irqPend := false }
    let a := s.cfg.periph.topIrq
    let b := s.cfg.periph.epIrq
    let s1 := s0.afterRead a
    let t := s0.readByte a &&& s.enabledTopIRQ
    let e := s1.readByte b &&& s.enabledEndpointIRQ
    step s = .next (if s0.readOk a then
        if s1.readOk b then
          { s1.afterRead b with
            sel := (if e &&& s.cfg.b.sudAv = 0 then 0 else 0b0001) ||| (if e &&& s.cfg.b.inBAv = 0 then 0 else 0b0010)
              ||| (if t &&& s.cfg.b.uresDn = 0 then 0 else 0b0100) }
        else (s1.afterRead b).logUnless false
      else s1.logUnless false)

/-- Every selected handler runs, in ascending order, whatever happens inside it; the vector is not computed again, and neither the schedule nor
the operation port is touched (R212, R214, R227). -/
def Obligations.HandlersRunInAscendingOrder : Prop :=
  ∀ s : State, s.sel ≠ 0 →
    ∃ t : State, step s = .next t ∧ t.sel = s.sel &&& (s.sel - 1) ∧ t.sched = s.sched ∧ t.results = s.results ∧
      exec (if s.sel.getLsbD 0 then .onSetup else if s.sel.getLsbD 1 then .onInBufAvail
        else if s.sel.getLsbD 2 then .onResetDone else .onConnectDetect)
        { s with sel := s.sel &&& (s.sel - 1) } = .next t

/-- A dispatcher run, once its vector is computed, ends after one step for each selected handler, before the block takes anything else
(R212, R214, R215, R227). That the run is several steps is the model's choice (log entry 11). -/
def Obligations.DispatcherRunEnds : Prop :=
  ∀ s : State, ∃ t : State,
    Host.Core.run core ((List.range 4).countP fun i => s.sel.getLsbD i) s = .next t ∧
    t.sel = 0 ∧ t.sched = s.sched ∧ t.results = s.results

/-- Every instruction completes in every state: nothing in this core is fatal (R177, R220, R227). -/
def Obligations.EveryInstructionCompletes : Prop :=
  ∀ (i : Instr) (s : State), ∃ t : State, exec i s = .next t

/-- A step never faults, and refuses only raw bytes this block cannot send (R82, R88): the model's choice, log entry 7. An operation word that
is no instruction is answered `Refused`, and nothing else happens: R87 says so of the malformed words; of a payload of another length than
the word's (R90) it is the model's choice, log entry 7. -/
def Obligations.StepStopsOnlyOnMalformedItems : Prop :=
  ∀ s : State,
    (∀ f : Fault, step s ≠ .fault f) ∧
    (∀ r : Refusal, step s = .refused r → s.sel = 0 ∧ s.irqPend = false ∧ r = .notATransaction ∧
      ∃ bytes rest e, s.sched = .bus bytes :: rest ∧ decode (.bus bytes) = .error e) ∧
    (∀ (w : OpWord) (payload : List Byte) (ref : CallbackRef) (rest : List Item) (e : DecodeError),
      s.sel = 0 → s.irqPend = false → s.sched = .op w payload ref :: rest → decode (.op w payload ref) = .error e →
      step s = .next { s with sched := rest, results := s.results ++ [⟨.refused, []⟩] })

/-- Every run ends (R260, R261): from every state whose schedule is one, the schedule is exhausted, the block idle and nothing pending after at
most `stepsOwed` steps, whatever the chip answers. The edges of a run are those of its schedule, also in the middle of an operation or of
a dispatcher run. -/
def Obligations.EveryRunEnds : Prop :=
  ∀ s : State, ScheduleFormed s → ∃ (n : Nat) (t : State),
    n ≤ stepsOwed s ∧ Host.Core.run core n s = .next t ∧ RunEnded t

/-! ## Byte transport -/

/-- A list of bytes goes out as one transaction: `SS(0)`, the exchanges in order up to and including the first that fails, `SS(1)`; the block
writes no register of its own but the edge latch. `MemRead` and `MemWrite` are this, over a command byte and data bytes (R101). -/
def Obligations.ExchangeSequence : Prop :=
  (∀ (outs : List Byte) (s : State),
    let r := exchangeSequence outs s
    let sent := List.zipWith (fun o b => Event.x o (some b)) outs r.1.ins
    (r.1.ok = true → r.1.ins.length = outs.length ∧ r.2.trace = s.trace ++ [.ss false] ++ sent ++ [.ss true]) ∧
    (r.1.ok = false → ∃ o, outs[r.1.ins.length]? = some o ∧
      r.2.trace = s.trace ++ [.ss false] ++ sent ++ [.x o none, .ss true]) ∧
    r.2.ackstat = s.ackstat ∧ BusFrame s r.2 ∧ LatchRule s r.2) ∧
  (∀ (a : Addr) (n : Nat) (s : State),
    let r := exchangeSequence (cmdByte a .read s.ackstat :: List.replicate n 0x00) { s with ackstat := false }
    memRead a n s = (⟨r.1.ins.tail, r.1.ok⟩, r.2)) ∧
  (∀ (a : Addr) (vs : List Byte) (s : State),
    let r := exchangeSequence (cmdByte a .write s.ackstat :: vs) { s with ackstat := false }
    memWrite a vs s = (⟨r.1.ins.tail, r.1.ok⟩, r.2))

/-- The two bus transactions by their own command byte, for every length a burst has: one transaction, the data bytes shifted in are the
answer, and the flag is clear afterwards. Longer ones are refused. That the presented AS bit stands for the flag, and the refusal, are
the model's choices (log entry 9); with the flag equal to the bit this is the primitive of R56 and R57. -/
def Obligations.BusTransactions : Prop :=
  (∀ (s : State) (a : Addr) (flag : Bool) (n : Nat),
    let outs := cmdByte a .read flag :: List.replicate n 0x00
    exec (.regrd a flag n) s = .next (if n ≤ s.cfg.maxBurst then
      (s.afterBus outs).answer ⟨busCode (s.busOk outs), s.busData outs⟩ else s.answer ⟨.refused, []⟩)) ∧
  (∀ (s : State) (a : Addr) (flag : Bool) (vs : List Byte),
    let outs := cmdByte a .write flag :: vs
    exec (.regwr a flag vs) s = .next (if vs.length ≤ s.cfg.maxBurst then
      (s.afterBus outs).answer ⟨busCode (s.busOk outs), s.busData outs⟩ else s.answer ⟨.refused, []⟩))

/-! ## Register access -/

/-- `setAckstat()` (R110). -/
def Obligations.SetAckstatResult : Prop :=
  CodedAs 0x09 0 0 .setAckstat ∧
  ∀ s : State, exec .setAckstat s = .next ({ s with ackstat := true }.answer ⟨.ok, []⟩)

/-- `readRegister(addr)` (R111): one read transaction, its command byte carrying the flag; its byte is the answer. Nothing but the flag, the
edge latch, the trace and the answer changes. -/
def Obligations.ReadRegisterResult : Prop :=
  ∀ (s : State) (a : Addr),
    let outs := [cmdByte a .read s.ackstat, 0x00]
    CodedAs 0x01 a 0 (.readRegister a) ∧ decode (.bus outs) = .ok (.regrd a s.ackstat 1) ∧
    (s.busOk outs = true → ∃ v, s.busData outs = [v] ∧
      exec (.readRegister a) s = .next ((s.afterBus outs).answer ⟨.ok, [v]⟩)) ∧
    (s.busOk outs = false → exec (.readRegister a) s = .next ((s.afterBus outs).answer ⟨.transportError, []⟩))

/-- `writeRegister(addr, value)` (R112): one write transaction; the byte shifted in during the data byte is the answer. -/
def Obligations.WriteRegisterResult : Prop :=
  ∀ (s : State) (a : Addr) (v : Byte),
    let outs := [cmdByte a .write s.ackstat, v]
    CodedAs 0x02 a v (.writeRegister a v) ∧ decode (.bus outs) = .ok (.regwr a s.ackstat [v]) ∧
    (s.busOk outs = true → ∃ r, s.busData outs = [r] ∧
      exec (.writeRegister a v) s = .next ((s.afterBus outs).answer ⟨.ok, [r]⟩)) ∧
    (s.busOk outs = false → exec (.writeRegister a v) s = .next ((s.afterBus outs).answer ⟨.transportError, []⟩))

/-- The acknowledge forms (R92, R113, R114): the flag is set first, so the command byte is odd; it is clear afterwards, fault or not. -/
def Obligations.AcknowledgeForms : Prop :=
  (∀ (s : State) (a : Addr),
    let outs := [cmdByte a .read true, 0x00]
    CodedAs 0x03 a 0 (.readRegisterAS a) ∧
    (s.busOk outs = true → ∃ v, s.busData outs = [v] ∧
      exec (.readRegisterAS a) s = .next ((s.afterBus outs).answer ⟨.ok, [v]⟩)) ∧
    (s.busOk outs = false → exec (.readRegisterAS a) s = .next ((s.afterBus outs).answer ⟨.transportError, []⟩))) ∧
  (∀ (s : State) (a : Addr) (v : Byte),
    let outs := [cmdByte a .write true, v]
    CodedAs 0x04 a v (.writeRegisterAS a v) ∧
    (s.busOk outs = true → ∃ r, s.busData outs = [r] ∧
      exec (.writeRegisterAS a v) s = .next ((s.afterBus outs).answer ⟨.ok, [r]⟩)) ∧
    (s.busOk outs = false →
      exec (.writeRegisterAS a v) s = .next ((s.afterBus outs).answer ⟨.transportError, []⟩)))

/-- `multiReadRegister(addr, buffer, n)` (R116): one command byte, `n` dummy bytes; the bytes received, in order, on the data-out port, those
before a fault too. A chip that hands out given bytes in the data phase has exactly those bytes delivered, so one that echoes a burst write
has it read back. -/
def Obligations.MultiReadResult : Prop :=
  ∀ (s : State) (a : Addr) (n : Byte), n.toNat ≤ s.cfg.maxBurst →
    let outs := cmdByte a .read s.ackstat :: List.replicate n.toNat 0x00
    CodedAs 0x05 a n (.multiReadRegister a n) ∧
    exec (.multiReadRegister a n) s =
      .next ((s.afterBus outs).answer ⟨busCode (s.busOk outs), s.busData outs⟩) ∧
    (s.busOk outs = true → (s.busData outs).length = n.toNat) ∧
    (∀ (c : ChipAnswer) (bs : List Byte) (rest : List ChipAnswer), c.miso.isSome = true → bs.length = n.toNat →
      s.chip = c :: bs.map (fun b => ⟨some b⟩) ++ rest → s.busOk outs = true ∧ s.busData outs = bs) ∧
    (∀ (c : ChipAnswer) (bs : List Byte) (rest : List ChipAnswer), c.miso.isSome = true →
      bs.length < n.toNat → s.chip = c :: bs.map (fun b => ⟨some b⟩) ++ ⟨none⟩ :: rest →
      s.busOk outs = false ∧ s.busData outs = bs) ∧
    (∀ (vs : List Byte) (w r : ChipAnswer) (ws rest : List ChipAnswer), vs.length = n.toNat → ws.length = n.toNat →
      w.miso.isSome = true → ws.all (·.miso.isSome) = true → r.miso.isSome = true →
      s.chip = w :: ws ++ r :: vs.map (fun b => ⟨some b⟩) ++ rest →
      ∃ t u : State, exec (.multiWriteRegister a vs) s = .next t ∧ exec (.multiReadRegister a n) t = .next u ∧
        u.results = s.results ++ [⟨.ok, []⟩, ⟨.ok, vs⟩])

/-- `multiWriteRegister(addr, values, n)` (R115): one command byte, then the values; the bytes shifted in are discarded. -/
def Obligations.MultiWriteResult : Prop :=
  ∀ (s : State) (a : Addr) (values : List Byte), values.length ≤ s.cfg.maxBurst →
    let outs := cmdByte a .write s.ackstat :: values
    (values.length < 256 → ∀ ref : CallbackRef,
      decode (.op (mkWord 0x06 0 a 0 (BitVec.ofNat 8 values.length)) values ref) = .ok (.multiWriteRegister a values)) ∧
    exec (.multiWriteRegister a values) s = .next ((s.afterBus outs).answer ⟨busCode (s.busOk outs), []⟩)

/-- `enableOptions` and `disableOptions` (R117, R118): a read, then a write of the byte read with the bits ORed in or ANDed out; no write
after a faulted read; two transactions. -/
def Obligations.ReadModifyWrite : Prop :=
  ∀ (s : State) (a : Addr) (bits : Byte),
    let s1 := s.afterBus [cmdByte a .read s.ackstat, 0x00]
    let set := [cmdByte a .write false, s.readByte a ||| bits]
    let clear := [cmdByte a .write false, s.readByte a &&& ~~~bits]
    CodedAs 0x07 a bits (.enableOptions a bits) ∧ CodedAs 0x08 a bits (.disableOptions a bits) ∧
    (s.readOk a = false →
      exec (.enableOptions a bits) s = .next (s1.answer ⟨.transportError, []⟩) ∧
      exec (.disableOptions a bits) s = .next (s1.answer ⟨.transportError, []⟩)) ∧
    (s.readOk a = true →
      exec (.enableOptions a bits) s = .next ((s1.afterBus set).answer ⟨busCode (s1.busOk set), []⟩) ∧
      exec (.disableOptions a bits) s = .next ((s1.afterBus clear).answer ⟨busCode (s1.busOk clear), []⟩))

/-! ## Interrupt shadow state -/

/-- `enableInterrupts` and `disableInterrupts` (R130, R131): write-through to the role's top-level enable register, and the mask changed
whatever the write-through gives; refused before `start`. -/
def Obligations.TopLevelEnables : Prop :=
  ∀ (s : State) (bits : Byte),
    CodedAs 0x0A 0 bits (.enableInterrupts bits) ∧ CodedAs 0x0B 0 bits (.disableInterrupts bits) ∧
    (∀ a : Addr, (s.role = .host ∧ a = s.cfg.host.topIen) ∨ (s.role = .peripheral ∧ a = s.cfg.periph.topIen) →
      exec (.enableInterrupts bits) s =
        .next ({ s.afterRmw a (· ||| bits) with enabledTopIRQ := s.enabledTopIRQ ||| bits }.answer
          ⟨busCode (s.rmwOk a (· ||| bits)), []⟩) ∧
      exec (.disableInterrupts bits) s =
        .next ({ s.afterRmw a (· &&& ~~~bits) with enabledTopIRQ := s.enabledTopIRQ &&& ~~~bits }.answer
          ⟨busCode (s.rmwOk a (· &&& ~~~bits)), []⟩)) ∧
    (s.role = .unset →
      exec (.enableInterrupts bits) s = .next (s.answer ⟨.refused, []⟩) ∧
      exec (.disableInterrupts bits) s = .next (s.answer ⟨.refused, []⟩))

/-- `enableEndpointInterrupts` and `disableEndpointInterrupts` (R132, R133): nothing at all in Host role; refused before `start`. -/
def Obligations.EndpointEnables : Prop :=
  ∀ (s : State) (bits : Byte),
    CodedAs 0x0C 0 bits (.enableEndpointInterrupts bits) ∧ CodedAs 0x0D 0 bits (.disableEndpointInterrupts bits) ∧
    (s.role = .host →
      exec (.enableEndpointInterrupts bits) s = .next (s.answer ⟨.ok, []⟩) ∧
      exec (.disableEndpointInterrupts bits) s = .next (s.answer ⟨.ok, []⟩)) ∧
    (s.role = .peripheral →
      let a := s.cfg.periph.epIen
      exec (.enableEndpointInterrupts bits) s =
        .next ({ s.afterRmw a (· ||| bits) with enabledEndpointIRQ := s.enabledEndpointIRQ ||| bits }.answer
          ⟨busCode (s.rmwOk a (· ||| bits)), []⟩) ∧
      exec (.disableEndpointInterrupts bits) s =
        .next ({ s.afterRmw a (· &&& ~~~bits) with enabledEndpointIRQ := s.enabledEndpointIRQ &&& ~~~bits }.answer
          ⟨busCode (s.rmwOk a (· &&& ~~~bits)), []⟩)) ∧
    (s.role = .unset →
      exec (.enableEndpointInterrupts bits) s = .next (s.answer ⟨.refused, []⟩) ∧
      exec (.disableEndpointInterrupts bits) s = .next (s.answer ⟨.refused, []⟩))

/-- `clearInterruptStatus` and `clearEndpointInterruptStatus` (R134, R135): one plain write; the masks are untouched; refused before
`start`. -/
def Obligations.StatusClears : Prop :=
  ∀ (s : State) (bits : Byte),
    CodedAs 0x0E 0 bits (.clearInterruptStatus bits) ∧ CodedAs 0x0F 0 bits (.clearEndpointInterruptStatus bits) ∧
    (s.role = .host →
      exec (.clearInterruptStatus bits) s =
        .next ((s.afterWrite s.cfg.host.topIrq bits).answer ⟨busCode (s.writeOk s.cfg.host.topIrq bits), []⟩) ∧
      exec (.clearEndpointInterruptStatus bits) s = .next (s.answer ⟨.ok, []⟩)) ∧
    (s.role = .peripheral →
      exec (.clearInterruptStatus bits) s =
        .next ((s.afterWrite s.cfg.periph.topIrq bits).answer ⟨busCode (s.writeOk s.cfg.periph.topIrq bits), []⟩) ∧
      exec (.clearEndpointInterruptStatus bits) s =
        .next ((s.afterWrite s.cfg.periph.epIrq bits).answer ⟨busCode (s.writeOk s.cfg.periph.epIrq bits), []⟩)) ∧
    (s.role = .unset →
      exec (.clearInterruptStatus bits) s = .next (s.answer ⟨.refused, []⟩) ∧
      exec (.clearEndpointInterruptStatus bits) s = .next (s.answer ⟨.refused, []⟩))

/-- `getEnabledInterruptStatus` and its endpoint twin (R138, R139): the raw status ANDed with the shadow mask; in Host role the twin is
`0x00` without bus activity; refused before `start`. -/
def Obligations.EnabledStatusReads : Prop :=
  ∀ s : State,
    CodedAs 0x10 0 0 .getEnabledInterruptStatus ∧ CodedAs 0x11 0 0 .getEnabledEndpointInterruptStatus ∧
    (∀ a : Addr, (s.role = .host ∧ a = s.cfg.host.topIrq) ∨ (s.role = .peripheral ∧ a = s.cfg.periph.topIrq) →
      exec .getEnabledInterruptStatus s = .next ((s.afterRead a).answer
        (if s.readOk a then ⟨.ok, [s.readByte a &&& s.enabledTopIRQ]⟩ else ⟨.transportError, []⟩))) ∧
    (s.role = .host → exec .getEnabledEndpointInterruptStatus s = .next (s.answer ⟨.ok, [0x00]⟩)) ∧
    (s.role = .peripheral →
      let b := s.cfg.periph.epIrq
      exec .getEnabledEndpointInterruptStatus s = .next ((s.afterRead b).answer
        (if s.readOk b then ⟨.ok, [s.readByte b &&& s.enabledEndpointIRQ]⟩ else ⟨.transportError, []⟩))) ∧
    (s.role = .unset →
      exec .getEnabledInterruptStatus s = .next (s.answer ⟨.refused, []⟩) ∧
      exec .getEnabledEndpointInterruptStatus s = .next (s.answer ⟨.refused, []⟩))

/-- `masterEnable()` and `masterDisable()` (R140, R141): the read-modify-write of the role's gate bit; refused before `start`. -/
def Obligations.MasterGate : Prop :=
  ∀ s : State,
    CodedAs 0x12 0 0 .masterEnable ∧ CodedAs 0x13 0 0 .masterDisable ∧
    (∀ a : Addr, (s.role = .host ∧ a = s.cfg.host.gate) ∨ (s.role = .peripheral ∧ a = s.cfg.periph.gate) →
      exec .masterEnable s = .next ((s.afterRmw a (· ||| s.cfg.b.gate)).answer
        ⟨busCode (s.rmwOk a (· ||| s.cfg.b.gate)), []⟩) ∧
      exec .masterDisable s = .next ((s.afterRmw a (· &&& ~~~s.cfg.b.gate)).answer
        ⟨busCode (s.rmwOk a (· &&& ~~~s.cfg.b.gate)), []⟩)) ∧
    (s.role = .unset →
      exec .masterEnable s = .next (s.answer ⟨.refused, []⟩) ∧
      exec .masterDisable s = .next (s.answer ⟨.refused, []⟩))

/-- Before `start` every operation of the shadow state is refused and does nothing (R142). -/
def Obligations.ShadowNeedsARole : Prop :=
  ∀ (i : Instr) (s : State), isShadow i = true → s.role = .unset →
    exec i s = .next { s with results := s.results ++ [⟨.refused, []⟩] }

/-- What an operation that is not refused does to the two masks: enables and disables only, and `reset()` (R22, R137). -/
def Obligations.OperationsAndMasks : Prop :=
  ∀ (i : Instr) (s t : State), isOp i = true → refusedCase s i = false → exec i s = .next t →
    t.enabledTopIRQ = topMaskAfter i s.enabledTopIRQ ∧
    t.enabledEndpointIRQ = epMaskAfter s.role i s.enabledEndpointIRQ

/-! ## Reset, start, callback -/

/-- Every accepted `reset()` leaves both masks zero and the flag clear, whatever the bus did, and writes no other register (R35, R153); only
the edge latch may catch an edge meanwhile. -/
def Obligations.ResetZeroesMasksAndFlag : Prop :=
  ∀ s : State, s.role ≠ .unset → ∃ (t : State) (code : ResCode), exec .reset s = .next t ∧
    t.enabledTopIRQ = 0x00 ∧ t.enabledEndpointIRQ = 0x00 ∧ t.ackstat = false ∧
    t.role = s.role ∧ t.conn = s.conn ∧ t.cb = s.cb ∧ t.rxbuf = s.rxbuf ∧ t.bstate = s.bstate ∧
    t.intArmed = s.intArmed ∧ LatchRule s t ∧ t.sel = s.sel ∧ t.cfg = s.cfg ∧ t.collab = s.collab ∧
    t.sched = s.sched ∧ t.results = s.results ++ [⟨code, []⟩] ∧ code ≠ .refused

/-- The whole sequence of `reset()` (R150 to R154), for the role's registers: the pulse, the bounded oscillator wait, then the gate and the
pairs, done after a timeout too; the results, a later transport fault replacing a timeout. -/
def Obligations.ResetSequence : Prop :=
  ∀ (s : State) (ctl osc gate : Addr),
    (s.role = .host ∧ ctl = s.cfg.host.chipCtl ∧ osc = s.cfg.host.oscStat ∧ gate = s.cfg.host.gate) ∨
      (s.role = .peripheral ∧ ctl = s.cfg.periph.chipCtl ∧ osc = s.cfg.periph.oscStat ∧ gate = s.cfg.periph.gate) →
    let stop (u : State) (code : ResCode) : Host.Outcome State Fault Refusal :=
      .next ({ u with enabledTopIRQ := 0x00, enabledEndpointIRQ := 0x00, ackstat := false }.answer ⟨code, []⟩)
    let stable (v : Byte) : Bool := v &&& s.cfg.b.oscOk != 0
    let s1 := s.afterRmw ctl (· ||| s.cfg.b.chipRes)
    let s2 := s1.afterRmw ctl (· &&& ~~~s.cfg.b.chipRes)
    let polled (n : Nat) : State := s2.afterMisses osc [] n
    let gated (u : State) : State := u.afterRmw gate (· &&& ~~~s.cfg.b.gate)
    let gateOk (u : State) : Bool := u.rmwOk gate (· &&& ~~~s.cfg.b.gate)
    let tail (u : State) : State := if gateOk u then (gated u).afterWrites (resetWrites s.cfg s.role) else gated u
    let tailOk (u : State) : Bool := gateOk u && (gated u).writesOk (resetWrites s.cfg s.role)
    (s.rmwOk ctl (· ||| s.cfg.b.chipRes) = false → exec .reset s = stop s1 .transportError) ∧
    (s.rmwOk ctl (· ||| s.cfg.b.chipRes) = true → s1.rmwOk ctl (· &&& ~~~s.cfg.b.chipRes) = false →
      exec .reset s = stop s2 .transportError) ∧
    (s.rmwOk ctl (· ||| s.cfg.b.chipRes) = true → s1.rmwOk ctl (· &&& ~~~s.cfg.b.chipRes) = true →
      (∀ n < s.cfg.oscPollCap, s2.misses osc stable [] n = true →
        ((polled n).readOk osc = false → exec .reset s = stop ((polled n).afterRead osc) .transportError) ∧
        ((polled n).readOk osc = true → stable ((polled n).readByte osc) = true →
          exec .reset s = stop (tail ((polled n).afterRead osc)) (busCode (tailOk ((polled n).afterRead osc))))) ∧
      (s2.misses osc stable [] s.cfg.oscPollCap = true →
        exec .reset s = stop (tail (polled s.cfg.oscPollCap))
          (if tailOk (polled s.cfg.oscPollCap) then .hardwareTimeout else .transportError)))

/-- `start(role)` (R155, R156): the first one fixes the role, puts the edge detector in service, and in Host role sets the options; every
later one is refused and changes nothing. -/
def Obligations.StartOnce : Prop :=
  ∀ s : State,
    CodedAs 0x15 0 0 (.start .host) ∧ CodedAs 0x15 0 1 (.start .peripheral) ∧
    (s.role = .unset →
      let u := { s with role := .host, intArmed := true }
      exec (.start .host) s = .next ((u.afterRmw s.cfg.host.mode (· ||| s.cfg.b.hostOpts)).answer
        ⟨busCode (u.rmwOk s.cfg.host.mode (· ||| s.cfg.b.hostOpts)), []⟩) ∧
      exec (.start .peripheral) s = .next ({ s with role := .peripheral, intArmed := true }.answer ⟨.ok, []⟩)) ∧
    (s.role ≠ .unset → ∀ r : UsbRole, exec (.start r) s = .next { s with results := s.results ++ [⟨.refused, []⟩] })

/-- `registerCallback(cb)` (R157): the reference is replaced, in every role. -/
def Obligations.RegisterCallbackResult : Prop :=
  (∀ ref : CallbackRef, decode (.op (mkWord 0x17 0 0 0 1) [] ref) = .ok (.registerCallback (some ref))) ∧
  CodedAs 0x17 0 0 (.registerCallback none) ∧
  ∀ (s : State) (cb : Option CallbackRef),
    exec (.registerCallback cb) s = .next ({ s with cb := cb }.answer ⟨.ok, []⟩)

/-! ## Bus state machine -/

/-- `scanBus()` (R180): the sample option set, at most `SAMPLE_POLL_CAP` reads with a delay after each miss, then the line state of one more
read. No connection state changes. Refused outside Host role. -/
def Obligations.ScanBusResult : Prop :=
  ∀ s : State,
    CodedAs 0x16 0 0 .scanBus ∧
    (s.role ≠ .host → exec .scanBus s = .next { s with results := s.results ++ [⟨.refused, []⟩] }) ∧
    (s.role = .host →
      let sampled (v : Byte) : Bool := v &&& s.cfg.b.sampleDoneMask == s.cfg.b.sampleDoneValue
      let s1 := s.afterRmw s.cfg.host.sampleReg (· ||| s.cfg.b.sampleBus)
      let a := s.cfg.host.sampleDone
      let line := s.cfg.host.lineState
      let polled (n : Nat) : State := s1.afterMisses a [.delay .samplePoll] n
      (s.rmwOk s.cfg.host.sampleReg (· ||| s.cfg.b.sampleBus) = false →
        exec .scanBus s = .next (s1.answer ⟨.transportError, []⟩)) ∧
      (s.rmwOk s.cfg.host.sampleReg (· ||| s.cfg.b.sampleBus) = true →
        (∀ n < s.cfg.samplePollCap, s1.misses a sampled [.delay .samplePoll] n = true →
          ((polled n).readOk a = false →
            exec .scanBus s = .next (((polled n).afterRead a).answer ⟨.transportError, []⟩)) ∧
          ((polled n).readOk a = true → sampled ((polled n).readByte a) = true →
            let u := (polled n).afterRead a
            exec .scanBus s = .next ((u.afterRead line).answer
              (if u.readOk line then ⟨.ok, [(u.readByte line &&& 0xC0) >>> 6]⟩ else ⟨.transportError, []⟩)))) ∧
        (s1.misses a sampled [.delay .samplePoll] s.cfg.samplePollCap = true →
          exec .scanBus s = .next ((polled s.cfg.samplePollCap).answer ⟨.hardwareTimeout, []⟩))))

/-- The line-state mapping (R181), and any non-zero value counted as connected (R171). -/
def Obligations.LineStateMapping : Prop :=
  lineState 0b11000000 = 3 ∧ lineState 0b01000000 = 1 ∧ lineState 0b10000000 = 2 ∧ lineState 0b00000000 = 0 ∧
  lineState 0xFF = 3 ∧ lineState 0x3F = 0 ∧ lineState 0x7F = 1 ∧ lineState 0xBF = 2 ∧
  ∀ v : Byte, lineState v = (v &&& 0xC0) >>> 6 ∧ (devicePresent v = true ↔ v &&& 0xC0 ≠ 0)

/-- A call (R178, R192, R228, R229): recorded first; then only the operations the callee presents change anything, each mask as they say, and
every other register is as before but for the flag, which is set afterwards only if it was or the callee sets it, and the edge latch. No
transaction is left open and no notification is made. -/
def Obligations.CallsAndMasks : Prop :=
  ∀ (e : Event) (s : State),
    let ops := (s.emit e).collabAnswer.ops
    let t := (callOut e s).2
    CallFrame s t ∧ LatchRule s t ∧ t.collab = s.collab.tail ∧
    t.enabledTopIRQ = (if s.role = .unset then s.enabledTopIRQ else ops.foldl nestedTopMask s.enabledTopIRQ) ∧
    t.enabledEndpointIRQ =
      (if s.role = .peripheral then ops.foldl nestedEpMask s.enabledEndpointIRQ else s.enabledEndpointIRQ) ∧
    (t.ackstat = true → s.ackstat = true ∨ .setAckstat ∈ ops) ∧
    (∃ evs, t.trace = s.trace ++ e :: evs ∧ WellFramed evs ∧ notifications evs = []) ∧
    (ops = [] → t = { s with trace := s.trace ++ [e], collab := s.collab.tail })

/-- `onConnectDetect` where the line-state read finds no device, or faults (R171, R173, R174, R175, R177): the fault logged, start of frame off,
`NoDevice`, the change reported, and last the acknowledge; faults in the last two accesses logged. `notifyChange` is
`Obligations.NotifyOnChange`. -/
def Obligations.ConnectDetectNotConnected : Prop :=
  ∀ s : State, s.role = .host → (s.readOk s.cfg.host.lineState = true → s.readByte s.cfg.host.lineState &&& 0xC0 = 0) →
    let s1 := (s.afterRead s.cfg.host.lineState).logUnless (s.readOk s.cfg.host.lineState)
    let off := (s1.afterRmw s.cfg.host.sofReg (· &&& ~~~s.cfg.b.sofEn)).logUnless
      (s1.rmwOk s.cfg.host.sofReg (· &&& ~~~s.cfg.b.sofEn))
    let u := notifyChange false { off with bstate := .noDevice }
    exec .onConnectDetect s =
      .next ((u.afterWrite s.cfg.host.topIrq s.cfg.b.conDet).logUnless (u.writeOk s.cfg.host.topIrq s.cfg.b.conDet))

/-- `onConnectDetect` where a device is present but the start-of-frame access or the frame wait fails (R172, R175, R176, R177): the fault
logged, then as if not connected. -/
def Obligations.ConnectDetectAborted : Prop :=
  ∀ s : State, s.role = .host → s.readOk s.cfg.host.lineState = true →
    s.readByte s.cfg.host.lineState &&& 0xC0 ≠ 0 →
    let sof := s.cfg.host.sofReg
    let top := s.cfg.host.topIrq
    let frame (v : Byte) : Bool := v &&& s.cfg.b.frame != 0
    let s1 := { s.afterRead s.cfg.host.lineState with bstate := .connected }
    let s2 := s1.afterRmw sof (· ||| s.cfg.b.sofEn)
    let polled (n : Nat) : State := s2.afterMisses top [] n
    let abort (k : FaultKind) (v : State) : Host.Outcome State Fault Refusal :=
      let v1 : State := { v with trace := v.trace ++ [.log (.fault k)] }
      let off := (v1.afterRmw sof (· &&& ~~~s.cfg.b.sofEn)).logUnless (v1.rmwOk sof (· &&& ~~~s.cfg.b.sofEn))
      let u := notifyChange false { off with bstate := .noDevice }
      .next ((u.afterWrite top s.cfg.b.conDet).logUnless (u.writeOk top s.cfg.b.conDet))
    (s1.rmwOk sof (· ||| s.cfg.b.sofEn) = false → exec .onConnectDetect s = abort .transportError s2) ∧
    (s1.rmwOk sof (· ||| s.cfg.b.sofEn) = true →
      (∀ n < s.cfg.framePollCap, s2.misses top frame [] n = true → (polled n).readOk top = false →
        exec .onConnectDetect s = abort .transportError ((polled n).afterRead top)) ∧
      (s2.misses top frame [] s.cfg.framePollCap = true →
        exec .onConnectDetect s = abort .hardwareTimeout (polled s.cfg.framePollCap)))

/-- `onConnectDetect` on the connected path (R172, R174, R175, R176, R178): the two calls with the settle delay between them, the result
logged, the second delay, `Ready` only after a successful enumeration, the change reported as connected either way, the acknowledge
last. `callOut` is `Obligations.CallsAndMasks`. -/
def Obligations.ConnectDetectConnected : Prop :=
  ∀ (s : State) (n : Nat), s.role = .host → s.readOk s.cfg.host.lineState = true →
    s.readByte s.cfg.host.lineState &&& 0xC0 ≠ 0 →
    let sof := s.cfg.host.sofReg
    let top := s.cfg.host.topIrq
    let frame (v : Byte) : Bool := v &&& s.cfg.b.frame != 0
    let s1 := { s.afterRead s.cfg.host.lineState with bstate := .connected }
    let s2 := s1.afterRmw sof (· ||| s.cfg.b.sofEn)
    let polled := s2.afterMisses top [] n
    s1.rmwOk sof (· ||| s.cfg.b.sofEn) = true → n < s.cfg.framePollCap → s2.misses top frame [] n = true →
    polled.readOk top = true → frame (polled.readByte top) = true →
    let s3 := (callOut (.call .performBusReset) { polled.afterRead top with bstate := .resetting }).2
    let r := callOut (.call .performEnumeration)
      { s3 with bstate := .enumerating, trace := s3.trace ++ [.delay .settle] }
    let s4 := { r.2 with
      bstate := if r.1 then .ready else .enumerating
      trace := r.2.trace ++ [.log (.enumResult r.1), .delay .stabilize] }
    let u := notifyChange true s4
    exec .onConnectDetect s =
      .next ((u.afterWrite top s.cfg.b.conDet).logUnless (u.writeOk top s.cfg.b.conDet))

/-- The report of a presence value (R25, R174, R229): nothing unless the value changed; then `CONN` is updated, and the callback invoked if
there is one, with the new value. -/
def Obligations.NotifyOnChange : Prop :=
  ∀ (s : State) (b : Bool),
    (b = s.conn → notifyChange b s = s) ∧
    (b ≠ s.conn → s.cb = none → notifyChange b s = { s with conn := b }) ∧
    (∀ cb : CallbackRef, b ≠ s.conn → s.cb = some cb →
      notifyChange b s = (callOut (.notify cb b) { s with conn := b }).2)

/-- The attach scenario of the source (R179), for quiet collaborators, enumeration succeeding, and the frame bit seen on the first read: the
exact trace of the handler, `CONN = 1` and `BSTATE = Ready`, and nothing else changed but the flag, the edge latch and the scripts. -/
def Obligations.AttachScenario : Prop :=
  ∀ (s : State) (cb : CallbackRef) (q1 q2 q3 : CollabAnswer) (quiet : List CollabAnswer)
    (c1 f1 w1 x1 g1 k1 : ChipAnswer) (v f r g : Byte) (rest : List ChipAnswer) (w2 k2 : ChipAnswer),
    s.cfg.Valid → s.role = .host → s.conn = false → s.cb = some cb →
    s.collab = q1 :: q2 :: q3 :: quiet → q1.ops = [] → q2.ops = [] → q3.ops = [] → q2.success = true →
    c1.miso.isSome = true → f1.miso.isSome = true → w1.miso.isSome = true → x1.miso.isSome = true →
    g1.miso.isSome = true → k1.miso.isSome = true → w2.miso = some r → k2.miso = some g →
    v &&& 0xC0 ≠ 0 → (f &&& s.cfg.b.frame) ≠ 0 →
    s.chip = c1 :: ⟨some v⟩ :: f1 :: x1 :: w1 :: w2 :: g1 :: ⟨some f⟩ :: k1 :: k2 :: rest →
    ∃ (x : Byte) (t : State), x1.miso = some x ∧ exec .onConnectDetect s = .next t ∧ t.conn = true ∧ t.bstate = .ready ∧
      t.enabledTopIRQ = s.enabledTopIRQ ∧ t.enabledEndpointIRQ = s.enabledEndpointIRQ ∧ t.role = s.role ∧
      t.cb = s.cb ∧ t.rxbuf = s.rxbuf ∧ t.intArmed = s.intArmed ∧ t.sel = s.sel ∧ t.cfg = s.cfg ∧
      t.sched = s.sched ∧ t.results = s.results ∧ t.chip = rest ∧ t.collab = quiet ∧ t.ackstat = false ∧
      t.trace = s.trace ++
        [.ss false, .x (cmdByte s.cfg.host.lineState .read s.ackstat) c1.miso, .x 0x00 (some v), .ss true,
         .ss false, .x (cmdByte s.cfg.host.sofReg .read false) f1.miso, .x 0x00 (some x), .ss true,
         .ss false, .x (cmdByte s.cfg.host.sofReg .write false) w1.miso, .x (x ||| s.cfg.b.sofEn) (some r), .ss true,
         .ss false, .x (cmdByte s.cfg.host.topIrq .read false) g1.miso, .x 0x00 (some f), .ss true,
         .call .performBusReset, .delay .settle, .call .performEnumeration, .log (.enumResult true),
         .delay .stabilize, .notify cb true,
         .ss false, .x (cmdByte s.cfg.host.topIrq .write false) k1.miso, .x s.cfg.b.conDet (some g), .ss true]

/-! ## Setup handler -/

/-- `onSetup`, the receive buffer (R26, R53, R190): byte by byte, what the burst delivered, also before a fault; every other byte is as before.
A fault in the acknowledge means no burst. -/
def Obligations.SetupBuffer : Prop :=
  ∀ s : State, s.role = .peripheral →
    let s1 := s.afterWrite s.cfg.periph.epIrq s.cfg.b.sudAv
    let outs := cmdByte s.cfg.periph.sudFifo .read false :: List.replicate 8 0x00
    let data := s1.busData outs
    (s.writeOk s.cfg.periph.epIrq s.cfg.b.sudAv = false → exec .onSetup s = .next (s1.logUnless false)) ∧
    (s.writeOk s.cfg.periph.epIrq s.cfg.b.sudAv = true →
      data.length ≤ 8 ∧ (s1.busOk outs = true → data.length = 8) ∧
      ∃ t : State, exec .onSetup s = .next t ∧
        (∀ j : Nat, rxPeek t.rxbuf j = if j < data.length then data[j]? else rxPeek s.rxbuf j) ∧
        (s1.busOk outs = false →
          t = { s1.afterBus outs with
            rxbuf := t.rxbuf, trace := (s1.afterBus outs).trace ++ [.log (.fault .transportError)] }))

/-- `onSetup` for `SET_ADDRESS` (R191): a read that carries the ACKSTAT bit, its value discarded; the flag is clear afterwards, and a fault
is logged. -/
def Obligations.SetupSetAddress : Prop :=
  ∀ s : State, s.role = .peripheral →
    let s1 := s.afterWrite s.cfg.periph.epIrq s.cfg.b.sudAv
    let outs := cmdByte s.cfg.periph.sudFifo .read false :: List.replicate 8 0x00
    let data := s1.busData outs
    let ack := [cmdByte s.cfg.periph.ackReg .read true, 0x00]
    s.writeOk s.cfg.periph.epIrq s.cfg.b.sudAv = true → s1.busOk outs = true →
    data[1]? = some s.cfg.reqSetAddress →
    let s2 := { s1.afterBus outs with rxbuf := rxFill 0 data s.rxbuf }
    exec .onSetup s = .next ((s2.afterBus ack).logUnless (s2.busOk ack))

/-- `onSetup` for `GET_STATUS` (R192): the collaborator is called with the eight bytes just read, and what it does is all that happens. -/
def Obligations.SetupGetStatus : Prop :=
  ∀ s : State, s.role = .peripheral → s.cfg.reqGetStatus ≠ s.cfg.reqSetAddress →
    let s1 := s.afterWrite s.cfg.periph.epIrq s.cfg.b.sudAv
    let outs := cmdByte s.cfg.periph.sudFifo .read false :: List.replicate 8 0x00
    let data := s1.busData outs
    s.writeOk s.cfg.periph.epIrq s.cfg.b.sudAv = true → s1.busOk outs = true →
    data[1]? = some s.cfg.reqGetStatus →
    let s2 := { s1.afterBus outs with rxbuf := rxFill 0 data s.rxbuf }
    exec .onSetup s = .next (callOut (.call (.respondToStatusRequest data)) s2).2

/-- `onSetup` for any other request (R193): logged with the byte at offset 1, and nothing else. -/
def Obligations.SetupUnimplemented : Prop :=
  ∀ (s : State) (q : Byte), s.role = .peripheral → q ≠ s.cfg.reqSetAddress → q ≠ s.cfg.reqGetStatus →
    let s1 := s.afterWrite s.cfg.periph.epIrq s.cfg.b.sudAv
    let outs := cmdByte s.cfg.periph.sudFifo .read false :: List.replicate 8 0x00
    let data := s1.busData outs
    s.writeOk s.cfg.periph.epIrq s.cfg.b.sudAv = true → s1.busOk outs = true → data[1]? = some q →
    exec .onSetup s = .next { s1.afterBus outs with
      rxbuf := rxFill 0 data s.rxbuf
      trace := (s1.afterBus outs).trace ++ [.log (.unimplementedRequest q)] }

/-- `onInBufAvail` (R195): the interrupt is disabled, in the chip and in the mask; the mask even if the write-through faults. -/
def Obligations.InBufAvailResult : Prop :=
  ∀ s : State, s.role = .peripheral →
    let a := s.cfg.periph.epIen
    let f : Byte → Byte := (· &&& ~~~s.cfg.b.inBAv)
    exec .onInBufAvail s =
      .next ({ s.afterRmw a f with enabledEndpointIRQ := s.enabledEndpointIRQ &&& ~~~s.cfg.b.inBAv }.logUnless
        (s.rmwOk a f))

/-- `onResetDone` (R194): the four steps in order, each going on after a logged fault. -/
def Obligations.ResetDoneResult : Prop :=
  ∀ s : State, s.role = .peripheral →
    let p := s.cfg.periph
    let b := s.cfg.b
    let s1 := (s.afterWrite p.topIrq b.uresDn).logUnless (s.writeOk p.topIrq b.uresDn)
    let s2 := { s1.afterRmw p.epIen (· ||| b.sudAv) with enabledEndpointIRQ := s.enabledEndpointIRQ ||| b.sudAv }.logUnless
      (s1.rmwOk p.epIen (· ||| b.sudAv))
    let s3 := { s2.afterRmw p.topIen (· ||| b.uresDn) with enabledTopIRQ := s.enabledTopIRQ ||| b.uresDn }.logUnless
      (s2.rmwOk p.topIen (· ||| b.uresDn))
    exec .onResetDone s =
      .next ((s3.afterWrite p.ep2InBc s.cfg.ep2Refill).logUnless (s3.writeOk p.ep2InBc s.cfg.ep2Refill))

/-- A handler in a role in which it never runs does nothing: the model's choice (log entry 10). -/
def Obligations.HandlersOutsideTheirRole : Prop :=
  ∀ s : State,
    (s.role ≠ .host → exec .onConnectDetect s = .next s) ∧
    (s.role ≠ .peripheral → exec .onSetup s = .next s ∧ exec .onInBufAvail s = .next s ∧ exec .onResetDone s = .next s)

/-! ## The whole block -/

/-- Power-on reset (R250): the registers of the table of R34; no byte of `RXBUF` has a value, so reading one faults; idle, no transaction
open; the first operation presented is the first thing that happens; of the chip nothing is known. -/
def Obligations.PowerOnValues : Prop :=
  State.reset.ackstat = false ∧ State.reset.enabledTopIRQ = 0x00 ∧ State.reset.enabledEndpointIRQ = 0x00 ∧
  State.reset.role = .unset ∧ State.reset.conn = false ∧ State.reset.cb = none ∧ State.reset.bstate = .noDevice ∧
  State.reset.irqPend = false ∧ State.reset.intArmed = false ∧
  (∀ i : Nat, rxRead i State.reset.rxbuf = .error (.rxbufUnwritten i)) ∧
  State.reset.sel = 0 ∧ WellFramed State.reset.trace ∧
  (∀ (w : OpWord) (payload : List Byte) (ref : CallbackRef) (rest : List Item) (i : Instr),
    decode (.op w payload ref) = .ok i →
    step { State.reset with sched := .op w payload ref :: rest } = exec i { State.reset with sched := rest }) ∧
  (∀ out : Byte, (xchg out State.reset).1 = (Config.chip [] out).miso)

/-- The invariant holds at power-on. -/
def Obligations.InvHoldsAtReset : Prop := Inv State.reset

/-- Every step keeps the invariant: the buffer's form, whole transactions, the edge detector and the latch, the endpoint mask and the connection
state by role, the selected handlers (R22, R24, R26, R27, R29, R54, R89, R175, R211). -/
def Obligations.StepKeepsInv : Prop :=
  ∀ s t : State, Inv s → step s = .next t → Inv t

/-- Who writes what (R20), for all ten registers: each changes only in the instructions the table names, a mask and the flag also where a
collaborator is called (R228). `ACKSTAT` is set by `setAckstat()` and otherwise as before where an instruction records nothing; where it
records something the flag is clear afterwards, unless the collaborator of `GET_STATUS` was called. `IRQ_PEND` is what the edges inside the
exchanges made of it. An instruction takes no item of the schedule, changes neither the vector nor the configuration, and answers on the
operation port only if it came from there (or is a raw transaction). -/
def Obligations.RegistersHaveNamedWriters : Prop :=
  ∀ (i : Instr) (s t : State), exec i s = .next t →
    ((t.role ≠ s.role ∨ t.intArmed ≠ s.intArmed) → s.role = .unset ∧ ∃ r, i = .start r) ∧
    ((t.conn ≠ s.conn ∨ t.bstate ≠ s.bstate) → s.role = .host ∧ i = .onConnectDetect) ∧
    (t.trace = s.trace → t.ackstat = if i = .setAckstat then true else s.ackstat) ∧
    (t.trace ≠ s.trace → t.ackstat = true → i = .onSetup ∧
      ∃ packet, Event.call (.respondToStatusRequest packet) ∈ t.trace.drop s.trace.length) ∧
    (∃ evs, t.trace = s.trace ++ evs ∧ EdgesTaken (exchanges evs) s t) ∧
    (t.cb ≠ s.cb → ∃ c, i = .registerCallback c) ∧
    (t.rxbuf ≠ s.rxbuf → s.role = .peripheral ∧ i = .onSetup) ∧
    (∀ j : Nat, 8 ≤ j → rxPeek t.rxbuf j = rxPeek s.rxbuf j) ∧
    (t.enabledTopIRQ ≠ s.enabledTopIRQ → (∃ x, i = .enableInterrupts x) ∨ (∃ x, i = .disableInterrupts x) ∨
      i = .reset ∨ i = .onResetDone ∨ i = .onSetup ∨ i = .onConnectDetect) ∧
    (t.enabledEndpointIRQ ≠ s.enabledEndpointIRQ →
      (∃ x, i = .enableEndpointInterrupts x) ∨ (∃ x, i = .disableEndpointInterrupts x) ∨
      i = .reset ∨ i = .onResetDone ∨ i = .onInBufAvail ∨ i = .onSetup) ∧
    t.sel = s.sel ∧ t.cfg = s.cfg ∧ t.sched = s.sched ∧
    (t.results ≠ s.results → decode (.evt 0b0001) ≠ .ok i ∧ decode (.evt 0b0010) ≠ .ok i ∧
      decode (.evt 0b0100) ≠ .ok i ∧ decode (.evt 0b1000) ≠ .ok i)

/-- The callback is invoked exactly once per change of the connection value, with the new value, and never otherwise; while there is none,
changes are dropped (R25, R174, R229). -/
def Obligations.NotificationOncePerTransition : Prop :=
  ∀ s t : State, step s = .next t →
    ∃ evs : List Event, t.trace = s.trace ++ evs ∧ notifications evs = owed s.cb s.conn t.conn

/-- An operation is answered `Refused` exactly in the cases of R223, and then nothing but the answer is added. -/
def Obligations.RefusedExactly : Prop :=
  ∀ (i : Instr) (s : State), isOp i = true →
    (refusedCase s i = true → exec i s = .next { s with results := s.results ++ [⟨.refused, []⟩] }) ∧
    (refusedCase s i = false → ∃ (t : State) (a : Answer), exec i s = .next t ∧ t.results = s.results ++ [a] ∧
      a.code ≠ .refused)

/-- No instruction clears a pending event, and none raises one but with the edge detector in service (R28, R211, R215). -/
def Obligations.PendingEventIsKept : Prop :=
  ∀ (i : Instr) (s t : State), exec i s = .next t →
    (s.irqPend = true → t.irqPend = true) ∧ (t.irqPend = true → s.irqPend = true ∨ t.intArmed = true)

/-- Any bus activity of an operation clears the flag, whatever the operation is for; without bus activity it keeps its value, but for
`setAckstat()` (R21, R32, R60, R253). -/
def Obligations.BusActivityClearsAckstat : Prop :=
  ∀ (i : Instr) (s t : State), isOp i = true → exec i s = .next t →
    (t.trace ≠ s.trace → t.ackstat = false) ∧
    (t.trace = s.trace → t.ackstat = (if i = .setAckstat then true else s.ackstat))

/-- At most one transaction carries the flag: the first command byte of an operation carries it if it was set (or the operation is one of the
acknowledge forms), and no later one of the same operation does (R21, R83, R117). -/
def Obligations.OneCommandCarriesAckstat : Prop :=
  ∀ (i : Instr) (s t : State), isOp i = true → exec i s = .next t →
    ∃ evs : List Event, t.trace = s.trace ++ evs ∧
      (∀ c ∈ (commandBytes evs).head?, cmdAckstat c = (s.ackstat || isAckForm i)) ∧
      (∀ c ∈ (commandBytes evs).tail, cmdAckstat c = false)
end

