-- ==== Sys2Proof/Laws/Fields.lean ====
section
/-! SUPPORT. The fields of what the encoder builds: an operation word, a command byte. -/

namespace Sys2Proof

@[simp] theorem opcOf_mkWord (o : BitVec 5) (z1 : BitVec 3) (a : Addr) (z2 : BitVec 3) (i : Byte) :
    opcOf (mkWord o z1 a z2 i) = o := by
  unfold opcOf mkWord
  ext k hk
  simp only [BitVec.getElem_extractLsb', BitVec.getLsbD_append]
  have h1 : ¬ 19 + k < 8 := by omega
  have h2 : ¬ 19 + k - 8 < 3 := by omega
  have h3 : ¬ 19 + k - 8 - 3 < 5 := by omega
  have h4 : ¬ 19 + k - 8 - 3 - 5 < 3 := by omega
  have h5 : 19 + k - 8 - 3 - 5 - 3 = k := by omega
  simp [h1, h2, h3, h4, h5, hk]

@[simp] theorem z1Of_mkWord (o : BitVec 5) (z1 : BitVec 3) (a : Addr) (z2 : BitVec 3) (i : Byte) :
    z1Of (mkWord o z1 a z2 i) = z1 := by
  unfold z1Of mkWord
  ext k hk
  simp only [BitVec.getElem_extractLsb', BitVec.getLsbD_append]
  have h1 : ¬ 16 + k < 8 := by omega
  have h2 : ¬ 16 + k - 8 < 3 := by omega
  have h3 : ¬ 16 + k - 8 - 3 < 5 := by omega
  have h5 : 16 + k - 8 - 3 - 5 = k := by omega
  simp [h1, h2, h3, h5, hk]

@[simp] theorem addrOf_mkWord (o : BitVec 5) (z1 : BitVec 3) (a : Addr) (z2 : BitVec 3) (i : Byte) :
    addrOf (mkWord o z1 a z2 i) = a := by
  unfold addrOf mkWord
  ext k hk
  simp only [BitVec.getElem_extractLsb', BitVec.getLsbD_append]
  have h1 : ¬ 11 + k < 8 := by omega
  have h2 : ¬ 11 + k - 8 < 3 := by omega
  have h5 : 11 + k - 8 - 3 = k := by omega
  simp [h1, h2, h5, hk]

@[simp] theorem z2Of_mkWord (o : BitVec 5) (z1 : BitVec 3) (a : Addr) (z2 : BitVec 3) (i : Byte) :
    z2Of (mkWord o z1 a z2 i) = z2 := by
  unfold z2Of mkWord
  ext k hk
  simp only [BitVec.getElem_extractLsb', BitVec.getLsbD_append]
  have h1 : ¬ 8 + k < 8 := by omega
  have h5 : 8 + k - 8 = k := by omega
  simp [h1, h5, hk]

@[simp] theorem immOf_mkWord (o : BitVec 5) (z1 : BitVec 3) (a : Addr) (z2 : BitVec 3) (i : Byte) :
    immOf (mkWord o z1 a z2 i) = i := by
  unfold immOf mkWord
  ext k hk
  simp only [BitVec.getElem_extractLsb', BitVec.getLsbD_append]
  simp [hk]

/-- A word is made of its fields (R84): no bit of it is outside them. -/
theorem mkWord_fields (w : OpWord) : mkWord (opcOf w) (z1Of w) (addrOf w) (z2Of w) (immOf w) = w := by
  unfold mkWord opcOf z1Of addrOf z2Of immOf
  ext k hk
  simp only [BitVec.getElem_append, BitVec.getElem_extractLsb']
  split
  · simp [BitVec.getLsbD_eq_getElem, hk]
  · split
    · rename_i h1 h2
      have : 8 + (k - 8) = k := by omega
      simp [this, BitVec.getLsbD_eq_getElem, hk]
    · split
      · have : 11 + (k - 8 - 3) = k := by omega
        simp [this, BitVec.getLsbD_eq_getElem, hk]
      · split
        · have : 16 + (k - 8 - 3 - 5) = k := by omega
          simp [this, BitVec.getLsbD_eq_getElem, hk]
        · have : 19 + (k - 8 - 3 - 5 - 3) = k := by omega
          simp [this, BitVec.getLsbD_eq_getElem, hk]

theorem opcOf_toNat (w : OpWord) : (opcOf w).toNat = w.toNat / 2 ^ 19 := by
  have := w.isLt
  simp only [opcOf, BitVec.extractLsb'_toNat, Nat.shiftRight_eq_div_pow]
  omega

theorem opcOf_shift (w : OpWord) : (w >>> 19).toNat = (opcOf w).toNat := by
  rw [opcOf_toNat, BitVec.toNat_ushiftRight, Nat.shiftRight_eq_div_pow]

theorem illegal00_toNat (low : BitVec 19) : (0#5 ++ low : OpWord).toNat = low.toNat := by
  refine (BitVec.toNat_append 0#5 low).trans ?_
  simp

theorem illegal18_toNat (low : BitVec 22) : (0b11#2 ++ low : OpWord).toNat = 3 * 2 ^ 22 + low.toNat := by
  refine (BitVec.toNat_append 3#2 low).trans ?_
  rw [← Nat.shiftLeft_add_eq_or_of_lt low.isLt, Nat.shiftLeft_eq]
  rfl

/-- The words of the first illegal row: operation code 0, the rest free (R87). -/
theorem illegal00_fields (low : BitVec 19) :
    (opcOf (0#5 ++ low)).toNat = 0 ∧ (0#5 ++ low : OpWord).extractLsb' 0 19 = low := by
  have hl := low.isLt
  refine ⟨?_, BitVec.eq_of_toNat_eq ?_⟩
  · rw [opcOf_toNat, illegal00_toNat]
    omega
  · rw [BitVec.extractLsb'_toNat, illegal00_toNat, Nat.shiftRight_zero]
    omega

/-- The words of the second: operation code at least `0x18`, the rest free (R87). -/
theorem illegal18_fields (low : BitVec 22) :
    0x18 ≤ (opcOf (0b11#2 ++ low)).toNat ∧ (0b11#2 ++ low : OpWord).extractLsb' 0 22 = low := by
  have hl := low.isLt
  refine ⟨?_, BitVec.eq_of_toNat_eq ?_⟩
  · rw [opcOf_toNat, illegal18_toNat]
    omega
  · rw [BitVec.extractLsb'_toNat, illegal18_toNat, Nat.shiftRight_zero]
    omega

/-- A word of operation code 0 is of the first row. -/
theorem word_of_illegal00 {w : OpWord} (h : (opcOf w).toNat = 0) : 0#5 ++ w.extractLsb' 0 19 = w := by
  apply BitVec.eq_of_toNat_eq
  rw [illegal00_toNat, BitVec.extractLsb'_toNat, Nat.shiftRight_zero]
  rw [opcOf_toNat] at h
  omega

/-- A word of operation code at least `0x18` is of the second. -/
theorem word_of_illegal18 {w : OpWord} (h : 0x18 ≤ (opcOf w).toNat) : 0b11#2 ++ w.extractLsb' 0 22 = w := by
  have hw := w.isLt
  apply BitVec.eq_of_toNat_eq
  rw [illegal18_toNat, BitVec.extractLsb'_toNat, Nat.shiftRight_zero]
  rw [opcOf_toNat] at h
  omega

theorem cmdByte_fields_all : ∀ (a : Addr) (s : Bool),
    (cmdAddr (cmdByte a .read s) = a ∧ cmdIsWrite (cmdByte a .read s) = false ∧ cmdAckstat (cmdByte a .read s) = s ∧
      cmdBit2 (cmdByte a .read s) = false) ∧
    (cmdAddr (cmdByte a .write s) = a ∧ cmdIsWrite (cmdByte a .write s) = true ∧ cmdAckstat (cmdByte a .write s) = s ∧
      cmdBit2 (cmdByte a .write s) = false) := by decide

@[simp] theorem cmdBit2_cmdByte (a : Addr) (d : Dir) (s : Bool) : cmdBit2 (cmdByte a d s) = false := by
  cases d
  · exact (cmdByte_fields_all a s).1.2.2.2
  · exact (cmdByte_fields_all a s).2.2.2.2

@[simp] theorem cmdIsWrite_read (a : Addr) (s : Bool) : cmdIsWrite (cmdByte a .read s) = false :=
  (cmdByte_fields_all a s).1.2.1

@[simp] theorem cmdIsWrite_write (a : Addr) (s : Bool) : cmdIsWrite (cmdByte a .write s) = true :=
  (cmdByte_fields_all a s).2.2.1

@[simp] theorem cmdAddr_cmdByte (a : Addr) (d : Dir) (s : Bool) : cmdAddr (cmdByte a d s) = a := by
  cases d
  · exact (cmdByte_fields_all a s).1.1
  · exact (cmdByte_fields_all a s).2.1

@[simp] theorem cmdAckstat_cmdByte (a : Addr) (d : Dir) (s : Bool) : cmdAckstat (cmdByte a d s) = s := by
  cases d
  · exact (cmdByte_fields_all a s).1.2.2.1
  · exact (cmdByte_fields_all a s).2.2.2.1

end Sys2Proof
end

