-- ==== Sys2Proof/Laws/State.lean ====
section
/-! SUPPORT. One lemma per field per named update of State, so that no later proof unfolds an update. -/

namespace Sys2Proof.Machine

@[simp] theorem logFault_eq (s : State) (k : FaultKind) : s.logFault k = s.emit (.log (.fault k)) := rfl
@[simp] theorem delay_eq (s : State) (d : DelayName) : s.delay d = s.emit (.delay d) := rfl
@[simp] theorem answerRefused_eq (s : State) : answerRefused s = s.answer ⟨.refused, []⟩ := rfl

@[simp] theorem emit_ackstat (s : State) (e : Event) : (s.emit e).ackstat = s.ackstat := rfl
@[simp] theorem emit_enabledTopIRQ (s : State) (e : Event) : (s.emit e).enabledTopIRQ = s.enabledTopIRQ := rfl
@[simp] theorem emit_enabledEndpointIRQ (s : State) (e : Event) : (s.emit e).enabledEndpointIRQ = s.enabledEndpointIRQ := rfl
@[simp] theorem emit_role (s : State) (e : Event) : (s.emit e).role = s.role := rfl
@[simp] theorem emit_conn (s : State) (e : Event) : (s.emit e).conn = s.conn := rfl
@[simp] theorem emit_cb (s : State) (e : Event) : (s.emit e).cb = s.cb := rfl
@[simp] theorem emit_rxbuf (s : State) (e : Event) : (s.emit e).rxbuf = s.rxbuf := rfl
@[simp] theorem emit_bstate (s : State) (e : Event) : (s.emit e).bstate = s.bstate := rfl
@[simp] theorem emit_irqPend (s : State) (e : Event) : (s.emit e).irqPend = s.irqPend := rfl
@[simp] theorem emit_intArmed (s : State) (e : Event) : (s.emit e).intArmed = s.intArmed := rfl
@[simp] theorem emit_sel (s : State) (e : Event) : (s.emit e).sel = s.sel := rfl
@[simp] theorem emit_cfg (s : State) (e : Event) : (s.emit e).cfg = s.cfg := rfl
@[simp] theorem emit_chip (s : State) (e : Event) : (s.emit e).chip = s.chip := rfl
@[simp] theorem emit_collab (s : State) (e : Event) : (s.emit e).collab = s.collab := rfl
@[simp] theorem emit_sched (s : State) (e : Event) : (s.emit e).sched = s.sched := rfl
@[simp] theorem emit_midEdges (s : State) (e : Event) : (s.emit e).midEdges = s.midEdges := rfl
@[simp] theorem emit_trace (s : State) (e : Event) : (s.emit e).trace = s.trace ++ [e] := rfl
@[simp] theorem emit_results (s : State) (e : Event) : (s.emit e).results = s.results := rfl

@[simp] theorem answer_ackstat (s : State) (a : Answer) : (s.answer a).ackstat = s.ackstat := rfl
@[simp] theorem answer_enabledTopIRQ (s : State) (a : Answer) : (s.answer a).enabledTopIRQ = s.enabledTopIRQ := rfl
@[simp] theorem answer_enabledEndpointIRQ (s : State) (a : Answer) : (s.answer a).enabledEndpointIRQ = s.enabledEndpointIRQ := rfl
@[simp] theorem answer_role (s : State) (a : Answer) : (s.answer a).role = s.role := rfl
@[simp] theorem answer_conn (s : State) (a : Answer) : (s.answer a).conn = s.conn := rfl
@[simp] theorem answer_cb (s : State) (a : Answer) : (s.answer a).cb = s.cb := rfl
@[simp] theorem answer_rxbuf (s : State) (a : Answer) : (s.answer a).rxbuf = s.rxbuf := rfl
@[simp] theorem answer_bstate (s : State) (a : Answer) : (s.answer a).bstate = s.bstate := rfl
@[simp] theorem answer_irqPend (s : State) (a : Answer) : (s.answer a).irqPend = s.irqPend := rfl
@[simp] theorem answer_intArmed (s : State) (a : Answer) : (s.answer a).intArmed = s.intArmed := rfl
@[simp] theorem answer_sel (s : State) (a : Answer) : (s.answer a).sel = s.sel := rfl
@[simp] theorem answer_cfg (s : State) (a : Answer) : (s.answer a).cfg = s.cfg := rfl
@[simp] theorem answer_chip (s : State) (a : Answer) : (s.answer a).chip = s.chip := rfl
@[simp] theorem answer_collab (s : State) (a : Answer) : (s.answer a).collab = s.collab := rfl
@[simp] theorem answer_sched (s : State) (a : Answer) : (s.answer a).sched = s.sched := rfl
@[simp] theorem answer_midEdges (s : State) (a : Answer) : (s.answer a).midEdges = s.midEdges := rfl
@[simp] theorem answer_trace (s : State) (a : Answer) : (s.answer a).trace = s.trace := rfl
@[simp] theorem answer_results (s : State) (a : Answer) : (s.answer a).results = s.results ++ [a] := rfl

@[simp] theorem fallingEdge_ackstat (s : State) : (s.fallingEdge).ackstat = s.ackstat := rfl
@[simp] theorem fallingEdge_enabledTopIRQ (s : State) : (s.fallingEdge).enabledTopIRQ = s.enabledTopIRQ := rfl
@[simp] theorem fallingEdge_enabledEndpointIRQ (s : State) : (s.fallingEdge).enabledEndpointIRQ = s.enabledEndpointIRQ := rfl
@[simp] theorem fallingEdge_role (s : State) : (s.fallingEdge).role = s.role := rfl
@[simp] theorem fallingEdge_conn (s : State) : (s.fallingEdge).conn = s.conn := rfl
@[simp] theorem fallingEdge_cb (s : State) : (s.fallingEdge).cb = s.cb := rfl
@[simp] theorem fallingEdge_rxbuf (s : State) : (s.fallingEdge).rxbuf = s.rxbuf := rfl
@[simp] theorem fallingEdge_bstate (s : State) : (s.fallingEdge).bstate = s.bstate := rfl
@[simp] theorem fallingEdge_irqPend (s : State) : (s.fallingEdge).irqPend = (s.irqPend || s.intArmed) := rfl
@[simp] theorem fallingEdge_intArmed (s : State) : (s.fallingEdge).intArmed = s.intArmed := rfl
@[simp] theorem fallingEdge_sel (s : State) : (s.fallingEdge).sel = s.sel := rfl
@[simp] theorem fallingEdge_cfg (s : State) : (s.fallingEdge).cfg = s.cfg := rfl
@[simp] theorem fallingEdge_chip (s : State) : (s.fallingEdge).chip = s.chip := rfl
@[simp] theorem fallingEdge_collab (s : State) : (s.fallingEdge).collab = s.collab := rfl
@[simp] theorem fallingEdge_sched (s : State) : (s.fallingEdge).sched = s.sched := rfl
@[simp] theorem fallingEdge_midEdges (s : State) : (s.fallingEdge).midEdges = s.midEdges := rfl
@[simp] theorem fallingEdge_trace (s : State) : (s.fallingEdge).trace = s.trace := rfl
@[simp] theorem fallingEdge_results (s : State) : (s.fallingEdge).results = s.results := rfl

@[simp] theorem edgeIf_ackstat (s : State) (b : Bool) : (s.edgeIf b).ackstat = s.ackstat := by cases b <;> simp [State.edgeIf]
@[simp] theorem edgeIf_enabledTopIRQ (s : State) (b : Bool) : (s.edgeIf b).enabledTopIRQ = s.enabledTopIRQ := by cases b <;> simp [State.edgeIf]
@[simp] theorem edgeIf_enabledEndpointIRQ (s : State) (b : Bool) : (s.edgeIf b).enabledEndpointIRQ = s.enabledEndpointIRQ := by cases b <;> simp [State.edgeIf]
@[simp] theorem edgeIf_role (s : State) (b : Bool) : (s.edgeIf b).role = s.role := by cases b <;> simp [State.edgeIf]
@[simp] theorem edgeIf_conn (s : State) (b : Bool) : (s.edgeIf b).conn = s.conn := by cases b <;> simp [State.edgeIf]
@[simp] theorem edgeIf_cb (s : State) (b : Bool) : (s.edgeIf b).cb = s.cb := by cases b <;> simp [State.edgeIf]
@[simp] theorem edgeIf_rxbuf (s : State) (b : Bool) : (s.edgeIf b).rxbuf = s.rxbuf := by cases b <;> simp [State.edgeIf]
@[simp] theorem edgeIf_bstate (s : State) (b : Bool) : (s.edgeIf b).bstate = s.bstate := by cases b <;> simp [State.edgeIf]
@[simp] theorem edgeIf_irqPend (s : State) (b : Bool) : (s.edgeIf b).irqPend = (s.irqPend || (s.intArmed && b)) := by cases b <;> simp [State.edgeIf]
@[simp] theorem edgeIf_intArmed (s : State) (b : Bool) : (s.edgeIf b).intArmed = s.intArmed := by cases b <;> simp [State.edgeIf]
@[simp] theorem edgeIf_sel (s : State) (b : Bool) : (s.edgeIf b).sel = s.sel := by cases b <;> simp [State.edgeIf]
@[simp] theorem edgeIf_cfg (s : State) (b : Bool) : (s.edgeIf b).cfg = s.cfg := by cases b <;> simp [State.edgeIf]
@[simp] theorem edgeIf_chip (s : State) (b : Bool) : (s.edgeIf b).chip = s.chip := by cases b <;> simp [State.edgeIf]
@[simp] theorem edgeIf_collab (s : State) (b : Bool) : (s.edgeIf b).collab = s.collab := by cases b <;> simp [State.edgeIf]
@[simp] theorem edgeIf_sched (s : State) (b : Bool) : (s.edgeIf b).sched = s.sched := by cases b <;> simp [State.edgeIf]
@[simp] theorem edgeIf_midEdges (s : State) (b : Bool) : (s.edgeIf b).midEdges = s.midEdges := by cases b <;> simp [State.edgeIf]
@[simp] theorem edgeIf_trace (s : State) (b : Bool) : (s.edgeIf b).trace = s.trace := by cases b <;> simp [State.edgeIf]
@[simp] theorem edgeIf_results (s : State) (b : Bool) : (s.edgeIf b).results = s.results := by cases b <;> simp [State.edgeIf]

@[simp] theorem setFlag_ackstat (s : State) : (setFlag s).ackstat = true := rfl
@[simp] theorem setFlag_enabledTopIRQ (s : State) : (setFlag s).enabledTopIRQ = s.enabledTopIRQ := rfl
@[simp] theorem setFlag_enabledEndpointIRQ (s : State) : (setFlag s).enabledEndpointIRQ = s.enabledEndpointIRQ := rfl
@[simp] theorem setFlag_role (s : State) : (setFlag s).role = s.role := rfl
@[simp] theorem setFlag_conn (s : State) : (setFlag s).conn = s.conn := rfl
@[simp] theorem setFlag_cb (s : State) : (setFlag s).cb = s.cb := rfl
@[simp] theorem setFlag_rxbuf (s : State) : (setFlag s).rxbuf = s.rxbuf := rfl
@[simp] theorem setFlag_bstate (s : State) : (setFlag s).bstate = s.bstate := rfl
@[simp] theorem setFlag_irqPend (s : State) : (setFlag s).irqPend = s.irqPend := rfl
@[simp] theorem setFlag_intArmed (s : State) : (setFlag s).intArmed = s.intArmed := rfl
@[simp] theorem setFlag_sel (s : State) : (setFlag s).sel = s.sel := rfl
@[simp] theorem setFlag_cfg (s : State) : (setFlag s).cfg = s.cfg := rfl
@[simp] theorem setFlag_chip (s : State) : (setFlag s).chip = s.chip := rfl
@[simp] theorem setFlag_collab (s : State) : (setFlag s).collab = s.collab := rfl
@[simp] theorem setFlag_sched (s : State) : (setFlag s).sched = s.sched := rfl
@[simp] theorem setFlag_midEdges (s : State) : (setFlag s).midEdges = s.midEdges := rfl
@[simp] theorem setFlag_trace (s : State) : (setFlag s).trace = s.trace := rfl
@[simp] theorem setFlag_results (s : State) : (setFlag s).results = s.results := rfl

@[simp] theorem clearShadow_ackstat (s : State) : (clearShadow s).ackstat = false := rfl
@[simp] theorem clearShadow_enabledTopIRQ (s : State) : (clearShadow s).enabledTopIRQ = 0x00 := rfl
@[simp] theorem clearShadow_enabledEndpointIRQ (s : State) : (clearShadow s).enabledEndpointIRQ = 0x00 := rfl
@[simp] theorem clearShadow_role (s : State) : (clearShadow s).role = s.role := rfl
@[simp] theorem clearShadow_conn (s : State) : (clearShadow s).conn = s.conn := rfl
@[simp] theorem clearShadow_cb (s : State) : (clearShadow s).cb = s.cb := rfl
@[simp] theorem clearShadow_rxbuf (s : State) : (clearShadow s).rxbuf = s.rxbuf := rfl
@[simp] theorem clearShadow_bstate (s : State) : (clearShadow s).bstate = s.bstate := rfl
@[simp] theorem clearShadow_irqPend (s : State) : (clearShadow s).irqPend = s.irqPend := rfl
@[simp] theorem clearShadow_intArmed (s : State) : (clearShadow s).intArmed = s.intArmed := rfl
@[simp] theorem clearShadow_sel (s : State) : (clearShadow s).sel = s.sel := rfl
@[simp] theorem clearShadow_cfg (s : State) : (clearShadow s).cfg = s.cfg := rfl
@[simp] theorem clearShadow_chip (s : State) : (clearShadow s).chip = s.chip := rfl
@[simp] theorem clearShadow_collab (s : State) : (clearShadow s).collab = s.collab := rfl
@[simp] theorem clearShadow_sched (s : State) : (clearShadow s).sched = s.sched := rfl
@[simp] theorem clearShadow_midEdges (s : State) : (clearShadow s).midEdges = s.midEdges := rfl
@[simp] theorem clearShadow_trace (s : State) : (clearShadow s).trace = s.trace := rfl
@[simp] theorem clearShadow_results (s : State) : (clearShadow s).results = s.results := rfl

@[simp] theorem retireHandler_ackstat (s : State) : (retireHandler s).ackstat = s.ackstat := rfl
@[simp] theorem retireHandler_enabledTopIRQ (s : State) : (retireHandler s).enabledTopIRQ = s.enabledTopIRQ := rfl
@[simp] theorem retireHandler_enabledEndpointIRQ (s : State) : (retireHandler s).enabledEndpointIRQ = s.enabledEndpointIRQ := rfl
@[simp] theorem retireHandler_role (s : State) : (retireHandler s).role = s.role := rfl
@[simp] theorem retireHandler_conn (s : State) : (retireHandler s).conn = s.conn := rfl
@[simp] theorem retireHandler_cb (s : State) : (retireHandler s).cb = s.cb := rfl
@[simp] theorem retireHandler_rxbuf (s : State) : (retireHandler s).rxbuf = s.rxbuf := rfl
@[simp] theorem retireHandler_bstate (s : State) : (retireHandler s).bstate = s.bstate := rfl
@[simp] theorem retireHandler_irqPend (s : State) : (retireHandler s).irqPend = s.irqPend := rfl
@[simp] theorem retireHandler_intArmed (s : State) : (retireHandler s).intArmed = s.intArmed := rfl
@[simp] theorem retireHandler_sel (s : State) : (retireHandler s).sel = clearLowest s.sel := rfl
@[simp] theorem retireHandler_cfg (s : State) : (retireHandler s).cfg = s.cfg := rfl
@[simp] theorem retireHandler_chip (s : State) : (retireHandler s).chip = s.chip := rfl
@[simp] theorem retireHandler_collab (s : State) : (retireHandler s).collab = s.collab := rfl
@[simp] theorem retireHandler_sched (s : State) : (retireHandler s).sched = s.sched := rfl
@[simp] theorem retireHandler_midEdges (s : State) : (retireHandler s).midEdges = s.midEdges := rfl
@[simp] theorem retireHandler_trace (s : State) : (retireHandler s).trace = s.trace := rfl
@[simp] theorem retireHandler_results (s : State) : (retireHandler s).results = s.results := rfl

end Sys2Proof.Machine
end

