-- ==== Sys2Proof/Laws/Bus.lean ====
section
/-! SUPPORT. What bus activity can do, said once: the closed form of exchanges, of a transaction, of a single access and of a
read-modify-write, for any chip. -/

namespace Sys2Proof.Machine

/-- What the chip answers is the head of its script, or the free oracle's. -/
theorem chipAnswer_eq (s : State) (out : Byte) : s.chipAnswer out = answerOf s.chip s.trace out := rfl

/-- One exchange: the first part of its result. -/
theorem xchg_fst (out : Byte) (s : State) : (xchg out s).1 = (s.chipAnswer out).miso := rfl

/-- One exchange: what it leaves behind. -/
theorem xchg_snd (out : Byte) (s : State) :
    (xchg out s).2 = { s with
      irqPend := s.irqPend || (s.intArmed && s.midEdges.headD false)
      chip := s.chip.tail
      midEdges := s.midEdges.tail
      trace := s.trace ++ [.x out (s.chipAnswer out).miso] } := by
  ext1 <;> simp [xchg]

/-- The edges of one exchange and of `n` more. -/
theorem any_take_succ (l : List Bool) (n : Nat) : (l.take (n + 1)).any id = (l.headD false || (l.tail.take n).any id) := by
  cases l with
  | nil => rw [List.take_nil, List.tail_nil, List.take_nil]; rfl
  | cons b l => rfl

/-- The closed form of a sequence of exchanges. -/
theorem xchgs_eq (outs : List Byte) (s : State) :
    xchgs outs s =
      (⟨(draws s.chip s.trace outs).filterMap (·.miso), (draws s.chip s.trace outs).all (·.miso.isSome)⟩,
        { s with
          irqPend := s.latchAfter (draws s.chip s.trace outs).length
          chip := s.chip.drop (draws s.chip s.trace outs).length
          midEdges := s.midEdges.drop (draws s.chip s.trace outs).length
          trace := s.trace ++ List.zipWith (fun o u => Event.x o u.miso) outs (draws s.chip s.trace outs) }) := by
  induction outs generalizing s with
  | nil => simp [xchgs, draws, State.latchAfter]
  | cons o os ih =>
    have hx : xchg o s = ((s.chipAnswer o).miso, (xchg o s).2) := rfl
    have hd : draws s.chip s.trace (o :: os) =
        if (s.chipAnswer o).miso.isSome then
          s.chipAnswer o :: draws s.chip.tail (s.trace ++ [.x o (s.chipAnswer o).miso]) os
        else [s.chipAnswer o] := rfl
    rw [hd, xchgs, hx]
    cases h : (s.chipAnswer o).miso with
    | none => simp [h, xchg_snd, State.latchAfter, List.drop_one, any_take_succ s.midEdges 0]
    | some b =>
      simp only [Option.isSome_some, if_true, ih]
      rw [xchg_snd]
      simp [h, State.latchAfter, any_take_succ, Bool.and_or_distrib_left, Bool.or_assoc]

/-- The closed form of one transaction (R54 to R57): the data it gives, and `State.afterBus`. -/
theorem transaction_eq (a : Addr) (d : Dir) (datas : List Byte) (s : State) :
    transaction a d datas s =
      (⟨s.busData (cmdByte a d s.ackstat :: datas), s.busOk (cmdByte a d s.ackstat :: datas)⟩,
        s.afterBus (cmdByte a d s.ackstat :: datas)) := by
  simp only [transaction, exchangeSequence, buildCmd, xchgs_eq, emit_chip, emit_trace]
  simp only [State.busData, State.busOk, State.drawn, Prod.mk.injEq, true_and]
  ext1 <;> simp [State.afterBus, busEvents, State.latchAfter, State.drawn]

theorem memRead_eq (a : Addr) (n : Nat) (s : State) :
    memRead a n s = (⟨s.busData (s.readBytes a n), s.busOk (s.readBytes a n)⟩, s.afterBus (s.readBytes a n)) :=
  transaction_eq a .read _ s

theorem memWrite_eq (a : Addr) (vs : List Byte) (s : State) :
    memWrite a vs s = (⟨s.busData (s.writeBytes a vs), s.busOk (s.writeBytes a vs)⟩, s.afterBus (s.writeBytes a vs)) :=
  transaction_eq a .write vs s

/-- A sequence of exchanges that all succeed draws one answer per byte. -/
theorem draws_length (script : List ChipAnswer) (h : List Event) (outs : List Byte)
    (hok : (draws script h outs).all (·.miso.isSome) = true) : (draws script h outs).length = outs.length := by
  induction outs generalizing script h with
  | nil => simp [draws]
  | cons o os ih =>
    unfold draws at hok ⊢
    cases hs : (answerOf script h o).miso.isSome with
    | false => simp [hs] at hok
    | true =>
      simp only [hs, if_true, List.all_cons, Bool.and_eq_true] at hok ⊢
      simp [ih _ _ hok.2]

theorem filterMap_miso_length (us : List ChipAnswer) (h : us.all (·.miso.isSome) = true) :
    (us.filterMap (·.miso)).length = us.length := by
  induction us with
  | nil => rfl
  | cons u us ih =>
    simp only [List.all_cons, Bool.and_eq_true] at h
    obtain ⟨b, hb⟩ := Option.isSome_iff_exists.mp h.1
    simp [hb, ih h.2]

/-- A transaction that goes through gives one byte per data byte sent. -/
theorem busData_length {s : State} {c : Byte} {datas : List Byte} (h : s.busOk (c :: datas) = true) :
    (s.busData (c :: datas)).length = datas.length := by
  unfold State.busOk State.drawn at h
  simp [State.busData, State.drawn, filterMap_miso_length _ h, draws_length _ _ _ h]

theorem draws_length_le (script : List ChipAnswer) (h : List Event) (outs : List Byte) :
    (draws script h outs).length ≤ outs.length := by
  induction outs generalizing script h with
  | nil => exact Nat.le_refl 0
  | cons o os ih =>
    unfold draws
    split
    · exact Nat.succ_le_succ (ih _ _)
    · exact Nat.succ_le_succ (Nat.zero_le _)

/-- A transaction gives at most one byte per data byte. -/
theorem busData_le (s : State) (c : Byte) (datas : List Byte) : (s.busData (c :: datas)).length ≤ datas.length := by
  have h1 := List.length_filterMap_le (fun u : ChipAnswer => u.miso) (s.drawn (c :: datas))
  have h2 := draws_length_le s.chip (s.trace ++ [.ss false]) (c :: datas)
  simp only [State.busData, List.length_tail]
  simp only [State.drawn, List.length_cons] at h1 h2 ⊢
  omega

theorem single_eq {s : State} {c d : Byte} :
    (⟨s.busData [c, d], s.busOk [c, d]⟩ : Xfer).single =
      if s.busOk [c, d] then .ok ((s.busData [c, d]).headD 0) else .fault .transportError := by
  cases h : s.busOk [c, d] with
  | false =>
    rw [if_neg (by simp)]
    rcases s.busData [c, d] with _ | ⟨b, bs⟩ <;> rfl
  | true =>
    have hl := busData_length h
    rcases hb : s.busData [c, d] with _ | ⟨b, bs⟩
    · simp [hb] at hl
    · rfl

/-- The closed form of a single read (R111). -/
theorem readReg_eq (a : Addr) (s : State) :
    readReg a s = (if s.busOk (s.readBytes a 1) then .ok (s.readByte a) else .fault .transportError,
      s.afterBus (s.readBytes a 1)) := by
  simp only [readReg, memRead_eq]
  exact Prod.ext single_eq rfl

/-- The closed form of a single write (R112). -/
theorem writeReg_eq (a : Addr) (v : Byte) (s : State) :
    writeReg a v s = (if s.busOk (s.writeBytes a [v]) then .ok ((s.busData (s.writeBytes a [v])).headD 0)
      else .fault .transportError, s.afterBus (s.writeBytes a [v])) := by
  simp only [writeReg, memWrite_eq]
  exact Prod.ext single_eq rfl

/-- What bus activity makes of success: `OK`, or `TransportError`. -/
def busRes (ok : Bool) : Res Unit := if ok then .ok () else .fault .transportError

@[simp] theorem busRes_code (ok : Bool) : (busRes ok).code = busCode ok := by cases ok <;> rfl

@[simp] theorem xfer_done (x : Xfer) : x.done = busRes x.ok := rfl

/-- The closed form of a single write whose data is discarded. -/
theorem writeReg_done (a : Addr) (v : Byte) (s : State) :
    (writeReg a v s).1.done = busRes (s.busOk (s.writeBytes a [v])) := by
  rw [writeReg_eq]
  cases s.busOk (s.writeBytes a [v]) <;> rfl

/-- The closed form of a read-modify-write (R117, R118). -/
theorem rmw_eq (f : Byte → Byte) (a : Addr) (s : State) : rmw f a s = (busRes (s.rmwOk a f), s.afterRmw a f) := by
  simp only [rmw, readReg_eq, State.rmwOk, State.afterRmw]
  cases s.busOk (s.readBytes a 1) with
  | false => rfl
  | true =>
    simp only [if_true, Bool.true_and, writeReg_eq]
    cases (s.afterBus (s.readBytes a 1)).busOk ((s.afterBus (s.readBytes a 1)).writeBytes a [f (s.readByte a)]) <;> rfl

theorem enableOpts_eq (a : Addr) (bits : Byte) (s : State) :
    enableOpts a bits s = (busRes (s.rmwOk a (setBits · bits)), s.afterRmw a (setBits · bits)) := rmw_eq _ a s

theorem disableOpts_eq (a : Addr) (bits : Byte) (s : State) :
    disableOpts a bits s = (busRes (s.rmwOk a (clearBits · bits)), s.afterRmw a (clearBits · bits)) := rmw_eq _ a s

end Sys2Proof.Machine
end

