-- ==== Sys2Proof/Laws/Frames.lean ====
section
/-! SUPPORT. What each shared operation may change, said once: `BusStep` for bus activity and logging, `CallStep` where collaborators or
the shadow masks come in; and that every shared operation is one of the two. -/

namespace Sys2Proof.Machine

/-! ## Reading a trace in pieces -/

theorem busRun_append (p : BusPhase) (es fs : List Event) :
    busRun p (es ++ fs) = (busRun p es).bind fun q => busRun q fs := by
  induction es generalizing p with
  | nil => rfl
  | cons e es ih =>
    simp only [List.cons_append, busRun]
    cases busNext p e with
    | none => rfl
    | some q => exact ih q

theorem notifications_append (es fs : List Event) : notifications (es ++ fs) = notifications es ++ notifications fs := by
  induction es with
  | nil => rfl
  | cons e es ih => cases e <;> simp [notifications, ih]

theorem busRun_cons {p q : BusPhase} {e : Event} (h : busNext p e = some q) (es : List Event) :
    busRun p (e :: es) = busRun q es := by
  simp only [busRun, h]

/-- One exchange of a data phase. -/
theorem busNext_data {wr : Bool} {o : Byte} (ho : (wr || o == 0) = true) (inn : Option Byte) :
    busNext (.data wr) (.x o inn) = some (if inn.isSome then .data wr else .broken) := by
  simp only [busNext, nextData, ho, if_true]
  split <;> rfl

/-- The exchange of the command byte. -/
theorem busNext_opened {c : Byte} (hc : cmdBit2 c = false) (inn : Option Byte) :
    busNext .opened (.x c inn) = some (if inn.isSome then .data (cmdIsWrite c) else .broken) := by
  simp only [busNext, nextOpened, hc, Bool.false_eq_true, if_false]
  split <;> rfl

/-- The exchanges of a data phase, read: it stays a data phase, or breaks off at the fault. -/
theorem busRun_data (wr : Bool) (outs : List Byte) (hz : wr = true ∨ ∀ o ∈ outs, o = 0) (script : List ChipAnswer)
    (h : List Event) :
    busRun (.data wr) (List.zipWith (fun o u => Event.x o u.miso) outs (draws script h outs) ++ [.ss true]) =
      some .idle := by
  induction outs generalizing script h with
  | nil => rfl
  | cons o os ih =>
    have ho : (wr || o == 0) = true := by
      rcases hz with hz | hz
      · simp [hz]
      · simp [hz o (by simp)]
    unfold draws
    cases hm : (answerOf script h o).miso with
    | none =>
      simp only [Option.isSome_none, Bool.false_eq_true, if_false, List.zipWith_cons_cons, List.zipWith_nil_right,
        List.cons_append, hm]
      exact busRun_cons (busNext_data ho none) _
    | some b =>
      simp only [Option.isSome_some, if_true, List.zipWith_cons_cons, List.cons_append, hm]
      rw [busRun_cons (busNext_data ho (some b))]
      exact ih (hz.imp id fun hz o' ho' => hz o' (by simp [ho'])) _ _

/-- One transaction, read: whole, whatever the chip answers (R54). -/
theorem busRun_transaction (c : Byte) (datas : List Byte) (hc : cmdBit2 c = false)
    (hz : cmdIsWrite c = true ∨ ∀ o ∈ datas, o = 0) (script : List ChipAnswer) (h : List Event) :
    busRun .idle (busEvents (c :: datas) (draws script h (c :: datas))) = some .idle := by
  unfold busEvents draws
  cases hm : (answerOf script h c).miso with
  | none =>
    simp only [Option.isSome_none, Bool.false_eq_true, if_false, List.zipWith_cons_cons, List.zipWith_nil_right,
      List.cons_append, List.nil_append, hm]
    rw [busRun_cons (q := .opened) rfl]
    exact busRun_cons (busNext_opened hc none) _
  | some b =>
    simp only [Option.isSome_some, if_true, List.zipWith_cons_cons, List.cons_append, List.nil_append, hm]
    rw [busRun_cons (q := .opened) rfl, busRun_cons (busNext_opened hc (some b))]
    exact busRun_data _ _ hz _ _

theorem notifications_busEvents (outs : List Byte) (us : List ChipAnswer) : notifications (busEvents outs us) = [] := by
  have : notifications (List.zipWith (fun o u => Event.x o u.miso) outs us) = [] := by
    induction outs generalizing us with
    | nil => rfl
    | cons o os ih => cases us with
      | nil => rfl
      | cons u us => simp [notifications, ih]
  simp [busEvents, notifications_append, this, notifications]

/-! ## The edges inside exchanges -/

theorem exchanges_append (es fs : List Event) : exchanges (es ++ fs) = exchanges es + exchanges fs := by
  induction es with
  | nil => simp [exchanges]
  | cons e es ih => cases e <;> simp [exchanges, ih, Nat.add_right_comm]

/-- A transaction has one exchange for each answer drawn. -/
theorem exchanges_busEvents (outs : List Byte) (us : List ChipAnswer) (h : us.length ≤ outs.length) :
    exchanges (busEvents outs us) = us.length := by
  have : exchanges (List.zipWith (fun o u => Event.x o u.miso) outs us) = us.length := by
    induction us generalizing outs with
    | nil => cases outs <;> rfl
    | cons u us ih =>
      cases outs with
      | nil => simp at h
      | cons o os => simp [exchanges, ih os (by simpa using h)]
  simp [busEvents, exchanges_append, exchanges, this]

/-- No exchange. -/
theorem EdgesTaken.none {s t : State} (hm : t.midEdges = s.midEdges) (hp : t.irqPend = s.irqPend) : EdgesTaken 0 s t :=
  ⟨hm, by rw [hp, List.take_zero]; simp⟩

theorem EdgesTaken.trans {m n : Nat} {s t u : State} (ha : u.intArmed = t.intArmed) (h1 : EdgesTaken m s t)
    (h2 : EdgesTaken n t u) : EdgesTaken (m + n) s u := by
  refine ⟨by rw [h2.1, h1.1, List.drop_drop], ?_⟩
  rw [h2.2, h1.2, h1.1, ha, List.take_add, List.any_append, Bool.and_or_distrib_left, Bool.or_assoc]

theorem EdgesTaken.latch {n : Nat} {s t : State} (ha : t.intArmed = s.intArmed) (h : EdgesTaken n s t) : LatchRule s t := by
  refine ⟨fun hp => by rw [h.2, hp, Bool.true_or], fun hp => ?_⟩
  rw [h.2, Bool.or_eq_true, Bool.and_eq_true, ha] at hp
  exact hp.imp id And.left

/-- What exchanges can do to the edges still placed and to the latch: an edge caught is an edge consumed. -/
theorem EdgesTaken.budget {n : Nat} {s t : State} (h : EdgesTaken n s t) :
    6 * t.midEdges.count true + (if t.irqPend then 5 else 0) ≤ 6 * s.midEdges.count true + (if s.irqPend then 5 else 0) := by
  have hc : s.midEdges.count true = (s.midEdges.take n).count true + (s.midEdges.drop n).count true := by
    rw [← List.count_append, List.take_append_drop]
  rw [h.1, hc, h.2]
  cases hp : s.irqPend with
  | true => simp
  | false =>
    cases ha : (s.midEdges.take n).any id with
    | false => simp
    | true =>
      have hm : 0 < (s.midEdges.take n).count true := by
        obtain ⟨b, hb, ht⟩ := List.any_eq_true.mp ha
        exact List.count_pos_iff.mpr (ht ▸ hb)
      simp only [Bool.false_or, Bool.and_true, Bool.false_eq_true, if_false]
      split <;> omega

/-! ## Bus activity -/

/-- What bus activity and logging do: only `ACKSTAT`, the latch, the chip's script, the edges placed and the trace change; whole transactions
(and no notification) are appended, and the edges placed in their exchanges are taken. -/
structure BusStep (s t : State) : Prop where
  frame : BusFrame s t
  grows : ∃ evs, t.trace = s.trace ++ evs ∧ busRun .idle evs = some .idle ∧ notifications evs = [] ∧
    EdgesTaken (exchanges evs) s t

theorem BusStep.latch {s t : State} (h : BusStep s t) : LatchRule s t :=
  have ⟨_, _, _, _, he⟩ := h.grows
  he.latch h.frame.intArmed

theorem BusFrame.refl (s : State) : BusFrame s s := ⟨rfl, rfl, rfl, rfl, rfl, rfl, rfl, rfl, rfl, rfl, rfl, rfl, rfl⟩

theorem BusFrame.trans {s t u : State} (h1 : BusFrame s t) (h2 : BusFrame t u) : BusFrame s u where
  enabledTopIRQ := h2.enabledTopIRQ.trans h1.enabledTopIRQ
  enabledEndpointIRQ := h2.enabledEndpointIRQ.trans h1.enabledEndpointIRQ
  role := h2.role.trans h1.role
  conn := h2.conn.trans h1.conn
  cb := h2.cb.trans h1.cb
  rxbuf := h2.rxbuf.trans h1.rxbuf
  bstate := h2.bstate.trans h1.bstate
  intArmed := h2.intArmed.trans h1.intArmed
  sel := h2.sel.trans h1.sel
  cfg := h2.cfg.trans h1.cfg
  collab := h2.collab.trans h1.collab
  sched := h2.sched.trans h1.sched
  results := h2.results.trans h1.results

theorem BusStep.trans {s t u : State} (h1 : BusStep s t) (h2 : BusStep t u) : BusStep s u := by
  obtain ⟨es, he, hr, hn, hx⟩ := h1.grows
  obtain ⟨fs, hf, hr', hn', hx'⟩ := h2.grows
  exact ⟨h1.frame.trans h2.frame, es ++ fs, by rw [hf, he, List.append_assoc], by simp [busRun_append, hr, hr'],
    by simp [notifications_append, hn, hn'], exchanges_append es fs ▸ hx.trans h2.frame.intArmed hx'⟩

/-- Events that are no exchange are recorded, and the flag may be another. -/
theorem busStep_quiet (s : State) (flag : Bool) (evs : List Event) (h : busRun .idle evs = some .idle)
    (hn : notifications evs = []) (hx : exchanges evs = 0) : BusStep s { s with ackstat := flag, trace := s.trace ++ evs } :=
  ⟨⟨rfl, rfl, rfl, rfl, rfl, rfl, rfl, rfl, rfl, rfl, rfl, rfl, rfl⟩, evs, rfl, h, hn, hx ▸ .none rfl rfl⟩

theorem BusStep.refl (s : State) : BusStep s s :=
  ⟨.refl s, [], (List.append_nil _).symm, rfl, rfl, .none rfl rfl⟩

theorem busStep_emit (s : State) (e : Event) (h : busRun .idle [e] = some .idle) (hn : notifications [e] = [])
    (hx : exchanges [e] = 0) : BusStep s (s.emit e) :=
  busStep_quiet s s.ackstat [e] h hn hx

theorem busStep_delay (s : State) (d : DelayName) : BusStep s (s.delay d) := busStep_emit s _ rfl rfl rfl

theorem busStep_log (s : State) (e : LogEvent) : BusStep s (s.emit (.log e)) := busStep_emit s _ rfl rfl rfl

theorem busStep_logFault (s : State) (k : FaultKind) : BusStep s (s.logFault k) := busStep_log s _

theorem busStep_setFlag (s : State) : BusStep s (setFlag s) :=
  ⟨⟨rfl, rfl, rfl, rfl, rfl, rfl, rfl, rfl, rfl, rfl, rfl, rfl, rfl⟩, [], (List.append_nil _).symm, rfl, rfl, .none rfl rfl⟩

theorem busStep_afterBus (s : State) (c : Byte) (datas : List Byte) (hc : cmdBit2 c = false)
    (hz : cmdIsWrite c = true ∨ ∀ o ∈ datas, o = 0) : BusStep s (s.afterBus (c :: datas)) := by
  refine ⟨⟨rfl, rfl, rfl, rfl, rfl, rfl, rfl, rfl, rfl, rfl, rfl, rfl, rfl⟩, _, rfl,
    busRun_transaction c datas hc hz _ _, notifications_busEvents _ _, ?_⟩
  rw [exchanges_busEvents (c :: datas) (s.drawn (c :: datas)) (draws_length_le _ _ _)]
  exact ⟨rfl, rfl⟩

theorem busStep_read (s : State) (a : Addr) (n : Nat) : BusStep s (s.afterBus (s.readBytes a n)) :=
  busStep_afterBus s _ _ (by simp) (.inr fun o ho => (List.mem_replicate.mp ho).2)

theorem busStep_write (s : State) (a : Addr) (vs : List Byte) : BusStep s (s.afterBus (s.writeBytes a vs)) :=
  busStep_afterBus s _ _ (by simp) (.inl (by simp))

theorem busStep_memRead (a : Addr) (n : Nat) (s : State) : BusStep s (memRead a n s).2 := by
  rw [memRead_eq]
  exact busStep_read s a n

theorem busStep_memWrite (a : Addr) (vs : List Byte) (s : State) : BusStep s (memWrite a vs s).2 := by
  rw [memWrite_eq]
  exact busStep_write s a vs

theorem busStep_readReg (a : Addr) (s : State) : BusStep s (readReg a s).2 := by
  rw [readReg_eq]
  exact busStep_read s a 1

theorem busStep_writeReg (a : Addr) (v : Byte) (s : State) : BusStep s (writeReg a v s).2 := by
  rw [writeReg_eq]
  exact busStep_write s a [v]

theorem busStep_readRegAS (a : Addr) (s : State) : BusStep s (readRegAS a s).2 :=
  (busStep_setFlag s).trans (busStep_readReg a _)

theorem busStep_writeRegAS (a : Addr) (v : Byte) (s : State) : BusStep s (writeRegAS a v s).2 :=
  (busStep_setFlag s).trans (busStep_writeReg a v _)

theorem busStep_afterRmw (s : State) (a : Addr) (f : Byte → Byte) : BusStep s (s.afterRmw a f) := by
  unfold State.afterRmw
  split
  · exact (busStep_read s a 1).trans (busStep_write _ a _)
  · exact busStep_read s a 1

theorem busStep_enableOpts (a : Addr) (bits : Byte) (s : State) : BusStep s (enableOpts a bits s).2 := by
  rw [enableOpts_eq]
  exact busStep_afterRmw s a (setBits · bits)

theorem busStep_disableOpts (a : Addr) (bits : Byte) (s : State) : BusStep s (disableOpts a bits s).2 := by
  rw [disableOpts_eq]
  exact busStep_afterRmw s a (clearBits · bits)

theorem busStep_burstRead (a : Addr) (n : Nat) (s : State) : BusStep s (burstRead a n s).2 := by
  unfold burstRead
  split
  · exact busStep_memRead a n s
  · exact .refl s

theorem busStep_burstWrite (a : Addr) (vs : List Byte) (s : State) : BusStep s (burstWrite a vs s).2 := by
  unfold burstWrite
  split
  · exact busStep_memWrite a vs s
  · exact .refl s

theorem busStep_clearTop (bits : Byte) (s : State) : BusStep s (clearTop bits s).2 := by
  unfold clearTop
  split
  · exact .refl s
  · exact busStep_writeReg _ _ s

theorem busStep_clearEp (bits : Byte) (s : State) : BusStep s (clearEp bits s).2 := by
  unfold clearEp
  split
  · exact .refl s
  · exact .refl s
  · exact busStep_writeReg _ _ s

theorem busStep_statusTop (s : State) : BusStep s (statusTop s).2 := by
  unfold statusTop
  split
  · exact .refl s
  · exact busStep_readReg _ s

theorem busStep_statusEp (s : State) : BusStep s (statusEp s).2 := by
  unfold statusEp
  split
  · exact .refl s
  · exact .refl s
  · exact busStep_readReg _ s

theorem busStep_gateOn (s : State) : BusStep s (gateOn s).2 := by
  unfold gateOn
  split
  · exact .refl s
  · exact busStep_enableOpts _ _ s

theorem busStep_gateOff (s : State) : BusStep s (gateOff s).2 := by
  unfold gateOff
  split
  · exact .refl s
  · exact busStep_disableOpts _ _ s

theorem busStep_poll (a : Addr) (hit : Byte → Bool) (miss : State → State) (hm : ∀ s, BusStep s (miss s)) (cap : Nat)
    (s : State) : BusStep s (poll a hit miss cap s).2 := by
  induction cap generalizing s with
  | zero => exact .refl s
  | succ cap ih =>
    have hr := busStep_readReg a s
    unfold poll
    rcases h : readReg a s with ⟨_ | _ | _, s1⟩ <;> rw [h] at hr
    · dsimp only
      split
      · exact hr
      · exact (hr.trans (hm _)).trans (ih _)
    · exact hr
    · exact hr

/-! ## Calls and shadow masks -/

/-- What calls and the shadow operations do: also the masks and the collaborators' script may change (the endpoint mask only in
Peripheral role), and the notifications appended are the given ones. -/
structure CallStep (ns : List (CallbackRef × Bool)) (s t : State) : Prop where
  frame : CallFrame s t
  endpoint : s.role ≠ .peripheral → t.enabledEndpointIRQ = s.enabledEndpointIRQ
  grows : ∃ evs, t.trace = s.trace ++ evs ∧ busRun .idle evs = some .idle ∧ notifications evs = ns ∧
    EdgesTaken (exchanges evs) s t

theorem CallStep.latch {ns : List (CallbackRef × Bool)} {s t : State} (h : CallStep ns s t) : LatchRule s t :=
  have ⟨_, _, _, _, he⟩ := h.grows
  he.latch h.frame.intArmed

theorem CallFrame.trans {s t u : State} (h1 : CallFrame s t) (h2 : CallFrame t u) : CallFrame s u where
  role := h2.role.trans h1.role
  conn := h2.conn.trans h1.conn
  cb := h2.cb.trans h1.cb
  rxbuf := h2.rxbuf.trans h1.rxbuf
  bstate := h2.bstate.trans h1.bstate
  intArmed := h2.intArmed.trans h1.intArmed
  sel := h2.sel.trans h1.sel
  cfg := h2.cfg.trans h1.cfg
  sched := h2.sched.trans h1.sched
  results := h2.results.trans h1.results

theorem BusFrame.toCall {s t : State} (h : BusFrame s t) : CallFrame s t where
  role := h.role
  conn := h.conn
  cb := h.cb
  rxbuf := h.rxbuf
  bstate := h.bstate
  intArmed := h.intArmed
  sel := h.sel
  cfg := h.cfg
  sched := h.sched
  results := h.results

theorem BusStep.toCall {s t : State} (h : BusStep s t) : CallStep [] s t :=
  ⟨h.frame.toCall, fun _ => h.frame.enabledEndpointIRQ, h.grows⟩

theorem CallStep.refl (s : State) : CallStep [] s s := (BusStep.refl s).toCall

theorem CallStep.trans {ns ms : List (CallbackRef × Bool)} {s t u : State} (h1 : CallStep ns s t) (h2 : CallStep ms t u) :
    CallStep (ns ++ ms) s u := by
  refine ⟨h1.frame.trans h2.frame, fun h => ?_, ?_⟩
  · rw [h2.endpoint (by rw [h1.frame.role]; exact h), h1.endpoint h]
  · obtain ⟨es, he, hr, hn, hx⟩ := h1.grows
    obtain ⟨fs, hf, hr', hn', hx'⟩ := h2.grows
    exact ⟨es ++ fs, by rw [hf, he, List.append_assoc], by simp [busRun_append, hr, hr'],
      by simp [notifications_append, hn, hn'], exchanges_append es fs ▸ hx.trans h2.frame.intArmed hx'⟩

theorem BusStep.topMask {s t : State} (h : BusStep s t) (m : Byte) : CallStep [] s { t with enabledTopIRQ := m } :=
  ⟨{ h.frame.toCall with }, fun _ => h.frame.enabledEndpointIRQ, h.grows⟩

theorem BusStep.epMask {s t : State} (h : BusStep s t) (hp : s.role = .peripheral) (m : Byte) :
    CallStep [] s { t with enabledEndpointIRQ := m } :=
  ⟨{ h.frame.toCall with }, fun hn => absurd hp hn, h.grows⟩

theorem callStep_enableTop (bits : Byte) (s : State) : CallStep [] s (enableTop bits s).2 := by
  unfold enableTop
  split
  · exact .refl s
  · exact (busStep_enableOpts _ bits s).topMask _

theorem callStep_disableTop (bits : Byte) (s : State) : CallStep [] s (disableTop bits s).2 := by
  unfold disableTop
  split
  · exact .refl s
  · exact (busStep_disableOpts _ bits s).topMask _

theorem callStep_enableEp (bits : Byte) (s : State) : CallStep [] s (enableEp bits s).2 := by
  unfold enableEp
  split
  · exact .refl s
  · exact .refl s
  · rename_i h
    exact (busStep_enableOpts _ bits s).epMask h _

theorem callStep_disableEp (bits : Byte) (s : State) : CallStep [] s (disableEp bits s).2 := by
  unfold disableEp
  split
  · exact .refl s
  · exact .refl s
  · rename_i h
    exact (busStep_disableOpts _ bits s).epMask h _

theorem callStep_runNested (o : CollabOp) (s : State) : CallStep [] s (runNested o s) := by
  cases o with
  | readRegister a => exact (busStep_readReg a s).toCall
  | writeRegister a v => exact (busStep_writeReg a v s).toCall
  | readRegisterAS a => exact (busStep_readRegAS a s).toCall
  | writeRegisterAS a v => exact (busStep_writeRegAS a v s).toCall
  | multiReadRegister a n => exact (busStep_burstRead a _ s).toCall
  | multiWriteRegister a vs => exact (busStep_burstWrite a vs s).toCall
  | enableOptions a bits => exact (busStep_enableOpts a bits s).toCall
  | disableOptions a bits => exact (busStep_disableOpts a bits s).toCall
  | setAckstat => exact (busStep_setFlag s).toCall
  | enableInterrupts bits => exact callStep_enableTop bits s
  | disableInterrupts bits => exact callStep_disableTop bits s
  | enableEndpointInterrupts bits => exact callStep_enableEp bits s
  | disableEndpointInterrupts bits => exact callStep_disableEp bits s
  | clearInterruptStatus bits => exact (busStep_clearTop bits s).toCall
  | clearEndpointInterruptStatus bits => exact (busStep_clearEp bits s).toCall
  | getEnabledInterruptStatus => exact (busStep_statusTop s).toCall
  | getEnabledEndpointInterruptStatus => exact (busStep_statusEp s).toCall
  | masterEnable => exact (busStep_gateOn s).toCall
  | masterDisable => exact (busStep_gateOff s).toCall

theorem callStep_runAll (os : List CollabOp) (s : State) : CallStep [] s (runAll os s) := by
  induction os generalizing s with
  | nil => exact .refl s
  | cons o os ih => exact (callStep_runNested o s).trans (ih _)

/-- A call: the event, then whatever the callee does with the register and shadow operations (R228, R229). -/
theorem callStep_callOut (e : Event) (s : State) (he : busRun .idle [e] = some .idle) (hx : exchanges [e] = 0) :
    CallStep (notifications [e]) s (callOut e s).2 := by
  have h1 : CallStep (notifications [e]) s { s.emit e with collab := s.collab.tail } :=
    ⟨⟨rfl, rfl, rfl, rfl, rfl, rfl, rfl, rfl, rfl, rfl⟩, fun _ => rfl, [e], rfl, he, rfl, hx ▸ .none rfl rfl⟩
  have h2 := callStep_runAll ((s.emit e).collabAnswer).ops { s.emit e with collab := s.collab.tail }
  have := h1.trans h2
  rw [List.append_nil] at this
  exact this

end Sys2Proof.Machine
end

