-- ==== Sys2Proof/Laws/Ops.lean ====
section
/-! SUPPORT. Closed forms of the shared operations above the bus: the shadow masks, the status reads, the gate, the polls, the writes of
the reset sequence, the snapshot; one lemma for each. -/

namespace Sys2Proof.Machine

/-! ## Bursts -/

theorem burstAllowed_iff (c : Cfg) (n : Nat) : burstAllowed c n = true ↔ n ≤ c.maxBurst := Iff.of_eq Nat.ble_eq

theorem burstRead_eq (a : Addr) (n : Nat) (s : State) :
    burstRead a n s = if n ≤ s.cfg.maxBurst then
      ((busRes (s.busOk (s.readBytes a n)), s.busData (s.readBytes a n)), s.afterBus (s.readBytes a n))
    else ((.refused, []), s) := by
  unfold burstRead
  by_cases h : n ≤ s.cfg.maxBurst
  · rw [if_pos h, if_pos ((burstAllowed_iff _ _).mpr h), memRead_eq]; rfl
  · rw [if_neg h, if_neg (fun hb => h ((burstAllowed_iff _ _).mp hb))]

theorem burstWrite_eq (a : Addr) (vs : List Byte) (s : State) :
    burstWrite a vs s = if vs.length ≤ s.cfg.maxBurst then
      (busRes (s.busOk (s.writeBytes a vs)), s.afterBus (s.writeBytes a vs))
    else (.refused, s) := by
  unfold burstWrite
  by_cases h : vs.length ≤ s.cfg.maxBurst
  · rw [if_pos h, if_pos ((burstAllowed_iff _ _).mpr h), memWrite_eq]; rfl
  · rw [if_neg h, if_neg (fun hb => h ((burstAllowed_iff _ _).mp hb))]

theorem rawTransaction_eq (a : Addr) (d : Dir) (flag : Bool) (datas : List Byte) (s : State) :
    rawTransaction a d flag datas s = if datas.length ≤ s.cfg.maxBurst then
      (s.afterBus (cmdByte a d flag :: datas)).answer
        ⟨busCode (s.busOk (cmdByte a d flag :: datas)), s.busData (cmdByte a d flag :: datas)⟩
    else answerRefused s := by
  unfold rawTransaction
  by_cases h : datas.length ≤ s.cfg.maxBurst
  · rw [if_pos h, if_pos ((burstAllowed_iff _ _).mpr h), transaction_eq]
    dsimp only
    rw [xfer_done, busRes_code]
    rfl
  · rw [if_neg h, if_neg (fun hb => h ((burstAllowed_iff _ _).mp hb))]

/-! ## Interrupt shadow state -/

theorem enableTop_eq {a : Addr} {s : State} (h : topIen s.cfg s.role = some a) (bits : Byte) :
    enableTop bits s = (busRes (s.rmwOk a (· ||| bits)),
      { s.afterRmw a (· ||| bits) with enabledTopIRQ := s.enabledTopIRQ ||| bits }) := by
  simp only [enableTop, h, enableOpts_eq, setBits, (busStep_afterRmw s a _).frame.enabledTopIRQ]

theorem disableTop_eq {a : Addr} {s : State} (h : topIen s.cfg s.role = some a) (bits : Byte) :
    disableTop bits s = (busRes (s.rmwOk a (· &&& ~~~bits)),
      { s.afterRmw a (· &&& ~~~bits) with enabledTopIRQ := s.enabledTopIRQ &&& ~~~bits }) := by
  simp only [disableTop, h, disableOpts_eq, clearBits, (busStep_afterRmw s a _).frame.enabledTopIRQ]

theorem enableEp_eq {s : State} (h : s.role = .peripheral) (bits : Byte) :
    enableEp bits s = (busRes (s.rmwOk s.cfg.periph.epIen (· ||| bits)),
      { s.afterRmw s.cfg.periph.epIen (· ||| bits) with enabledEndpointIRQ := s.enabledEndpointIRQ ||| bits }) := by
  simp only [enableEp, h, enableOpts_eq, setBits, (busStep_afterRmw s _ _).frame.enabledEndpointIRQ]

theorem disableEp_eq {s : State} (h : s.role = .peripheral) (bits : Byte) :
    disableEp bits s = (busRes (s.rmwOk s.cfg.periph.epIen (· &&& ~~~bits)),
      { s.afterRmw s.cfg.periph.epIen (· &&& ~~~bits) with
        enabledEndpointIRQ := s.enabledEndpointIRQ &&& ~~~bits }) := by
  simp only [disableEp, h, disableOpts_eq, clearBits, (busStep_afterRmw s _ _).frame.enabledEndpointIRQ]

theorem clearTop_eq {a : Addr} {s : State} (h : topIrq s.cfg s.role = some a) (bits : Byte) :
    clearTop bits s = (busRes (s.writeOk a bits), s.afterWrite a bits) := by
  simp only [clearTop, h, writeReg_eq, State.afterWrite, State.writeOk]
  cases s.busOk (s.writeBytes a [bits]) <;> rfl

theorem clearEp_eq {s : State} (h : s.role = .peripheral) (bits : Byte) :
    clearEp bits s = (busRes (s.writeOk s.cfg.periph.epIrq bits), s.afterWrite s.cfg.periph.epIrq bits) := by
  simp only [clearEp, h, writeReg_eq, State.afterWrite, State.writeOk]
  cases s.busOk (s.writeBytes s.cfg.periph.epIrq [bits]) <;> rfl

theorem statusTop_eq {a : Addr} {s : State} (h : topIrq s.cfg s.role = some a) :
    statusTop s = (if s.readOk a then .ok (s.readByte a &&& s.enabledTopIRQ) else .fault .transportError,
      s.afterRead a) := by
  simp only [statusTop, h, readReg_eq, State.afterRead, State.readOk, enabledStatus]
  split <;> rename_i hb <;> simp only [hb] <;> rfl

theorem statusEp_eq {s : State} (h : s.role = .peripheral) :
    statusEp s = (if s.readOk s.cfg.periph.epIrq then .ok (s.readByte s.cfg.periph.epIrq &&& s.enabledEndpointIRQ)
      else .fault .transportError, s.afterRead s.cfg.periph.epIrq) := by
  simp only [statusEp, h, readReg_eq, State.afterRead, State.readOk, enabledStatus]
  split <;> rename_i hb <;> simp only [hb] <;> rfl

theorem gateOn_eq {a : Addr} {s : State} (h : gateReg s.cfg s.role = some a) :
    gateOn s = (busRes (s.rmwOk a (· ||| s.cfg.b.gate)), s.afterRmw a (· ||| s.cfg.b.gate)) := by
  simp only [gateOn, h, enableOpts_eq, setBits]

theorem gateOff_eq {a : Addr} {s : State} (h : gateReg s.cfg s.role = some a) :
    gateOff s = (busRes (s.rmwOk a (· &&& ~~~s.cfg.b.gate)), s.afterRmw a (· &&& ~~~s.cfg.b.gate)) := by
  simp only [gateOff, h, disableOpts_eq, clearBits]

/-- With the role unset every operation of 42_interrupt_shadow.md is refused and does nothing (R142). -/
theorem shadow_unset {s : State} (h : s.role = .unset) (bits : Byte) :
    enableTop bits s = (.refused, s) ∧ disableTop bits s = (.refused, s) ∧ enableEp bits s = (.refused, s) ∧
    disableEp bits s = (.refused, s) ∧ clearTop bits s = (.refused, s) ∧ clearEp bits s = (.refused, s) ∧
    statusTop s = (.refused, s) ∧ statusEp s = (.refused, s) ∧ gateOn s = (.refused, s) ∧ gateOff s = (.refused, s) := by
  refine ⟨?_, ?_, ?_, ?_, ?_, ?_, ?_, ?_, ?_, ?_⟩ <;>
    simp only [enableTop, disableTop, enableEp, disableEp, clearTop, clearEp, statusTop, statusEp, gateOn, gateOff, h, topIen,
      topIrq, gateReg]

/-- In Host role the endpoint operations succeed and do nothing (R132, R133, R135, R139). -/
theorem endpoint_host {s : State} (h : s.role = .host) (bits : Byte) :
    enableEp bits s = (.ok (), s) ∧ disableEp bits s = (.ok (), s) ∧ clearEp bits s = (.ok (), s) ∧
    statusEp s = (.ok 0x00, s) := by
  refine ⟨?_, ?_, ?_, ?_⟩ <;> simp only [enableEp, disableEp, clearEp, statusEp, h]

/-! ## Polls -/

theorem poll_miss {a : Addr} {hit : Byte → Bool} {miss : State → State} {s : State} {cap : Nat}
    (hok : s.readOk a = true) (hmiss : hit (s.readByte a) = false) :
    poll a hit miss (cap + 1) s = poll a hit miss cap (miss (s.afterRead a)) := by
  simp only [State.readOk] at hok
  simp only [poll, readReg_eq, hok, if_true, hmiss, Bool.false_eq_true, if_false]
  rfl

theorem poll_hit {a : Addr} {hit : Byte → Bool} {miss : State → State} {s : State} {cap : Nat}
    (hok : s.readOk a = true) (h : hit (s.readByte a) = true) :
    poll a hit miss (cap + 1) s = (.seen, s.afterRead a) := by
  simp only [State.readOk] at hok
  simp only [poll, readReg_eq, hok, if_true, h]
  rfl

theorem poll_fault {a : Addr} {hit : Byte → Bool} {miss : State → State} {s : State} {cap : Nat}
    (hok : s.readOk a = false) : poll a hit miss (cap + 1) s = (.fault, s.afterRead a) := by
  simp only [State.readOk] at hok
  simp only [poll, readReg_eq, hok, Bool.false_eq_true, if_false]
  rfl

/-- A poll passes over its misses. -/
theorem poll_misses {a : Addr} {hit : Byte → Bool} {miss : State → State} {between : List Event}
    (hm : ∀ s, miss s = { s with trace := s.trace ++ between }) (n cap : Nat) (s : State)
    (h : State.misses a hit between n s = true) :
    poll a hit miss (n + cap) s = poll a hit miss cap (State.afterMisses a between n s) := by
  induction n generalizing s with
  | zero => rw [Nat.zero_add]; rfl
  | succ n ih =>
    simp only [State.misses, Bool.and_eq_true, Bool.not_eq_true'] at h
    rw [Nat.add_right_comm, poll_miss h.1.1 h.1.2, hm, ih _ h.2]
    rfl

/-! ## The reset sequence's writes -/

theorem writePlain_eq (a : Addr) (v : Byte) (s : State) : writePlain a v s = (busRes (s.writeOk a v), s.afterWrite a v) := by
  simp only [writePlain, writeReg_eq, State.afterWrite, State.writeOk]
  cases s.busOk (s.writeBytes a [v]) <;> rfl

theorem andThen_busRes (ok : Bool) (s : State) (f : State → Res Unit × State) :
    andThen (busRes ok, s) f = if ok then f s else (.fault .transportError, s) := by
  cases ok <;> rfl

/-- The writes of a list of pairs. -/
def pairWrites : List (Addr × Addr) → List (Addr × Byte)
  | [] => []
  | (ien, irq) :: rest => (ien, 0x00) :: (irq, 0xFF) :: pairWrites rest

theorem clearPairs_eq (ps : List (Addr × Addr)) (s : State) :
    clearPairs ps s = (busRes (State.writesOk (pairWrites ps) s), State.afterWrites (pairWrites ps) s) := by
  induction ps generalizing s with
  | nil => rfl
  | cons p ps ih =>
    obtain ⟨ien, irq⟩ := p
    simp only [clearPairs, writePlain_eq, andThen_busRes, ih, pairWrites, State.writesOk, State.afterWrites]
    cases s.writeOk ien 0x00 with
    | false => rfl
    | true => cases (s.afterWrite ien 0x00).writeOk irq 0xFF <;> rfl

theorem pairWrites_pairs (c : Cfg) (r : Role) : pairWrites (pairs c r) = resetWrites c r := by
  cases r with
  | unset => rfl
  | host => rfl
  | peripheral =>
    simp only [pairs, thirdPair, resetWrites]
    rcases c.periph.pair3Ien with _ | ien
    · rfl
    · rcases c.periph.pair3Irq with _ | irq <;> rfl

/-- Steps 4 and 5 of `reset()` (R152). -/
theorem resetInterrupts_eq {g : Addr} {s : State} (hg : gateReg s.cfg s.role = some g) :
    resetInterrupts s =
      (busRes (s.rmwOk g (· &&& ~~~s.cfg.b.gate) && (s.afterRmw g (· &&& ~~~s.cfg.b.gate)).writesOk (resetWrites s.cfg s.role)),
        if s.rmwOk g (· &&& ~~~s.cfg.b.gate) then
          (s.afterRmw g (· &&& ~~~s.cfg.b.gate)).afterWrites (resetWrites s.cfg s.role)
        else s.afterRmw g (· &&& ~~~s.cfg.b.gate)) := by
  have hf := (busStep_afterRmw s g (· &&& ~~~s.cfg.b.gate)).frame
  simp only [resetInterrupts, gateOff_eq hg, andThen_busRes, clearPairs_eq, hf.cfg, hf.role, pairWrites_pairs]
  cases s.rmwOk g (· &&& ~~~s.cfg.b.gate) <;> rfl

/-! ## Sequences -/

theorem busStep_between (s : State) (between : List Event) (h : busRun .idle between = some .idle)
    (hn : notifications between = []) (hx : exchanges between = 0) : BusStep s { s with trace := s.trace ++ between } :=
  busStep_quiet s s.ackstat between h hn hx

theorem busStep_afterMisses (a : Addr) (between : List Event) (h : busRun .idle between = some .idle)
    (hn : notifications between = []) (hx : exchanges between = 0) (n : Nat) (s : State) :
    BusStep s (State.afterMisses a between n s) := by
  induction n generalizing s with
  | zero => exact .refl s
  | succ n ih => exact ((busStep_read s a 1).trans (busStep_between _ between h hn hx)).trans (ih _)

theorem busStep_afterWrites (ws : List (Addr × Byte)) (s : State) : BusStep s (State.afterWrites ws s) := by
  induction ws generalizing s with
  | nil => exact .refl s
  | cons w ws ih =>
    unfold State.afterWrites
    split
    · exact (busStep_write s w.1 [w.2]).trans (ih _)
    · exact busStep_write s w.1 [w.2]

theorem busStep_logUnless (s : State) (ok : Bool) : BusStep s (s.logUnless ok) := by
  cases ok
  · exact busStep_logFault s .transportError
  · exact .refl s

/-- A handler's step that may fault. -/
theorem logged_busRes (ok : Bool) (s : State) : logged (busRes ok, s) = s.logUnless ok := by
  cases ok <;> rfl

end Sys2Proof.Machine
end

