-- ==== Sys2Proof/Laws/Calls.lean ====
section
/-! SUPPORT. What operations nested in a call do to the masks and to the collaborators' script, and the call itself, each said once. -/

namespace Sys2Proof.Machine

theorem topIen_none {c : Cfg} {r : Role} (h : topIen c r = none) : r = .unset := by
  cases r <;> first | rfl | exact absurd h (by simp [topIen])

theorem topIen_some {c : Cfg} {r : Role} {a : Addr} (h : topIen c r = some a) : r ≠ .unset := by
  rintro rfl
  simp [topIen] at h

/-! ## The four mask operations, field by field -/

theorem enableTop_top (bits : Byte) (s : State) :
    (enableTop bits s).2.enabledTopIRQ = if s.role = .unset then s.enabledTopIRQ else s.enabledTopIRQ ||| bits := by
  cases h : topIen s.cfg s.role with
  | none => rw [if_pos (topIen_none h)]; simp only [enableTop, h]
  | some a => rw [if_neg (topIen_some h), enableTop_eq h]

theorem disableTop_top (bits : Byte) (s : State) :
    (disableTop bits s).2.enabledTopIRQ = if s.role = .unset then s.enabledTopIRQ else s.enabledTopIRQ &&& ~~~bits := by
  cases h : topIen s.cfg s.role with
  | none => rw [if_pos (topIen_none h)]; simp only [disableTop, h]
  | some a => rw [if_neg (topIen_some h), disableTop_eq h]

theorem enableTop_rest (bits : Byte) (s : State) :
    (enableTop bits s).2.enabledEndpointIRQ = s.enabledEndpointIRQ ∧ (enableTop bits s).2.collab = s.collab := by
  cases h : topIen s.cfg s.role with
  | none => simp only [enableTop, h, and_self]
  | some a =>
    have hf := (busStep_afterRmw s a (· ||| bits)).frame
    rw [enableTop_eq h]
    exact ⟨hf.enabledEndpointIRQ, hf.collab⟩

theorem disableTop_rest (bits : Byte) (s : State) :
    (disableTop bits s).2.enabledEndpointIRQ = s.enabledEndpointIRQ ∧ (disableTop bits s).2.collab = s.collab := by
  cases h : topIen s.cfg s.role with
  | none => simp only [disableTop, h, and_self]
  | some a =>
    have hf := (busStep_afterRmw s a (· &&& ~~~bits)).frame
    rw [disableTop_eq h]
    exact ⟨hf.enabledEndpointIRQ, hf.collab⟩

theorem enableEp_ep (bits : Byte) (s : State) :
    (enableEp bits s).2.enabledEndpointIRQ =
      if s.role = .peripheral then s.enabledEndpointIRQ ||| bits else s.enabledEndpointIRQ := by
  by_cases h : s.role = .peripheral
  · rw [if_pos h, enableEp_eq h]
  · rw [if_neg h]
    exact (callStep_enableEp bits s).endpoint h

theorem disableEp_ep (bits : Byte) (s : State) :
    (disableEp bits s).2.enabledEndpointIRQ =
      if s.role = .peripheral then s.enabledEndpointIRQ &&& ~~~bits else s.enabledEndpointIRQ := by
  by_cases h : s.role = .peripheral
  · rw [if_pos h, disableEp_eq h]
  · rw [if_neg h]
    exact (callStep_disableEp bits s).endpoint h

theorem enableEp_rest (bits : Byte) (s : State) :
    (enableEp bits s).2.enabledTopIRQ = s.enabledTopIRQ ∧ (enableEp bits s).2.collab = s.collab := by
  unfold enableEp
  split
  · exact ⟨rfl, rfl⟩
  · exact ⟨rfl, rfl⟩
  · have hf := (busStep_enableOpts s.cfg.periph.epIen bits s).frame
    exact ⟨hf.enabledTopIRQ, hf.collab⟩

theorem disableEp_rest (bits : Byte) (s : State) :
    (disableEp bits s).2.enabledTopIRQ = s.enabledTopIRQ ∧ (disableEp bits s).2.collab = s.collab := by
  unfold disableEp
  split
  · exact ⟨rfl, rfl⟩
  · exact ⟨rfl, rfl⟩
  · have hf := (busStep_disableOpts s.cfg.periph.epIen bits s).frame
    exact ⟨hf.enabledTopIRQ, hf.collab⟩

/-! ## Nested operations -/

/-- What one nested operation does to the masks, and that it draws nothing from the collaborators' script. -/
structure NestedRule (o : CollabOp) (s t : State) : Prop where
  top : t.enabledTopIRQ = if s.role = .unset then s.enabledTopIRQ else nestedTopMask s.enabledTopIRQ o
  endpoint : t.enabledEndpointIRQ =
    if s.role = .peripheral then nestedEpMask s.enabledEndpointIRQ o else s.enabledEndpointIRQ
  collab : t.collab = s.collab

theorem BusFrame.nested {o : CollabOp} {s t : State} (h : BusFrame s t) (ht : ∀ m, nestedTopMask m o = m)
    (he : ∀ m, nestedEpMask m o = m) : NestedRule o s t :=
  ⟨by rw [ht, h.enabledTopIRQ, ite_self], by rw [he, h.enabledEndpointIRQ, ite_self], h.collab⟩

theorem nestedRule_runNested (o : CollabOp) (s : State) : NestedRule o s (runNested o s) := by
  cases o with
  | readRegister a => exact (busStep_readReg a s).frame.nested (fun _ => rfl) fun _ => rfl
  | writeRegister a v => exact (busStep_writeReg a v s).frame.nested (fun _ => rfl) fun _ => rfl
  | readRegisterAS a => exact (busStep_readRegAS a s).frame.nested (fun _ => rfl) fun _ => rfl
  | writeRegisterAS a v => exact (busStep_writeRegAS a v s).frame.nested (fun _ => rfl) fun _ => rfl
  | multiReadRegister a n => exact (busStep_burstRead a _ s).frame.nested (fun _ => rfl) fun _ => rfl
  | multiWriteRegister a vs => exact (busStep_burstWrite a vs s).frame.nested (fun _ => rfl) fun _ => rfl
  | enableOptions a bits => exact (busStep_enableOpts a bits s).frame.nested (fun _ => rfl) fun _ => rfl
  | disableOptions a bits => exact (busStep_disableOpts a bits s).frame.nested (fun _ => rfl) fun _ => rfl
  | setAckstat => exact (busStep_setFlag s).frame.nested (fun _ => rfl) fun _ => rfl
  | enableInterrupts bits =>
    exact ⟨enableTop_top bits s, (enableTop_rest bits s).1.trans (ite_self _).symm,
      (enableTop_rest bits s).2⟩
  | disableInterrupts bits =>
    exact ⟨disableTop_top bits s, (disableTop_rest bits s).1.trans (ite_self _).symm,
      (disableTop_rest bits s).2⟩
  | enableEndpointInterrupts bits =>
    exact ⟨(enableEp_rest bits s).1.trans (ite_self _).symm, enableEp_ep bits s,
      (enableEp_rest bits s).2⟩
  | disableEndpointInterrupts bits =>
    exact ⟨(disableEp_rest bits s).1.trans (ite_self _).symm, disableEp_ep bits s,
      (disableEp_rest bits s).2⟩
  | clearInterruptStatus bits => exact (busStep_clearTop bits s).frame.nested (fun _ => rfl) fun _ => rfl
  | clearEndpointInterruptStatus bits => exact (busStep_clearEp bits s).frame.nested (fun _ => rfl) fun _ => rfl
  | getEnabledInterruptStatus => exact (busStep_statusTop s).frame.nested (fun _ => rfl) fun _ => rfl
  | getEnabledEndpointInterruptStatus => exact (busStep_statusEp s).frame.nested (fun _ => rfl) fun _ => rfl
  | masterEnable => exact (busStep_gateOn s).frame.nested (fun _ => rfl) fun _ => rfl
  | masterDisable => exact (busStep_gateOff s).frame.nested (fun _ => rfl) fun _ => rfl

theorem runAll_top (ops : List CollabOp) (s : State) :
    (runAll ops s).enabledTopIRQ =
      if s.role = .unset then s.enabledTopIRQ else ops.foldl nestedTopMask s.enabledTopIRQ := by
  induction ops generalizing s with
  | nil => rw [List.foldl_nil, ite_self]; rfl
  | cons o ops ih =>
    have hn := nestedRule_runNested o s
    rw [runAll, ih, (callStep_runNested o s).frame.role, hn.top]
    split <;> rfl

theorem runAll_endpoint (ops : List CollabOp) (s : State) :
    (runAll ops s).enabledEndpointIRQ =
      if s.role = .peripheral then ops.foldl nestedEpMask s.enabledEndpointIRQ else s.enabledEndpointIRQ := by
  induction ops generalizing s with
  | nil => rw [List.foldl_nil, ite_self]; rfl
  | cons o ops ih =>
    have hn := nestedRule_runNested o s
    rw [runAll, ih, (callStep_runNested o s).frame.role, hn.endpoint]
    split <;> rfl

theorem runAll_collab (ops : List CollabOp) (s : State) : (runAll ops s).collab = s.collab := by
  induction ops generalizing s with
  | nil => rfl
  | cons o ops ih => rw [runAll, ih, (nestedRule_runNested o s).collab]

/-! ## The flag -/

theorem afterRmw_ackstat (s : State) (a : Addr) (f : Byte → Byte) : (s.afterRmw a f).ackstat = false := by
  unfold State.afterRmw
  split <;> rfl

/-- What an operation that does not set the flag leaves of it: nothing, or what there was. -/
def FlagSpent (s t : State) : Prop := t.ackstat = false ∨ t.ackstat = s.ackstat

theorem flagSpent_readReg (a : Addr) (s : State) : FlagSpent s (readReg a s).2 := .inl (by rw [readReg_eq]; rfl)

theorem flagSpent_writeReg (a : Addr) (v : Byte) (s : State) : FlagSpent s (writeReg a v s).2 :=
  .inl (by rw [writeReg_eq]; rfl)

theorem flagSpent_enableOpts (a : Addr) (bits : Byte) (s : State) : FlagSpent s (enableOpts a bits s).2 :=
  .inl (by rw [enableOpts_eq]; exact afterRmw_ackstat s a (setBits · bits))

theorem flagSpent_disableOpts (a : Addr) (bits : Byte) (s : State) : FlagSpent s (disableOpts a bits s).2 :=
  .inl (by rw [disableOpts_eq]; exact afterRmw_ackstat s a (clearBits · bits))

theorem FlagSpent.refl (s : State) : FlagSpent s s := .inr rfl

theorem flagSpent_readRegAS (a : Addr) (s : State) : FlagSpent s (readRegAS a s).2 :=
  .inl (by rw [readRegAS, readReg_eq]; rfl)

theorem flagSpent_writeRegAS (a : Addr) (v : Byte) (s : State) : FlagSpent s (writeRegAS a v s).2 :=
  .inl (by rw [writeRegAS, writeReg_eq]; rfl)

theorem flagSpent_burstRead (a : Addr) (n : Nat) (s : State) : FlagSpent s (burstRead a n s).2 := by
  rw [burstRead_eq]
  split
  · exact .inl rfl
  · exact .refl s

theorem flagSpent_burstWrite (a : Addr) (vs : List Byte) (s : State) : FlagSpent s (burstWrite a vs s).2 := by
  rw [burstWrite_eq]
  split
  · exact .inl rfl
  · exact .refl s

theorem flagSpent_enableTop (bits : Byte) (s : State) : FlagSpent s (enableTop bits s).2 := by
  unfold enableTop
  split
  · exact .refl s
  · exact flagSpent_enableOpts _ bits s

theorem flagSpent_disableTop (bits : Byte) (s : State) : FlagSpent s (disableTop bits s).2 := by
  unfold disableTop
  split
  · exact .refl s
  · exact flagSpent_disableOpts _ bits s

theorem flagSpent_enableEp (bits : Byte) (s : State) : FlagSpent s (enableEp bits s).2 := by
  unfold enableEp
  split
  · exact .refl s
  · exact .refl s
  · exact flagSpent_enableOpts _ bits s

theorem flagSpent_disableEp (bits : Byte) (s : State) : FlagSpent s (disableEp bits s).2 := by
  unfold disableEp
  split
  · exact .refl s
  · exact .refl s
  · exact flagSpent_disableOpts _ bits s

theorem flagSpent_clearTop (bits : Byte) (s : State) : FlagSpent s (clearTop bits s).2 := by
  unfold clearTop
  split
  · exact .refl s
  · exact flagSpent_writeReg _ bits s

theorem flagSpent_clearEp (bits : Byte) (s : State) : FlagSpent s (clearEp bits s).2 := by
  unfold clearEp
  split
  · exact .refl s
  · exact .refl s
  · exact flagSpent_writeReg _ bits s

theorem flagSpent_statusTop (s : State) : FlagSpent s (statusTop s).2 := by
  unfold statusTop
  split
  · exact .refl s
  · exact flagSpent_readReg _ s

theorem flagSpent_statusEp (s : State) : FlagSpent s (statusEp s).2 := by
  unfold statusEp
  split
  · exact .refl s
  · exact .refl s
  · exact flagSpent_readReg _ s

theorem flagSpent_gateOn (s : State) : FlagSpent s (gateOn s).2 := by
  unfold gateOn
  split
  · exact .refl s
  · exact flagSpent_enableOpts _ _ s

theorem flagSpent_gateOff (s : State) : FlagSpent s (gateOff s).2 := by
  unfold gateOff
  split
  · exact .refl s
  · exact flagSpent_disableOpts _ _ s

/-- A nested operation sets the flag only if it is `setAckstat()` (R21). -/
theorem flagSpent_runNested (o : CollabOp) (s : State) (ho : o ≠ .setAckstat) : FlagSpent s (runNested o s) := by
  cases o with
  | readRegister a => exact flagSpent_readReg a s
  | writeRegister a v => exact flagSpent_writeReg a v s
  | readRegisterAS a => exact flagSpent_readRegAS a s
  | writeRegisterAS a v => exact flagSpent_writeRegAS a v s
  | multiReadRegister a n => exact flagSpent_burstRead a _ s
  | multiWriteRegister a vs => exact flagSpent_burstWrite a vs s
  | enableOptions a bits => exact flagSpent_enableOpts a bits s
  | disableOptions a bits => exact flagSpent_disableOpts a bits s
  | setAckstat => exact absurd rfl ho
  | enableInterrupts bits => exact flagSpent_enableTop bits s
  | disableInterrupts bits => exact flagSpent_disableTop bits s
  | enableEndpointInterrupts bits => exact flagSpent_enableEp bits s
  | disableEndpointInterrupts bits => exact flagSpent_disableEp bits s
  | clearInterruptStatus bits => exact flagSpent_clearTop bits s
  | clearEndpointInterruptStatus bits => exact flagSpent_clearEp bits s
  | getEnabledInterruptStatus => exact flagSpent_statusTop s
  | getEnabledEndpointInterruptStatus => exact flagSpent_statusEp s
  | masterEnable => exact flagSpent_gateOn s
  | masterDisable => exact flagSpent_gateOff s

theorem runAll_ackstat (ops : List CollabOp) (s : State) (h : (runAll ops s).ackstat = true) :
    s.ackstat = true ∨ .setAckstat ∈ ops := by
  induction ops generalizing s with
  | nil => exact .inl h
  | cons o ops ih =>
    by_cases ho : o = .setAckstat
    · exact .inr (ho ▸ List.mem_cons_self)
    · rcases ih _ h with h1 | h1
      · rcases flagSpent_runNested o s ho with hf | hf
        · exact absurd (hf.symm.trans h1) Bool.false_ne_true
        · exact .inl (hf.symm.trans h1)
      · exact .inr (List.mem_cons_of_mem o h1)

/-! ## The connected path -/

theorem connect_logged {u : State} (ok : Bool) (h : u.bstate = .enumerating) :
    (if ok then { (u.emit (.log (.enumResult ok))).delay .stabilize with bstate := .ready }
      else (u.emit (.log (.enumResult ok))).delay .stabilize) =
      { u with
        bstate := if ok then .ready else .enumerating
        trace := u.trace ++ [.log (.enumResult ok), .delay .stabilize] } := by
  cases ok <;> ext1 <;> simp [State.delay, h]

/-- Steps 2c to 2f and 4 of `onConnectDetect`, written out (R172, R175, R178). -/
theorem bringUp_eq (v : State) :
    bringUp v =
      let s1 := (callOut (.call .performBusReset) { v with bstate := .resetting }).2
      let r := callOut (.call .performEnumeration)
        { s1 with bstate := .enumerating, trace := s1.trace ++ [.delay .settle] }
      finishConnect true { r.2 with
        bstate := if r.1 then .ready else .enumerating
        trace := r.2.trace ++ [.log (.enumResult r.1), .delay .stabilize] } := by
  have hb := (callStep_callOut (.call .performEnumeration)
    { (callOut (.call .performBusReset) { v with bstate := .resetting }).2.delay .settle with bstate := .enumerating }
    rfl rfl).frame.bstate
  unfold bringUp
  dsimp only
  rw [connect_logged _ hb]
  rfl

end Sys2Proof.Machine
end

