-- ==== Sys2Proof/Laws/Memory.lean ====
section
/-! SUPPORT. The laws of the receive buffer: reads after writes, and that every operation keeps the canonical form. -/

namespace Sys2Proof.Machine

@[simp] theorem rxPeek_rxPoke_same (i : Nat) (b : Byte) (m : List Host.Cell) : rxPeek (rxPoke i b m) i = some b := by
  induction m with
  | nil => simp [rxPoke, rxPeek]
  | cons c rest ih =>
    obtain ⟨j, v⟩ := c
    unfold rxPoke
    split
    · simp [rxPeek]
    · split
      · simp [rxPeek]
      · rename_i h1 h2
        simp [rxPeek, ih, Ne.symm h2]

theorem rxPeek_rxPoke_other {i j : Nat} (h : j ≠ i) (b : Byte) (m : List Host.Cell) :
    rxPeek (rxPoke i b m) j = rxPeek m j := by
  induction m with
  | nil => simp [rxPoke, rxPeek, Ne.symm h]
  | cons c rest ih =>
    obtain ⟨k, v⟩ := c
    unfold rxPoke
    split
    · simp [rxPeek, Ne.symm h]
    · split
      · rename_i h1 h2
        subst h2
        simp [rxPeek, Ne.symm h]
      · simp [rxPeek, ih]

theorem cellsFrom_mono {lo lo' : Nat} (h : lo' ≤ lo) {m : List Host.Cell} (hm : cellsFrom lo m = true) :
    cellsFrom lo' m = true := by
  cases m with
  | nil => rfl
  | cons c rest =>
    obtain ⟨j, v⟩ := c
    simp only [cellsFrom, Bool.and_eq_true, Nat.ble_eq] at hm ⊢
    exact ⟨⟨h.trans hm.1.1, hm.1.2⟩, hm.2⟩

theorem rxPoke_keeps_cells {lo i : Nat} (b : Byte) {m : List Host.Cell} (hm : cellsFrom lo m = true) (hlo : lo ≤ i)
    (hi : i < 64) : cellsFrom lo (rxPoke i b m) = true := by
  induction m generalizing lo with
  | nil => simp [rxPoke, cellsFrom, Nat.blt_eq, hlo, hi]
  | cons c rest ih =>
    obtain ⟨j, v⟩ := c
    simp only [cellsFrom, Bool.and_eq_true, Nat.ble_eq, Nat.blt_eq] at hm
    unfold rxPoke
    split
    · rename_i h
      simp only [cellsFrom, Bool.and_eq_true, Nat.ble_eq, Nat.blt_eq]
      exact ⟨⟨hlo, hi⟩, ⟨h, hm.1.2⟩, hm.2⟩
    · split
      · rename_i h1 h2
        subst h2
        simp only [cellsFrom, Bool.and_eq_true, Nat.ble_eq, Nat.blt_eq]
        exact hm
      · rename_i h1 h2
        simp only [cellsFrom, Bool.and_eq_true, Nat.ble_eq, Nat.blt_eq]
        exact ⟨hm.1, ih hm.2 (by omega)⟩

theorem rxFill_keeps_wf (bs : List Byte) (i : Nat) {m : List Host.Cell} (hm : Memory.wf m = true) :
    Memory.wf (rxFill i bs m) = true := by
  induction bs generalizing i m with
  | nil => exact hm
  | cons b bs ih =>
    unfold rxFill
    split
    · rename_i h
      exact ih (i + 1) (rxPoke_keeps_cells b hm (Nat.zero_le _) h)
    · exact hm

/-- A fill says nothing of the indices below its start or past its end. -/
theorem rxPeek_rxFill_outside (bs : List Byte) (i j : Nat) (m : List Host.Cell) (h : j < i ∨ i + bs.length ≤ j) :
    rxPeek (rxFill i bs m) j = rxPeek m j := by
  induction bs generalizing i m with
  | nil => rfl
  | cons b bs ih =>
    unfold rxFill
    split
    · rw [ih (i + 1) _ (by simp only [List.length_cons] at h; omega), rxPeek_rxPoke_other]
      simp only [List.length_cons] at h
      omega
    · rfl

/-- A fill within the buffer puts its bytes at consecutive indices. -/
theorem rxPeek_rxFill_inside (bs : List Byte) (i k : Nat) (m : List Host.Cell) (hk : k < bs.length)
    (h64 : i + bs.length ≤ 64) : rxPeek (rxFill i bs m) (i + k) = bs[k]? := by
  induction bs generalizing i k m with
  | nil => simp at hk
  | cons b bs ih =>
    simp only [List.length_cons] at hk h64
    unfold rxFill
    rw [if_pos (by omega)]
    cases k with
    | zero => rw [rxPeek_rxFill_outside _ _ _ _ (.inl (by omega))]; simp
    | succ k =>
      have := ih (i + 1) k (rxPoke i b m) (by omega) (by omega)
      rw [show i + (k + 1) = i + 1 + k by omega, this]
      simp

/-- A read of consecutive bytes that all have a value succeeds with those values. -/
theorem rxReadMany_of_peek (bs : List Byte) (i : Nat) (m : List Host.Cell)
    (h : ∀ k < bs.length, rxPeek m (i + k) = bs[k]?) : rxReadMany i bs.length m = .ok bs := by
  induction bs generalizing i with
  | nil => rfl
  | cons b bs ih =>
    have h0 : rxPeek m i = some b := by simpa using h 0 (by simp)
    have hs := ih (i + 1) (fun k hk => by
      have := h (k + 1) (by simpa using hk)
      rw [show i + 1 + k = i + (k + 1) by omega, this]
      simp)
    simp [rxReadMany, rxRead, h0, hs]

/-- Reading back what a fill wrote. -/
theorem rxReadMany_rxFill (bs : List Byte) (i : Nat) (m : List Host.Cell) (h64 : i + bs.length ≤ 64) :
    rxReadMany i bs.length (rxFill i bs m) = .ok bs :=
  rxReadMany_of_peek bs i _ fun k hk => rxPeek_rxFill_inside bs i k m hk h64

end Sys2Proof.Machine
end

