-- ==== Sys2Proof/Laws/Handlers.lean ====
section
/-! SUPPORT. What a handler may change, said once (`HandlerStep`), and that each handler is one. -/

namespace Sys2Proof.Machine

/-- What a handler does: it leaves the role, the callback, the detector, the vector, the configuration, the schedule and the results alone,
and appends whole transactions, taking the edges placed in them, with the notifications owed for its change of `CONN`. -/
structure HandlerStep (s t : State) : Prop where
  role : t.role = s.role
  cb : t.cb = s.cb
  intArmed : t.intArmed = s.intArmed
  sel : t.sel = s.sel
  cfg : t.cfg = s.cfg
  sched : t.sched = s.sched
  results : t.results = s.results
  endpoint : s.role ≠ .peripheral → t.enabledEndpointIRQ = s.enabledEndpointIRQ
  grows : ∃ evs, t.trace = s.trace ++ evs ∧ busRun .idle evs = some .idle ∧ notifications evs = owed s.cb s.conn t.conn ∧
    EdgesTaken (exchanges evs) s t

theorem HandlerStep.latch {s t : State} (h : HandlerStep s t) : LatchRule s t :=
  have ⟨_, _, _, _, he⟩ := h.grows
  he.latch h.intArmed

theorem owed_same (cb : Option CallbackRef) (b : Bool) : owed cb b b = [] := if_pos rfl

theorem CallStep.handler {s t : State} (h : CallStep [] s t) : HandlerStep s t where
  role := h.frame.role
  cb := h.frame.cb
  intArmed := h.frame.intArmed
  sel := h.frame.sel
  cfg := h.frame.cfg
  sched := h.frame.sched
  results := h.frame.results
  endpoint := h.endpoint
  grows := by
    obtain ⟨evs, h1, h2, h3, h4⟩ := h.grows
    exact ⟨evs, h1, h2, by rw [h3, h.frame.conn, owed_same], h4⟩

theorem HandlerStep.refl (s : State) : HandlerStep s s := (CallStep.refl s).handler

theorem HandlerStep.pre {s t u : State} (h1 : CallStep [] s t) (h2 : HandlerStep t u) : HandlerStep s u where
  role := h2.role.trans h1.frame.role
  cb := h2.cb.trans h1.frame.cb
  intArmed := h2.intArmed.trans h1.frame.intArmed
  sel := h2.sel.trans h1.frame.sel
  cfg := h2.cfg.trans h1.frame.cfg
  sched := h2.sched.trans h1.frame.sched
  results := h2.results.trans h1.frame.results
  endpoint h := (h2.endpoint (by rw [h1.frame.role]; exact h)).trans (h1.endpoint h)
  grows := by
    obtain ⟨es, he, hr, hn, hx⟩ := h1.grows
    obtain ⟨fs, hf, hr', hn', hx'⟩ := h2.grows
    exact ⟨es ++ fs, by rw [hf, he, List.append_assoc], by simp [busRun_append, hr, hr'],
      by rw [notifications_append, hn, hn', h1.frame.conn, h1.frame.cb, List.nil_append],
      exchanges_append es fs ▸ hx.trans h2.intArmed hx'⟩

theorem HandlerStep.post {s t u : State} (h1 : HandlerStep s t) (h2 : CallStep [] t u) : HandlerStep s u where
  role := h2.frame.role.trans h1.role
  cb := h2.frame.cb.trans h1.cb
  intArmed := h2.frame.intArmed.trans h1.intArmed
  sel := h2.frame.sel.trans h1.sel
  cfg := h2.frame.cfg.trans h1.cfg
  sched := h2.frame.sched.trans h1.sched
  results := h2.frame.results.trans h1.results
  endpoint h := (h2.endpoint (by rw [h1.role]; exact h)).trans (h1.endpoint h)
  grows := by
    obtain ⟨es, he, hr, hn, hx⟩ := h1.grows
    obtain ⟨fs, hf, hr', hn', hx'⟩ := h2.grows
    exact ⟨es ++ fs, by rw [hf, he, List.append_assoc], by simp [busRun_append, hr, hr'],
      by rw [notifications_append, hn, hn', h2.frame.conn, List.append_nil],
      exchanges_append es fs ▸ hx.trans h2.frame.intArmed hx'⟩

/-- `BSTATE` and `RXBUF` are not looked at. -/
theorem HandlerStep.fields {s t : State} (h : HandlerStep s t) (b b' : BusState) (m m' : List Host.Cell) :
    HandlerStep { s with bstate := b, rxbuf := m } { t with bstate := b', rxbuf := m' } :=
  ⟨h.role, h.cb, h.intArmed, h.sel, h.cfg, h.sched, h.results, h.endpoint, h.grows⟩

theorem callStep_logged {s : State} {r : Res Unit × State} (h : CallStep [] s r.2) : CallStep [] s (logged r) := by
  rcases r with ⟨_ | k | _, t⟩
  · exact h
  · exact h.trans (busStep_logFault t k).toCall
  · exact h

/-! ## `onConnectDetect` -/

/-- The outcome of a handler that may change `CONN` and `BSTATE`. -/
structure Reported (conn : Bool) (bstate : BusState) (s t : State) : Prop where
  step : HandlerStep s t
  conn_eq : t.conn = conn
  bstate_eq : t.bstate = bstate
  rxbuf : t.rxbuf = s.rxbuf

theorem Reported.pre {c : Bool} {b : BusState} {s t u : State} (h1 : CallStep [] s t) (h2 : Reported c b t u) :
    Reported c b s u :=
  ⟨.pre h1 h2.step, h2.conn_eq, h2.bstate_eq, h2.rxbuf.trans h1.frame.rxbuf⟩

/-- From a state that differs in `BSTATE` only. -/
theorem Reported.from {c : Bool} {b b' : BusState} {s t : State} (h : Reported c b { s with bstate := b' } t) :
    Reported c b s t :=
  ⟨h.step.fields s.bstate t.bstate s.rxbuf t.rxbuf, h.conn_eq, h.bstate_eq, h.rxbuf⟩

theorem reported_notifyChange (c : Bool) (s : State) : Reported c s.bstate s (notifyChange c s) := by
  unfold notifyChange
  split
  · rename_i h
    exact ⟨.refl s, h.symm, rfl, rfl⟩
  · rename_i hc
    split
    · rename_i cb hcb
      have h := callStep_callOut (.notify cb c) { s with conn := c } rfl rfl
      obtain ⟨evs, h1, h2, h3, h4⟩ := h.grows
      have hconn : (callOut (.notify cb c) { s with conn := c }).2.conn = c := h.frame.conn
      refine ⟨⟨h.frame.role, h.frame.cb, h.frame.intArmed, h.frame.sel, h.frame.cfg, h.frame.sched, h.frame.results,
        h.endpoint, ⟨evs, h1, h2, ?_, h4⟩⟩, hconn, h.frame.bstate, h.frame.rxbuf⟩
      rw [h3, hconn, hcb]
      exact (if_neg hc).symm
    · rename_i hcb
      refine ⟨⟨rfl, rfl, rfl, rfl, rfl, rfl, rfl, fun _ => rfl, ⟨[], (List.append_nil _).symm, rfl, ?_,
        .none rfl rfl⟩⟩, rfl, rfl, rfl⟩
      rw [hcb]
      exact (if_neg hc).symm

theorem reported_finishConnect (c : Bool) (s : State) : Reported c s.bstate s (finishConnect c s) := by
  have h := reported_notifyChange c s
  have h2 : CallStep [] (notifyChange c s) (finishConnect c s) := callStep_logged (busStep_clearTop _ _).toCall
  exact ⟨h.step.post h2, h2.frame.conn.trans h.conn_eq, h2.frame.bstate.trans h.bstate_eq,
    h2.frame.rxbuf.trans h.rxbuf⟩

theorem reported_notConnected (s : State) : Reported false .noDevice s (notConnected s) := by
  have h1 : CallStep [] s (logged (disableOpts s.cfg.host.sofReg s.cfg.b.sofEn s)) :=
    callStep_logged (busStep_disableOpts _ _ _).toCall
  exact .pre h1 (.from (reported_finishConnect false
    { logged (disableOpts s.cfg.host.sofReg s.cfg.b.sofEn s) with bstate := .noDevice }))

theorem reported_abortConnect (k : FaultKind) (s : State) : Reported false .noDevice s (abortConnect k s) :=
  .pre (busStep_logFault s k).toCall (reported_notConnected _)

theorem reported_bringUp (s : State) : ∃ b, (b = .ready ∨ b = .enumerating) ∧ Reported true b s (bringUp s) := by
  have h1 := callStep_callOut (.call .performBusReset) { s with bstate := .resetting } rfl rfl
  rw [bringUp_eq]
  generalize hu : (callOut (.call .performBusReset) { s with bstate := .resetting }).2 = u at h1
  have h2 := callStep_callOut (.call .performEnumeration)
    { u with bstate := .enumerating, trace := u.trace ++ [.delay .settle] } rfl rfl
  dsimp only
  generalize callOut (.call .performEnumeration)
    { u with bstate := .enumerating, trace := u.trace ++ [.delay .settle] } = r at h2
  have h3 : CallStep [] u { u with trace := u.trace ++ [.delay .settle] } := (busStep_delay u .settle).toCall
  have h4 : CallStep [] r.2 { r.2 with trace := r.2.trace ++ [.log (.enumResult r.1), .delay .stabilize] } :=
    (busStep_between r.2 _ rfl rfl rfl).toCall
  refine ⟨if r.1 then .ready else .enumerating, ?_, ?_⟩
  · cases r.1
    · exact .inr rfl
    · exact .inl rfl
  · have h5 := reported_finishConnect true { r.2 with
      bstate := if r.1 then .ready else .enumerating
      trace := r.2.trace ++ [.log (.enumResult r.1), .delay .stabilize] }
    exact .from (b' := .resetting) (.pre h1 (.pre h3 (.from (b' := .enumerating) (.pre h2 (.pre h4 h5.from)))))

/-- How `onConnectDetect` can end: reported connected, or not. -/
def Settled (s t : State) : Prop :=
  Reported false .noDevice s t ∨ ∃ b, (b = .ready ∨ b = .enumerating) ∧ Reported true b s t

theorem Settled.pre {s t u : State} (h1 : CallStep [] s t) (h2 : Settled t u) : Settled s u :=
  h2.imp (.pre h1) fun ⟨b, hb, h⟩ => ⟨b, hb, .pre h1 h⟩

theorem callStep_poll (a : Addr) (hit : Byte → Bool) (cap : Nat) (s : State) :
    CallStep [] s (poll a hit id cap s).2 :=
  (busStep_poll a hit id BusStep.refl cap s).toCall

theorem settled_connectedPath (s : State) : Settled s (connectedPath s) := by
  have h1 := (busStep_enableOpts s.cfg.host.sofReg s.cfg.b.sofEn s).toCall
  unfold connectedPath
  split
  · rename_i s1 he
    rw [he] at h1
    have h2 := callStep_poll s1.cfg.host.topIrq (frameSeen s1.cfg) s1.cfg.framePollCap s1
    split
    · rename_i s2 hp
      rw [hp] at h2
      exact .pre h1 (.pre h2 (.inr (reported_bringUp s2)))
    · rename_i s2 hp
      rw [hp] at h2
      exact .pre h1 (.pre h2 (.inl (reported_abortConnect _ s2)))
    · rename_i s2 hp
      rw [hp] at h2
      exact .pre h1 (.pre h2 (.inl (reported_abortConnect _ s2)))
  · rename_i k s1 he
    rw [he] at h1
    exact .pre h1 (.inl (reported_abortConnect _ s1))
  · rename_i s1 he
    rw [he] at h1
    exact .pre h1 (.inl (reported_abortConnect _ s1))

theorem settled_connectDetect (s : State) : Settled s (connectDetect s) := by
  have h1 := (busStep_readReg s.cfg.host.lineState s).toCall
  unfold connectDetect
  split
  · rename_i v s1 he
    rw [he] at h1
    split
    · refine .pre h1 ?_
      rcases settled_connectedPath { s1 with bstate := .connected } with h | ⟨b, hb, h⟩
      · exact .inl h.from
      · exact .inr ⟨b, hb, h.from⟩
    · exact .pre h1 (.inl (reported_notConnected s1))
  · rename_i k s1 he
    rw [he] at h1
    exact .pre h1 (.inl (reported_abortConnect _ s1))
  · rename_i s1 he
    rw [he] at h1
    exact .pre h1 (.inl (reported_abortConnect _ s1))

/-! ## The Peripheral-role handlers -/

theorem callStep_dispatchRequest (q : Byte) (packet : List Byte) (s : State) :
    CallStep [] s (dispatchRequest q packet s) := by
  unfold dispatchRequest
  split
  · have h := (busStep_readRegAS s.cfg.periph.ackReg s).toCall
    split
    rename_i r s1 he
    rw [he] at h
    exact callStep_logged (r := (r.done, s1)) h
  · split
    · exact callStep_callOut (.call (.respondToStatusRequest packet)) s rfl rfl
    · exact (busStep_log s _).toCall

theorem callStep_resetDone (s : State) : CallStep [] s (resetDone s) := by
  have h1 : CallStep [] s (logged (clearTop s.cfg.b.uresDn s)) := callStep_logged (busStep_clearTop _ s).toCall
  have h2 (s1 : State) : CallStep [] s1 (logged (enableEp s1.cfg.b.sudAv s1)) := callStep_logged (callStep_enableEp _ s1)
  have h3 (s2 : State) : CallStep [] s2 (logged (enableTop s2.cfg.b.uresDn s2)) :=
    callStep_logged (callStep_enableTop _ s2)
  have h4 (s3 : State) : CallStep [] s3 (match writeReg s3.cfg.periph.ep2InBc s3.cfg.ep2Refill s3 with
      | (r, s4) => logged (r.done, s4)) := by
    have h := (busStep_writeReg s3.cfg.periph.ep2InBc s3.cfg.ep2Refill s3).toCall
    split
    rename_i r s4 he
    rw [he] at h
    exact callStep_logged (r := (r.done, s4)) h
  exact ((h1.trans (h2 _)).trans (h3 _)).trans (h4 _)

/-- `onSetup` in Peripheral role: a handler's step that ends with a burst in `RXBUF[0..7]`, possibly short or empty; it never faults (R190). -/
theorem setupPacket_cases (s : State) :
    ∃ (t : State) (data : List Byte), setupPacket s = .next t ∧ data.length ≤ 8 ∧ t.rxbuf = rxFill 0 data s.rxbuf ∧
      CallStep [] s { t with rxbuf := s.rxbuf } := by
  have h1 := (busStep_clearEp s.cfg.b.sudAv s).toCall
  unfold setupPacket
  split
  · rename_i s1 he
    rw [he] at h1
    have h2 := (busStep_memRead s1.cfg.periph.sudFifo packetBytes s1).toCall
    have hlen : (memRead s1.cfg.periph.sudFifo packetBytes s1).1.ins.length ≤ 8 := by
      rw [memRead_eq]
      exact (List.length_replicate (n := 8) (a := (0 : Byte))) ▸ busData_le s1 _ _
    have hok : (memRead s1.cfg.periph.sudFifo packetBytes s1).1.ok = true →
        (memRead s1.cfg.periph.sudFifo packetBytes s1).1.ins.length = 8 := by
      rw [memRead_eq]
      exact fun h => (busData_length h).trans List.length_replicate
    unfold fetchPacket
    split
    rename_i x s2 hm
    rw [hm] at h2 hlen hok
    dsimp only at h2 hlen hok
    have hrx : s2.rxbuf = s.rxbuf := h2.frame.rxbuf.trans h1.frame.rxbuf
    split
    · rename_i hx
      have hl := hok hx
      have hq : rxRead 1 (rxFill 0 x.ins s2.rxbuf) = .ok (x.ins[1]'(by omega)) := by
        have hp := rxPeek_rxFill_inside x.ins 0 1 s2.rxbuf (by omega) (by omega)
        rw [Nat.zero_add, List.getElem?_eq_getElem (by omega)] at hp
        simp only [rxRead, hp]
      have hp : rxReadMany 0 packetBytes (rxFill 0 x.ins s2.rxbuf) = .ok x.ins := by
        have h := rxReadMany_rxFill x.ins 0 s2.rxbuf (by omega)
        rwa [hl] at h
      have h3 := callStep_dispatchRequest (x.ins[1]'(by omega)) x.ins { s2 with rxbuf := rxFill 0 x.ins s2.rxbuf }
      refine ⟨_, x.ins, ?_, hlen, h3.frame.rxbuf.trans (congrArg _ hrx), ?_⟩
      · simp only [dispatchPacket, hq, hp]
      · refine (h1.trans h2).trans ⟨{ h3.frame with rxbuf := hrx.symm }, h3.endpoint, h3.grows⟩
    · have h3 := (busStep_logFault { s2 with rxbuf := rxFill 0 x.ins s2.rxbuf } .transportError).toCall
      refine ⟨_, x.ins, rfl, hlen, congrArg _ hrx, ?_⟩
      exact (h1.trans h2).trans ⟨{ h3.frame with rxbuf := hrx.symm }, h3.endpoint, h3.grows⟩
  · rename_i k s1 he
    rw [he] at h1
    have h3 := h1.trans (busStep_logFault s1 k).toCall
    exact ⟨_, [], rfl, by simp, h3.frame.rxbuf, ⟨{ h3.frame with rxbuf := rfl }, h3.endpoint, h3.grows⟩⟩
  · rename_i s1 he
    rw [he] at h1
    exact ⟨_, [], rfl, by simp, h1.frame.rxbuf, ⟨{ h1.frame with rxbuf := rfl }, h1.endpoint, h1.grows⟩⟩

end Sys2Proof.Machine
end

