-- ==== Sys2Proof/Laws/PerInstr.lean ====
section
/-! SUPPORT. The per-instruction family `EncodeRow`: the encoding of every instruction has the fixed bits of its row of
spec/opcode_table.json. -/

namespace Sys2Proof.Laws.EncodeRow

/-- The mask and the match of an instruction's row, from spec/opcode_table.json. -/
def row : Instr → BitVec 24 × BitVec 24
  | .regrd _ _ _ => (0x06, 0x00)
  | .regwr _ _ _ => (0x06, 0x02)
  | .readRegister _ => (0xFF07FF, 0x080000)
  | .writeRegister _ _ => (0xFF0700, 0x100000)
  | .readRegisterAS _ => (0xFF07FF, 0x180000)
  | .writeRegisterAS _ _ => (0xFF0700, 0x200000)
  | .multiReadRegister _ _ => (0xFF0700, 0x280000)
  | .multiWriteRegister _ _ => (0xFF0700, 0x300000)
  | .enableOptions _ _ => (0xFF0700, 0x380000)
  | .disableOptions _ _ => (0xFF0700, 0x400000)
  | .setAckstat => (0xFFFFFF, 0x480000)
  | .enableInterrupts _ => (0xFFFF00, 0x500000)
  | .disableInterrupts _ => (0xFFFF00, 0x580000)
  | .enableEndpointInterrupts _ => (0xFFFF00, 0x600000)
  | .disableEndpointInterrupts _ => (0xFFFF00, 0x680000)
  | .clearInterruptStatus _ => (0xFFFF00, 0x700000)
  | .clearEndpointInterruptStatus _ => (0xFFFF00, 0x780000)
  | .getEnabledInterruptStatus => (0xFFFFFF, 0x800000)
  | .getEnabledEndpointInterruptStatus => (0xFFFFFF, 0x880000)
  | .masterEnable => (0xFFFFFF, 0x900000)
  | .masterDisable => (0xFFFFFF, 0x980000)
  | .reset => (0xFFFFFF, 0xA00000)
  | .start _ => (0xFFFFFE, 0xA80000)
  | .scanBus => (0xFFFFFF, 0xB00000)
  | .registerCallback _ => (0xFFFFFE, 0xB80000)
  | .illegal00 _ => (0xF80000, 0x000000)
  | .illegal18to1F _ => (0xC00000, 0xC00000)
  | .onSetup => (0x1, 0x1)
  | .onInBufAvail => (0x2, 0x2)
  | .onResetDone => (0x4, 0x4)
  | .onConnectDetect => (0x8, 0x8)

/-- The bits of what is presented: the operation word, the command byte, or the event-select vector. -/
def word : Presented → BitVec 24
  | .op w _ _ => w
  | .bus bytes => (bytes.headD 0).setWidth 24
  | .evt sel => sel.setWidth 24

/-- The encoded instruction has its row's fixed bits. -/
def Statement (i : Instr) : Prop := word (encode i) &&& (row i).1 = (row i).2

theorem and_mkWord (o o' : BitVec 5) (z z' : BitVec 3) (a a' : Addr) (y y' : BitVec 3) (i i' : Byte) :
    mkWord o z a y i &&& mkWord o' z' a' y' i' = mkWord (o &&& o') (z &&& z') (a &&& a') (y &&& y') (i &&& i') := by
  unfold mkWord
  rw [BitVec.and_append, BitVec.and_append, BitVec.and_append, BitVec.and_append]

theorem and_all5 (o : BitVec 5) : o &&& 31 = o := by revert o; decide

/-- Address and immediate are free. -/
theorem addrImm (o : BitVec 5) (a : Addr) (i : Byte) : mkWord o 0 a 0 i &&& 0xFF0700 = mkWord o 0 0 0 0 := by
  have h : (0xFF0700 : BitVec 24) = mkWord 31 7 0 7 0 := by decide
  rw [h, and_mkWord, and_all5]
  simp

/-- The address is free. -/
theorem addrOnly (o : BitVec 5) (a : Addr) : mkWord o 0 a 0 0 &&& 0xFF07FF = mkWord o 0 0 0 0 := by
  have h : (0xFF07FF : BitVec 24) = mkWord 31 7 0 7 0xFF := by decide
  rw [h, and_mkWord, and_all5]
  simp

/-- The immediate is free. -/
theorem immOnly (o : BitVec 5) (i : Byte) : mkWord o 0 0 0 i &&& 0xFFFF00 = mkWord o 0 0 0 0 := by
  have h : (0xFFFF00 : BitVec 24) = mkWord 31 7 31 7 0 := by decide
  rw [h, and_mkWord, and_all5]
  simp

theorem command (a : Addr) (d : Dir) (s : Bool) :
    (cmdByte a d s).setWidth 24 &&& (0x06 : BitVec 24) = (d.bit <<< 1).setWidth 24 := by
  cases d <;> revert a s <;> decide

theorem regrd (a : Addr) (s : Bool) (n : Nat) : Statement (.regrd a s n) := command a .read s

theorem regwr (a : Addr) (s : Bool) (vs : List Byte) : Statement (.regwr a s vs) := command a .write s

theorem readRegister (a : Addr) : Statement (.readRegister a) := (addrOnly _ a).trans rfl

theorem writeRegister (a : Addr) (v : Byte) : Statement (.writeRegister a v) := (addrImm _ a v).trans rfl

theorem readRegisterAS (a : Addr) : Statement (.readRegisterAS a) := (addrOnly _ a).trans rfl

theorem writeRegisterAS (a : Addr) (v : Byte) : Statement (.writeRegisterAS a v) := (addrImm _ a v).trans rfl

theorem multiReadRegister (a : Addr) (v : Byte) : Statement (.multiReadRegister a v) := (addrImm _ a v).trans rfl

theorem multiWriteRegister (a : Addr) (vs : List Byte) : Statement (.multiWriteRegister a vs) :=
  (addrImm 0x06 a _).trans rfl

theorem enableOptions (a : Addr) (v : Byte) : Statement (.enableOptions a v) := (addrImm _ a v).trans rfl

theorem disableOptions (a : Addr) (v : Byte) : Statement (.disableOptions a v) := (addrImm _ a v).trans rfl

theorem setAckstat : Statement .setAckstat := by
  unfold Statement
  decide

theorem enableInterrupts (v : Byte) : Statement (.enableInterrupts v) := (immOnly _ v).trans rfl

theorem disableInterrupts (v : Byte) : Statement (.disableInterrupts v) := (immOnly _ v).trans rfl

theorem enableEndpointInterrupts (v : Byte) : Statement (.enableEndpointInterrupts v) := (immOnly _ v).trans rfl

theorem disableEndpointInterrupts (v : Byte) : Statement (.disableEndpointInterrupts v) := (immOnly _ v).trans rfl

theorem clearInterruptStatus (v : Byte) : Statement (.clearInterruptStatus v) := (immOnly _ v).trans rfl

theorem clearEndpointInterruptStatus (v : Byte) : Statement (.clearEndpointInterruptStatus v) := (immOnly _ v).trans rfl

theorem getEnabledInterruptStatus : Statement .getEnabledInterruptStatus := by
  unfold Statement
  decide

theorem getEnabledEndpointInterruptStatus : Statement .getEnabledEndpointInterruptStatus := by
  unfold Statement
  decide

theorem masterEnable : Statement .masterEnable := by
  unfold Statement
  decide

theorem masterDisable : Statement .masterDisable := by
  unfold Statement
  decide

theorem reset : Statement .reset := by
  unfold Statement
  decide

theorem start (r : UsbRole) : Statement (.start r) := by
  cases r <;> unfold Statement <;> decide

theorem scanBus : Statement .scanBus := by
  unfold Statement
  decide

theorem registerCallback (cb : Option CallbackRef) : Statement (.registerCallback cb) := by
  cases cb with
  | none => rfl
  | some r => exact (show mkWord 0x17 0 0 0 1 &&& (0xFFFFFE : BitVec 24) = 0xB80000 by decide)

theorem illegal00 (low : BitVec 19) : Statement (.illegal00 low) := by
  have h : (0xF80000 : BitVec 24) = (31#5 ++ 0#19 : BitVec 24) := by decide
  show (0#5 ++ low : BitVec 24) &&& 0xF80000 = 0
  rw [h, BitVec.and_append]
  simp

theorem illegal18to1F (low : BitVec 22) : Statement (.illegal18to1F low) := by
  have h : (0xC00000 : BitVec 24) = (3#2 ++ 0#22 : BitVec 24) := by decide
  show (0b11#2 ++ low : BitVec 24) &&& 0xC00000 = 0xC00000
  rw [h, BitVec.and_append]
  simp

theorem onSetup : Statement .onSetup := by
  unfold Statement
  decide

theorem onInBufAvail : Statement .onInBufAvail := by
  unfold Statement
  decide

theorem onResetDone : Statement .onResetDone := by
  unfold Statement
  decide

theorem onConnectDetect : Statement .onConnectDetect := by
  unfold Statement
  decide

end Sys2Proof.Laws.EncodeRow
end

