-- ==== Sys2Proof/Tests/Slice0.lean ====
section
/-! SUPPORT. The model's own tests. Expected values are those of the spec: the words of V9 to V16, the examples of the rules and the
vectors V20 to V87 of 95_test_vectors.md (all under test configuration T0). The second part shows, for each statement with hypotheses, a
state and operands that meet them. -/

namespace Sys2Proof.Tests

open Sys2Proof.Machine

/-! ## Helpers -/

/-- A chip that answers with these bytes. -/
def bytes (bs : List Byte) : List ChipAnswer := bs.map fun b => ⟨some b⟩

/-- A failing exchange. -/
def broken : ChipAnswer := ⟨none⟩

/-- An idle block under test configuration T0, in a role, before a chip that answers as said. -/
def block (r : Role) (chip : List ChipAnswer) : State :=
  { State.reset with cfg := Cfg.t0, role := r, intArmed := r != .unset, chip := chip }

/-- Quiet collaborators. -/
def quiet (ok : Bool) : CollabAnswer := ⟨[], ok⟩

/-- The state an outcome gives. -/
def after : Host.Outcome State Fault Refusal → State
  | .next t => t
  | .fault _ => State.reset
  | .refused _ => State.reset

/-- What an operation leaves on the operation port and in the trace. -/
def seen (o : Host.Outcome State Fault Refusal) : List Answer × List Event := ((after o).results, (after o).trace)

/-- A single transaction of one data byte. -/
def tr (c b : Byte) (d v : Byte) : List Event := [.ss false, .x c (some b), .x d (some v), .ss true]

/-! ## Well-formedness -/

theorem test_illFormed_regrd : ¬ Instr.WellFormed (.regrd 0 false 256) := by decide
theorem regwr_bound (a : Addr) (f : Bool) (vs : List Byte) : Instr.WellFormed (.regwr a f vs) ↔ vs.length ≤ 255 :=
  Iff.of_eq Nat.ble_eq
theorem multiWrite_bound (a : Addr) (vs : List Byte) : Instr.WellFormed (.multiWriteRegister a vs) ↔ vs.length ≤ 255 :=
  Iff.of_eq Nat.ble_eq
theorem test_illFormed_regwr : ¬ Instr.WellFormed (.regwr 0 false (List.replicate 256 0)) := by
  rw [regwr_bound, List.length_replicate]
  decide
theorem test_illFormed_multiWrite : ¬ Instr.WellFormed (.multiWriteRegister 0 (List.replicate 256 0)) := by
  rw [multiWrite_bound, List.length_replicate]
  decide
theorem test_wellFormed_bounds :
    Instr.WellFormed (.regrd 0 false 255) ∧ Instr.WellFormed (.multiWriteRegister 0 (List.replicate 255 0)) := by
  rw [multiWrite_bound, List.length_replicate]
  decide

/-! ## Decoding of written-out words (V9; R81, R85, R89) -/

theorem test_decode_access :
    decode (.op 0b00001_000_11111_000_00000000 [] 0) = .ok (.readRegister 31) ∧
    decode (.op 0b00010_000_11011_000_11000001 [] 0) = .ok (.writeRegister 27 0xC1) ∧
    decode (.op 0b00011_000_10011_000_00000000 [] 0) = .ok (.readRegisterAS 19) ∧
    decode (.op 0b00100_000_00111_000_01000000 [] 0) = .ok (.writeRegisterAS 7 0x40) ∧
    decode (.op 0b00101_000_00100_000_00001000 [] 0) = .ok (.multiReadRegister 4 8) ∧
    decode (.op 0b00110_000_00010_000_00000011 [0x10, 0x20, 0x30] 0) = .ok (.multiWriteRegister 2 [0x10, 0x20, 0x30]) ∧
    decode (.op 0b00111_000_11011_000_00001000 [] 0) = .ok (.enableOptions 27 0x08) ∧
    decode (.op 0b01000_000_11011_000_00001000 [] 0) = .ok (.disableOptions 27 0x08) ∧
    decode (.op 0b01001_000_00000_000_00000000 [] 0) = .ok .setAckstat :=
  ⟨rfl, rfl, rfl, rfl, rfl, rfl, rfl, rfl, rfl⟩

theorem test_decode_shadow :
    decode (.op 0x500020 [] 0) = .ok (.enableInterrupts 0x20) ∧
    decode (.op 0x580020 [] 0) = .ok (.disableInterrupts 0x20) ∧
    decode (.op 0x600030 [] 0) = .ok (.enableEndpointInterrupts 0x30) ∧
    decode (.op 0x680010 [] 0) = .ok (.disableEndpointInterrupts 0x10) ∧
    decode (.op 0x700020 [] 0) = .ok (.clearInterruptStatus 0x20) ∧
    decode (.op 0x780020 [] 0) = .ok (.clearEndpointInterruptStatus 0x20) ∧
    decode (.op 0x800000 [] 0) = .ok .getEnabledInterruptStatus ∧
    decode (.op 0x880000 [] 0) = .ok .getEnabledEndpointInterruptStatus ∧
    decode (.op 0x900000 [] 0) = .ok .masterEnable ∧
    decode (.op 0x980000 [] 0) = .ok .masterDisable :=
  ⟨rfl, rfl, rfl, rfl, rfl, rfl, rfl, rfl, rfl, rfl⟩

theorem test_decode_reset_start_scan :
    decode (.op 0xA00000 [] 0) = .ok .reset ∧
    decode (.op 0xA80000 [] 0) = .ok (.start .host) ∧
    decode (.op 0xA80001 [] 0) = .ok (.start .peripheral) ∧
    decode (.op 0xB00000 [] 0) = .ok .scanBus ∧
    decode (.op 0xB80001 [] 9) = .ok (.registerCallback (some 9)) ∧
    decode (.op 0xB80000 [] 9) = .ok (.registerCallback none) :=
  ⟨rfl, rfl, rfl, rfl, rfl, rfl⟩

theorem test_decode_illegalRows :
    decode (.op 0x000000 [] 0) = .ok (.illegal00 0) ∧ decode (.op 0x07FFFF [] 0) = .ok (.illegal00 0x7FFFF) ∧
    decode (.op 0xC00000 [] 0) = .ok (.illegal18to1F 0) ∧ decode (.op 0xF80000 [] 0) = .ok (.illegal18to1F 0x380000) :=
  ⟨rfl, rfl, rfl, rfl⟩

theorem test_decode_bus :
    decode (.bus [0b11001010, 0x20]) = .ok (.regwr 25 false [0x20]) ∧
    decode (.bus [0b10011001, 0x00]) = .ok (.regrd 19 true 1) ∧
    decode (.bus [0b00000100, 0x00]) = .error .commandBit2 :=
  ⟨rfl, rfl, rfl⟩

theorem test_decode_handlers :
    decode (.evt 0b0001) = .ok .onSetup ∧ decode (.evt 0b0010) = .ok .onInBufAvail ∧
    decode (.evt 0b0100) = .ok .onResetDone ∧ decode (.evt 0b1000) = .ok .onConnectDetect ∧
    decode (.evt 0b0111) = .ok .onSetup ∧ decode (.evt 0b0000) = .error .noHandler :=
  ⟨rfl, rfl, rfl, rfl, rfl, rfl⟩

theorem test_decode_malformed :
    decode (.op 0x09F800 [] 0) = .error .z1NotZero ∧ decode (.op 0x08F900 [] 0) = .error .z2NotZero ∧
    decode (.op 0x08F801 [] 0) = .error .immNotZero ∧ decode (.op 0x480800 [] 0) = .error .addrNotUsed ∧
    decode (.op 0xA80002 [] 0) = .error .immReserved ∧ decode (.op 0xB80003 [] 0) = .error .immReserved :=
  ⟨rfl, rfl, rfl, rfl, rfl, rfl⟩

theorem test_tableWords :
    decodeTableWord 8 0x00 = some (.regrd 0 false 1) ∧ decodeTableWord 8 0xFB = some (.regwr 31 true [0]) ∧
    decodeTableWord 24 0x08F800 = some (.readRegister 31) ∧ decodeTableWord 8 0x08 = some .onConnectDetect :=
  ⟨rfl, rfl, rfl, rfl⟩

/-! ## One step each -/

/-- V24's transaction presented raw. -/
theorem test_regrd : seen (exec (.regrd 19 true 1) (block .unset (bytes [0x00, 0x07]))) =
    ([⟨.ok, [0x07]⟩], tr 0x99 0x00 0x00 0x07) := by decide

/-- V23's transaction presented raw. -/
theorem test_regwr : seen (exec (.regwr 27 false [0xC1]) (block .unset (bytes [0x11, 0x5A]))) =
    ([⟨.ok, [0x5A]⟩], tr 0xDA 0x11 0xC1 0x5A) := by decide

/-- V21. -/
theorem test_readRegister : seen (exec (.readRegister 31) (block .unset (bytes [0x00, 0x80]))) =
    ([⟨.ok, [0x80]⟩], tr 0xF8 0x00 0x00 0x80) := by decide

/-- V36: the flag goes out with the command byte that faults. -/
theorem test_readRegister_fault :
    let o := exec (.readRegister 5) { block .unset [broken] with ackstat := true }
    seen o = ([⟨.transportError, []⟩], [.ss false, .x 0x29 none, .ss true]) ∧ (after o).ackstat = false := by decide

/-- V23. -/
theorem test_writeRegister : seen (exec (.writeRegister 27 0xC1) (block .unset (bytes [0x11, 0x5A]))) =
    ([⟨.ok, [0x5A]⟩], tr 0xDA 0x11 0xC1 0x5A) := by decide

/-- V24. -/
theorem test_readRegisterAS : seen (exec (.readRegisterAS 19) (block .unset (bytes [0x00, 0x07]))) =
    ([⟨.ok, [0x07]⟩], tr 0x99 0x00 0x00 0x07) := by decide

/-- V25. -/
theorem test_writeRegisterAS : seen (exec (.writeRegisterAS 7 0x40) (block .unset (bytes [0x00, 0x00]))) =
    ([⟨.ok, [0x00]⟩], tr 0x3B 0x00 0x40 0x00) := by decide

/-- V28. -/
theorem test_multiRead : seen (exec (.multiReadRegister 4 2) (block .unset (bytes [0x00, 0x80, 0x06]))) =
    ([⟨.ok, [0x80, 0x06]⟩],
      [.ss false, .x 0x20 (some 0x00), .x 0x00 (some 0x80), .x 0x00 (some 0x06), .ss true]) := by decide

/-- V16: one byte over `MAX_BURST = 64`. -/
theorem test_multiRead_tooLong : seen (exec (.multiReadRegister 4 65) (block .unset [])) = ([⟨.refused, []⟩], []) := by decide

/-- V26. -/
theorem test_multiWrite :
    seen (exec (.multiWriteRegister 2 [0x10, 0x20, 0x30]) (block .unset (bytes [0x00, 0xA1, 0xA2, 0xA3]))) =
    ([⟨.ok, []⟩], [.ss false, .x 0x12 (some 0x00), .x 0x10 (some 0xA1), .x 0x20 (some 0xA2), .x 0x30 (some 0xA3),
      .ss true]) := by decide

/-- V27: no data byte, and the flag goes out all the same. -/
theorem test_multiWrite_empty :
    seen (exec (.multiWriteRegister 2 []) { block .unset (bytes [0x00]) with ackstat := true }) =
    ([⟨.ok, []⟩], [.ss false, .x 0x13 (some 0x00), .ss true]) := by decide

/-- V34: the read half takes the flag. -/
theorem test_enableOptions :
    seen (exec (.enableOptions 27 0x08) { block .unset (bytes [0x00, 0xC1, 0x00, 0x00]) with ackstat := true }) =
    ([⟨.ok, []⟩], tr 0xD9 0x00 0x00 0xC1 ++ tr 0xDA 0x00 0xC9 0x00) := by decide

/-- V35: no write after a faulted read. -/
theorem test_enableOptions_fault :
    seen (exec (.enableOptions 27 0x08) (block .unset (bytes [0x00] ++ [broken]))) =
    ([⟨.transportError, []⟩], [.ss false, .x 0xD8 (some 0x00), .x 0x00 none, .ss true]) := by decide

/-- V33. -/
theorem test_disableOptions : seen (exec (.disableOptions 27 0x08) (block .unset (bytes [0x00, 0xC9, 0x00, 0x00]))) =
    ([⟨.ok, []⟩], tr 0xD8 0x00 0x00 0xC9 ++ tr 0xDA 0x00 0xC1 0x00) := by decide

/-- V20. -/
theorem test_setAckstat :
    let o := exec .setAckstat (block .unset [])
    (after o).ackstat = true ∧ seen o = ([⟨.ok, []⟩], []) := by decide

/-- V50. -/
theorem test_enableInterrupts :
    let o := exec (.enableInterrupts 0x20) (block .host (bytes [0, 0, 0, 0]))
    (after o).enabledTopIRQ = 0x20 ∧ seen o = ([⟨.ok, []⟩], tr 0xD0 0 0x00 0 ++ tr 0xD2 0 0x20 0) := by decide

/-- V63: the mask is changed although the write-through fails. -/
theorem test_enableInterrupts_fault :
    let o := exec (.enableInterrupts 0x20) (block .host [broken])
    (after o).enabledTopIRQ = 0x20 ∧ (after o).results = [⟨.transportError, []⟩] := by decide

/-- V51. -/
theorem test_disableInterrupts :
    let o := exec (.disableInterrupts 0x40) { block .host (bytes [0x00, 0x60, 0, 0]) with enabledTopIRQ := 0x60 }
    (after o).enabledTopIRQ = 0x20 ∧ seen o = ([⟨.ok, []⟩], tr 0xD0 0 0x00 0x60 ++ tr 0xD2 0 0x20 0) := by decide

/-- V55, V54. -/
theorem test_enableEndpointInterrupts :
    (let o := exec (.enableEndpointInterrupts 0x30) (block .peripheral (bytes [0, 0, 0, 0]))
     (after o).enabledEndpointIRQ = 0x30 ∧ (after o).trace = tr 0x60 0 0x00 0 ++ tr 0x62 0 0x30 0) ∧
    seen (exec (.enableEndpointInterrupts 0x30) (block .host [])) = ([⟨.ok, []⟩], []) := by decide

/-- V56, V54. -/
theorem test_disableEndpointInterrupts :
    (let o := exec (.disableEndpointInterrupts 0x08)
        { block .peripheral (bytes [0x00, 0x28, 0, 0]) with enabledEndpointIRQ := 0x28 }
     (after o).enabledEndpointIRQ = 0x20 ∧ (after o).trace = tr 0x60 0 0x00 0x28 ++ tr 0x62 0 0x20 0) ∧
    seen (exec (.disableEndpointInterrupts 0x30) (block .host [])) = ([⟨.ok, []⟩], []) := by decide

/-- V57, in both roles. -/
theorem test_clearInterruptStatus :
    seen (exec (.clearInterruptStatus 0x20) (block .host (bytes [0, 0]))) = ([⟨.ok, []⟩], tr 0xCA 0 0x20 0) ∧
    seen (exec (.clearInterruptStatus 0x20) (block .peripheral (bytes [0, 0]))) = ([⟨.ok, []⟩], tr 0x6A 0 0x20 0) := by
  decide

/-- V58, V54. -/
theorem test_clearEndpointInterruptStatus :
    seen (exec (.clearEndpointInterruptStatus 0x20) (block .peripheral (bytes [0, 0]))) = ([⟨.ok, []⟩], tr 0x5A 0 0x20 0) ∧
    seen (exec (.clearEndpointInterruptStatus 0x20) (block .host [])) = ([⟨.ok, []⟩], []) := by decide

/-- V59. -/
theorem test_getEnabledInterruptStatus :
    seen (exec .getEnabledInterruptStatus { block .host (bytes [0x00, 0x60]) with enabledTopIRQ := 0x20 }) =
    ([⟨.ok, [0x20]⟩], tr 0xC8 0 0x00 0x60) := by decide

/-- V60, V54. -/
theorem test_getEnabledEndpointInterruptStatus :
    seen (exec .getEnabledEndpointInterruptStatus
      { block .peripheral (bytes [0x00, 0x21]) with enabledEndpointIRQ := 0x28 }) =
      ([⟨.ok, [0x20]⟩], tr 0x58 0 0x00 0x21) ∧
    seen (exec .getEnabledEndpointInterruptStatus (block .host [])) = ([⟨.ok, [0x00]⟩], []) := by decide

/-- V61. -/
theorem test_masterEnable : seen (exec .masterEnable (block .host (bytes [0, 0, 0, 0]))) =
    ([⟨.ok, []⟩], tr 0x80 0 0x00 0 ++ tr 0x82 0 0x01 0) := by decide

/-- V62. -/
theorem test_masterDisable : seen (exec .masterDisable (block .host (bytes [0x00, 0x01, 0, 0]))) =
    ([⟨.ok, []⟩], tr 0x80 0 0x00 0x01 ++ tr 0x82 0 0x00 0) := by decide

/-- V68. -/
theorem test_reset :
    let o := exec .reset { block .host (bytes
      [0x00, 0x10, 0x00, 0x00, 0x00, 0x30, 0x00, 0x00, 0x00, 0x00, 0x00, 0x01, 0x00, 0x01, 0, 0, 0, 0, 0, 0]) with
      ackstat := true, enabledTopIRQ := 0x60 }
    (after o).enabledTopIRQ = 0 ∧ (after o).ackstat = false ∧ seen o = ([⟨.ok, []⟩],
      tr 0x79 0 0 0x10 ++ tr 0x7A 0 0x30 0 ++ tr 0x78 0 0 0x30 ++ tr 0x7A 0 0x10 0 ++ tr 0x68 0 0 0 ++ tr 0x68 0 0 0x01
        ++ tr 0x80 0 0 0x01 ++ tr 0x82 0 0 0 ++ tr 0xD2 0 0 0 ++ tr 0xCA 0 0xFF 0) := by decide

/-- V70, V72: four reads without the stable bit; no role. -/
theorem test_reset_timeout :
    (after (exec .reset (block .host (bytes (List.replicate 24 0))))).results = [⟨.hardwareTimeout, []⟩] ∧
    seen (exec .reset (block .unset [])) = ([⟨.refused, []⟩], []) := by decide

/-- V65, V67. -/
theorem test_start :
    (let o := exec (.start .host) (block .unset (bytes [0, 0, 0, 0]))
     (after o).role = .host ∧ (after o).intArmed = true ∧ seen o = ([⟨.ok, []⟩], tr 0xD8 0 0 0 ++ tr 0xDA 0 0xC1 0)) ∧
    seen (exec (.start .host) (block .peripheral [])) = ([⟨.refused, []⟩], []) := by decide

/-- V66. -/
theorem test_start_peripheral :
    let o := exec (.start .peripheral) (block .unset [])
    (after o).role = .peripheral ∧ (after o).intArmed = true ∧ seen o = ([⟨.ok, []⟩], []) := by decide

/-- R180's example. -/
theorem test_scanBus : seen (exec .scanBus (block .host (bytes [0, 0, 0, 0, 0, 0, 0, 0x40]))) =
    ([⟨.ok, [1]⟩], tr 0xE8 0 0 0 ++ tr 0xEA 0 0x04 0 ++ tr 0xE8 0 0 0 ++ tr 0xF8 0 0 0x40) := by decide

/-- V49, V64. -/
theorem test_scanBus_timeout :
    (after (exec .scanBus (block .host (bytes [0, 0, 0, 0, 0, 4, 0, 4, 0, 4, 0, 4])))).results = [⟨.hardwareTimeout, []⟩] ∧
    seen (exec .scanBus (block .peripheral [])) = ([⟨.refused, []⟩], []) := by decide

/-- V73. -/
theorem test_registerCallback :
    (after (exec (.registerCallback (some 2)) { block .unset [] with cb := some 1 })).cb = some 2 ∧
    (after (exec (.registerCallback none) { block .unset [] with cb := some 1 })).cb = none := by decide

/-- V10, V11. -/
theorem test_illegal :
    seen (exec (.illegal00 0) (block .host [])) = ([⟨.refused, []⟩], []) ∧
    seen (exec (.illegal18to1F 0) (block .unset [])) = ([⟨.refused, []⟩], []) := by decide

/-- V74, the handler's part. -/
theorem test_onSetup_setAddress :
    let o := exec .onSetup (block .peripheral (bytes [0, 0, 0, 0x00, 0x05, 0x07, 0, 0, 0, 0, 0, 0, 0]))
    (after o).rxbuf = [(0, 0x00), (1, 0x05), (2, 0x07), (3, 0), (4, 0), (5, 0), (6, 0), (7, 0)] ∧
    (after o).trace = tr 0x5A 0 0x20 0 ++ ([.ss false, .x 0x20 (some 0), .x 0 (some 0x00), .x 0 (some 0x05),
      .x 0 (some 0x07), .x 0 (some 0), .x 0 (some 0), .x 0 (some 0), .x 0 (some 0), .x 0 (some 0), .ss true] : List Event)
      ++ tr 0x99 0 0 0 := by decide

/-- V77: a fault in the burst; the bytes received stay, and nothing is dispatched. -/
theorem test_onSetup_fault :
    let o := exec .onSetup (block .peripheral (bytes [0, 0, 0, 0x80, 0x06] ++ [broken]))
    (after o).rxbuf = [(0, 0x80), (1, 0x06)] ∧
    (after o).trace.getLast? = some (.log (.fault .transportError)) := by decide

/-- V78. -/
theorem test_onInBufAvail :
    let o := exec .onInBufAvail { block .peripheral (bytes [0x00, 0x30, 0, 0]) with enabledEndpointIRQ := 0x30 }
    (after o).enabledEndpointIRQ = 0x20 ∧ seen o = ([], tr 0x60 0 0 0x30 ++ tr 0x62 0 0x20 0) := by decide

/-- V79. -/
theorem test_onResetDone :
    let o := exec .onResetDone { block .peripheral (bytes (List.replicate 12 0)) with enabledTopIRQ := 0x80 }
    (after o).enabledEndpointIRQ = 0x20 ∧ seen o = ([], tr 0x6A 0 0x80 0 ++ tr 0x60 0 0 0 ++ tr 0x62 0 0x20 0
      ++ tr 0x70 0 0 0 ++ tr 0x72 0 0x80 0 ++ tr 0x3A 0 0x40 0) := by decide

/-- V40, the handler's part. -/
theorem test_onConnectDetect_attach :
    let o := exec .onConnectDetect { block .host (bytes [0, 0x80, 0, 0xC1, 0, 0, 0, 0x60, 0, 0]) with
      cb := some 5, collab := [quiet true, quiet true, quiet true] }
    (after o).conn = true ∧ (after o).bstate = .ready ∧ (after o).trace =
      tr 0xF8 0 0 0x80 ++ tr 0xD8 0 0 0xC1 ++ tr 0xDA 0 0xC9 0 ++ tr 0xC8 0 0 0x60
        ++ ([.call .performBusReset, .delay .settle, .call .performEnumeration, .log (.enumResult true), .delay .stabilize,
          .notify 5 true] : List Event) ++ tr 0xCA 0 0x20 0 := by decide

/-- V87: faults in step 3 and in the acknowledge. -/
theorem test_onConnectDetect_faults :
    let o := exec .onConnectDetect { block .host (bytes [0, 0, 0] ++ [broken] ++ bytes [0] ++ [broken]) with
      cb := some 5, conn := true, bstate := .ready, collab := [quiet true] }
    (after o).conn = false ∧ (after o).bstate = .noDevice ∧ (after o).trace =
      tr 0xF8 0 0 0 ++ ([.ss false, .x 0xD8 (some 0), .x 0 none, .ss true, .log (.fault .transportError), .notify 5 false,
        .ss false, .x 0xCA (some 0), .x 0x20 none, .ss true, .log (.fault .transportError)] : List Event) := by decide

/-- V82's snapshot, V84: a fault in the first read ends the run. -/
theorem test_dispatcher_entry :
    (after (step { block .peripheral (bytes [0, 0x80, 0, 0x30]) with
      irqPend := true, enabledTopIRQ := 0x80, enabledEndpointIRQ := 0x30 })).sel = 0b0111 ∧
    (after (step { block .peripheral (bytes [0] ++ [broken]) with irqPend := true, ackstat := true })).trace =
      [.ss false, .x 0x69 (some 0), .x 0 none, .ss true, .log (.fault .transportError)] := by decide

/-- V86, R211: an edge before `start` is lost, one in the middle of an operation is kept. -/
theorem test_edges :
    (after (step { block .unset [] with sched := [.edge] })).irqPend = false ∧
    (after (exec (.readRegister 1) { block .host (bytes [0, 0]) with midEdges := [false, true] })).irqPend = true ∧
    (after (exec (.readRegister 1) { block .host (bytes [0, 0]) with midEdges := [false, false, true] })).irqPend = false ∧
    (after (exec (.readRegister 1) { block .unset (bytes [0, 0]) with midEdges := [true] })).irqPend = false := by decide

/-! ## Witnesses: states and operands that meet the hypotheses of each statement, clause by clause -/

/-- The largest length is well formed. -/
theorem test_witness_DecodeEncodeRoundTrip :
    Instr.WellFormed (.regwr 31 true (List.replicate 255 0xA5)) ∧ Instr.WellFormed (.registerCallback (some 7)) := by
  rw [regwr_bound, List.length_replicate]
  decide

theorem test_witness_DecodedIsWellFormed :
    decode (.op 0x301002 [1, 2] 0) = .ok (.multiWriteRegister 2 [1, 2]) ∧ decode (.bus [0x98, 0]) = .ok (.regrd 19 false 1) :=
  ⟨rfl, rfl⟩

/-- Each clause; the last is an illegal word presented with a payload. -/
theorem test_witness_DecodedReadsBack :
    decode (.bus [0xFB, 0x01]) = .ok (.regwr 31 true [0x01]) ∧ decode (.op 0xB80001 [] 9) = .ok (.registerCallback (some 9)) ∧
    decode (.op 0xC00001 [5] 0) = .ok (.illegal18to1F 1) :=
  ⟨rfl, rfl, rfl⟩

/-- An idle block with one word to take. -/
def facing (r : Role) (w : OpWord) (payload : List Byte) : State := { block r [] with sched := [.op w payload 0] }

/-- One word for each way to be illegal (V10 to V16), at the ends of its range. -/
theorem test_witness_IllegalWordsAreRefused :
    (facing .unset 0x000000 [1]).sel = 0 ∧ (facing .unset 0x000000 [1]).irqPend = false ∧
    (facing .unset 0x000000 [1]).sched = .op 0x000000 [1] 0 :: [] ∧
    IllegalWord 0x000000 ∧ IllegalWord 0xC00000 ∧ IllegalWord 0xFFFFFF ∧ IllegalWord 0x09F800 ∧ IllegalWord 0x08F900 ∧
    IllegalWord 0x480800 ∧ IllegalWord 0x08F801 ∧ IllegalWord 0xB00080 ∧ IllegalWord 0xA80002 ∧ IllegalWord 0xB80080 := by
  refine ⟨rfl, rfl, rfl, ?_, ?_, ?_, ?_, ?_, ?_, ?_, ?_, ?_, ?_⟩ <;> simp only [IllegalWord] <;> decide

theorem test_witness_BurstTooLong :
    BurstTooLong Cfg.t0 0x282041 ∧ BurstTooLong Cfg.t0 0x30107F :=
  ⟨⟨4, 65, by decide, .inl (by decide)⟩, ⟨2, 127, by decide, .inr (by decide)⟩⟩

/-- V16's two words, bare. -/
theorem test_burstTooLong :
    seen (step (facing .host 0x282041 [])) = ([⟨.refused, []⟩], []) ∧
    seen (step (facing .host 0x30107F [])) = ([⟨.refused, []⟩], []) := by decide

theorem test_witness_StepRunsDecodedInstruction :
    (facing .host 0x08F800 []).sel = 0 ∧ (facing .host 0x08F800 []).irqPend = false ∧
    (facing .host 0x08F800 []).sched = .op 0x08F800 [] 0 :: [] ∧
    decode (.op 0x08F800 [] 0) = .ok (.readRegister 31) ∧
    ({ block .host [] with sched := [.bus [0x98, 0]] } : State).sched = .bus [0x98, 0] :: [] ∧
    decode (.bus [0x98, 0]) = .ok (.regrd 19 false 1) ∧
    decode (.evt ({ block .host [] with sel := 0b1000 } : State).sel) = .ok .onConnectDetect :=
  ⟨rfl, rfl, rfl, rfl, rfl, rfl, rfl⟩

theorem test_witness_EdgesAndIdling :
    ({ block .host [] with sched := [.edge] } : State).sched = .edge :: [] ∧ (block .host []).sel = 0 ∧
    (block .host []).irqPend = false ∧ (block .host []).sched = [] :=
  ⟨rfl, rfl, rfl, rfl⟩

/-- A pending event, and what follows for a status that selects, one that does not, and a fault. -/
theorem test_witness_DispatcherEntryHost :
    let s : State := { block .host (bytes [0, 0x20]) with irqPend := true, enabledTopIRQ := 0x20 }
    s.sel = 0 ∧ s.irqPend = true ∧ s.role = .host ∧ (after (step s)).sel = 0b1000 ∧
    (after (step { s with enabledTopIRQ := 0xDF })).sel = 0 ∧
    (after (step { s with chip := [broken] })).trace.getLast? = some (.log (.fault .transportError)) := by decide

theorem test_witness_DispatcherEntryPeripheral :
    let s : State := { block .peripheral (bytes [0, 0xFF, 0, 0xFF]) with
      irqPend := true, enabledTopIRQ := 0x80, enabledEndpointIRQ := 0x30 }
    s.sel = 0 ∧ s.irqPend = true ∧ s.role = .peripheral ∧ (after (step s)).sel = 0b0111 ∧
    (after (step { s with chip := bytes [0, 0x80, 0] ++ [broken] })).sel = 0 ∧
    (after (step { s with chip := bytes [0, 0x80, 0] ++ [broken] })).trace.length = 9 := by decide

theorem test_witness_HandlersRunInAscendingOrder :
    ({ block .peripheral [] with sel := 0b0110 } : State).sel ≠ 0 ∧ ({ block .host [] with sel := 0b1000 } : State).sel ≠ 0 := by
  decide

/-- The refusal occurs; a word that is no instruction, and one with a payload that is not its own. -/
theorem test_witness_StepStopsOnlyOnMalformedItems :
    step { block .host [] with sched := [.bus [0x04]] } = .refused .notATransaction ∧
    decode (.op 0x09F800 [] 0) = .error .z1NotZero ∧ decode (.op 0x301003 [1, 2] 0) = .error .payloadLength :=
  ⟨rfl, rfl, rfl⟩

/-- A schedule of the three kinds of item, with an edge in the middle of an operation. -/
theorem test_witness_EveryRunEnds :
    let s : State := { block .host [] with sched := [.edge, .bus [0x98, 0], .op 0x08F800 [] 0], midEdges := [false, true] }
    ScheduleFormed s ∧ stepsOwed s = 24 := by
  refine ⟨fun bytes h => ?_, by decide⟩
  obtain rfl : bytes = [0x98, 0] := by simpa using h
  exact ⟨_, rfl⟩

/-- V18, V19. -/
theorem test_witness_ExchangeSequence :
    (exchangeSequence [0xF8, 0x00] (block .unset (bytes [0, 0x80]))).1 = ⟨[0, 0x80], true⟩ ∧
    (exchangeSequence [0x10, 0x00, 0x00] (block .unset (bytes [0] ++ [broken] ++ bytes [0x33]))).1 = ⟨[0], false⟩ := by decide

/-- A single read that goes through and one that fails, in the command byte and in the data byte. -/
theorem test_witness_ReadRegisterResult :
    (block .unset (bytes [0, 0x80])).busOk [0xF8, 0x00] = true ∧ (block .unset [broken]).busOk [0xF8, 0x00] = false ∧
    (block .unset (bytes [0] ++ [broken])).busOk [0xF8, 0x00] = false ∧ cmdByte 31 .read false = 0xF8 := by decide

theorem test_witness_WriteRegisterResult :
    (block .unset (bytes [0x11, 0x5A])).busOk [0xDA, 0xC1] = true ∧ (block .unset [broken]).busOk [0xDA, 0xC1] = false ∧
    cmdByte 27 .write false = 0xDA := by decide

theorem test_witness_AcknowledgeForms :
    (block .unset (bytes [0, 7])).busOk [0x99, 0x00] = true ∧ (block .unset [broken]).busOk [0x99, 0x00] = false ∧
    (block .unset (bytes [0, 7])).busOk [0x3B, 0x40] = true ∧ (block .unset [broken]).busOk [0x3B, 0x40] = false ∧
    cmdByte 19 .read true = 0x99 ∧ cmdByte 7 .write true = 0x3B := by decide

/-- Bursts of no byte and of `MAX_BURST` bytes are within the bound; a chip for each of the clauses about what it hands out. -/
theorem test_witness_MultiReadResult :
    (0 : Byte).toNat ≤ (block .unset []).cfg.maxBurst ∧ (64 : Byte).toNat ≤ (block .unset []).cfg.maxBurst ∧
    (block .unset (bytes [9, 1, 2])).chip = ⟨some 9⟩ :: [1, 2].map (fun b => ⟨some b⟩) ++ [] ∧
    (block .unset (bytes [9, 1] ++ [broken])).chip =
      ⟨some 9⟩ :: [1].map (fun b => ⟨some b⟩) ++ ⟨none⟩ :: [] ∧
    (block .unset (bytes [9, 7, 7, 8, 1, 2])).chip =
      ⟨some 9⟩ :: bytes [7, 7] ++ ⟨some 8⟩ :: [1, 2].map (fun b => ⟨some b⟩) ++ [] ∧
    (bytes [7, 7]).all (·.miso.isSome) = true ∧ [(1 : Byte), 2].length = (2 : Byte).toNat ∧
    [(1 : Byte)].length < (2 : Byte).toNat := by decide

theorem test_witness_MultiWriteResult :
    (List.replicate 64 (0 : Byte)).length ≤ (block .unset []).cfg.maxBurst ∧ ([] : List Byte).length < 256 := by decide

theorem test_witness_ReadModifyWrite :
    (block .unset (bytes [0, 0xC1, 0, 0])).readOk 27 = true ∧ (block .unset (bytes [0] ++ [broken])).readOk 27 = false := by
  decide

/-- Each role, with its address: for every statement about the shadow state, `start`, `scanBus()` and the handlers. -/
theorem test_witness_roles :
    (block .unset []).role = .unset ∧ (block .host []).role = .host ∧ (block .peripheral []).role = .peripheral ∧
    (26 : Addr) = (block .host []).cfg.host.topIen ∧ (14 : Addr) = (block .peripheral []).cfg.periph.topIen ∧
    (25 : Addr) = (block .host []).cfg.host.topIrq ∧ (13 : Addr) = (block .peripheral []).cfg.periph.topIrq ∧
    (16 : Addr) = (block .host []).cfg.host.gate ∧ (16 : Addr) = (block .peripheral []).cfg.periph.gate := by decide

theorem test_witness_ShadowNeedsARole : isShadow .masterEnable = true ∧ (block .unset []).role = .unset := by decide

theorem test_witness_OperationsAndMasks :
    let s := block .peripheral (bytes [0, 0, 0, 0])
    isOp (.enableEndpointInterrupts 1) = true ∧ refusedCase s (.enableEndpointInterrupts 1) = false ∧
    (after (exec (.enableEndpointInterrupts 1) s)).enabledEndpointIRQ = 1 := by decide

theorem test_witness_ResetZeroesMasksAndFlag : (block .peripheral []).role ≠ .unset := by decide

/-- A block in reset, the chip reset pulse done, and the poll after it. -/
def pulsed (s : State) : State := (s.afterRmw 15 (· ||| 0x20)).afterRmw 15 (· &&& ~~~0x20)

/-- Each clause: the pulse fails in its first or its second half; the first and the last allowed read of the wait fault or find the bit; no
read finds it. -/
theorem test_witness_ResetSequence :
    let hit (v : Byte) : Bool := v &&& 0x01 != 0
    let z (k : Nat) := bytes (List.replicate k 0)
    let p (c : List ChipAnswer) := pulsed (block .host (z 8 ++ c))
    (15 : Addr) = Cfg.t0.host.chipCtl ∧ (13 : Addr) = Cfg.t0.host.oscStat ∧ (16 : Addr) = Cfg.t0.host.gate ∧
    (block .host [broken]).rmwOk 15 (· ||| 0x20) = false ∧
    (block .host (z 4 ++ [broken])).rmwOk 15 (· ||| 0x20) = true ∧
    ((block .host (z 4 ++ [broken])).afterRmw 15 (· ||| 0x20)).rmwOk 15 (· &&& ~~~0x20) = false ∧
    ((block .host (z 8)).afterRmw 15 (· ||| 0x20)).rmwOk 15 (· &&& ~~~0x20) = true ∧
    (p [broken]).readOk 13 = false ∧
    (p (z 6 ++ [broken])).misses 13 hit [] 3 = true ∧ ((p (z 6 ++ [broken])).afterMisses 13 [] 3).readOk 13 = false ∧
    (p (bytes [0, 1])).readOk 13 = true ∧ hit ((p (bytes [0, 1])).readByte 13) = true ∧
    (p (z 7 ++ bytes [1])).misses 13 hit [] 3 = true ∧
    hit (((p (z 7 ++ bytes [1])).afterMisses 13 [] 3).readByte 13) = true ∧
    (p (z 8)).misses 13 hit [] 4 = true := by decide

theorem test_witness_StartOnce : (block .unset []).role = .unset ∧ (block .peripheral []).role ≠ .unset := by decide

/-- Each clause, at the first and at the last allowed read. -/
theorem test_witness_ScanBusResult :
    let sampled (v : Byte) : Bool := v &&& 0x04 == 0x00
    let d : List Event := [.delay .samplePoll]
    let q (c : List ChipAnswer) := (block .host (bytes [0, 0, 0, 0] ++ c)).afterRmw 29 (· ||| 0x04)
    let m := bytes [0, 4, 0, 4, 0, 4]
    (29 : Addr) = Cfg.t0.host.sampleReg ∧ (29 : Addr) = Cfg.t0.host.sampleDone ∧
    (block .host [broken]).rmwOk 29 (· ||| 0x04) = false ∧ (block .host (bytes [0, 0, 0, 0])).rmwOk 29 (· ||| 0x04) = true ∧
    (q [broken]).readOk 29 = false ∧
    (q (m ++ [broken])).misses 29 sampled d 3 = true ∧ ((q (m ++ [broken])).afterMisses 29 d 3).readOk 29 = false ∧
    sampled ((q (bytes [0, 0])).readByte 29) = true ∧
    (q (m ++ bytes [0, 0])).misses 29 sampled d 3 = true ∧
    sampled (((q (m ++ bytes [0, 0])).afterMisses 29 d 3).readByte 29) = true ∧
    (q (m ++ bytes [0, 4])).misses 29 sampled d 4 = true := by decide

/-- A line-state read that finds no device, and one that faults. -/
theorem test_witness_ConnectDetectNotConnected :
    let s := block .host (bytes [0, 0x3F])
    (s.readOk 31 = true ∧ s.readByte 31 &&& 0xC0 = 0) ∧ (block .host [broken]).readOk 31 = false ∧
    (31 : Addr) = Cfg.t0.host.lineState := by decide

/-- The state of `onConnectDetect` after step 2a. -/
def sofOn (c : List ChipAnswer) : State :=
  ({ (block .host (bytes [0, 0x40] ++ c)).afterRead 31 with bstate := .connected }).afterRmw 27 (· ||| 0x08)

/-- A device is present; the start-of-frame access fails; the first and the last allowed frame read faults; no read shows the bit. -/
theorem test_witness_ConnectDetectAborted :
    let frame (v : Byte) : Bool := v &&& 0x40 != 0
    let z (k : Nat) := bytes (List.replicate k 0)
    let s := block .host (bytes [0, 0x40] ++ [broken])
    s.readOk 31 = true ∧ s.readByte 31 &&& 0xC0 ≠ 0 ∧
    ({ s.afterRead 31 with bstate := .connected } : State).rmwOk 27 (· ||| 0x08) = false ∧
    ({ (block .host (bytes [0, 0x40] ++ z 4)).afterRead 31 with bstate := .connected } : State).rmwOk 27 (· ||| 0x08) = true ∧
    (sofOn (z 4 ++ [broken])).readOk 25 = false ∧
    (sofOn (z 10 ++ [broken])).misses 25 frame [] 3 = true ∧ ((sofOn (z 10 ++ [broken])).afterMisses 25 [] 3).readOk 25 = false ∧
    (sofOn (z 12)).misses 25 frame [] 4 = true := by decide

/-- The frame bit seen on the first and on the last allowed read. -/
theorem test_witness_ConnectDetectConnected :
    let frame (v : Byte) : Bool := v &&& 0x40 != 0
    let c := bytes [0, 0, 0, 0, 0, 0x40]
    let c4 := bytes [0, 0, 0, 0, 0, 0, 0, 0, 0, 0, 0, 0x40]
    (3 : Nat) < Cfg.t0.framePollCap ∧ (sofOn c).readOk 25 = true ∧ frame ((sofOn c).readByte 25) = true ∧
    (sofOn c4).misses 25 frame [] 3 = true ∧ ((sofOn c4).afterMisses 25 [] 3).readOk 25 = true ∧
    frame (((sofOn c4).afterMisses 25 [] 3).readByte 25) = true := by decide

theorem test_witness_NotifyOnChange :
    false = (block .host []).conn ∧ true ≠ (block .host []).conn ∧ (block .host []).cb = none ∧
    ({ block .host [] with cb := some 5 } : State).cb = some 5 := by decide

/-- V40's chip and quiet collaborators. -/
theorem test_witness_AttachScenario :
    let s : State := { block .host (bytes [0, 0x80, 0, 0xC1, 0, 0, 0, 0x60, 0, 0]) with
      cb := some 5, collab := [quiet true, quiet true, quiet true] }
    s.cfg.Valid ∧ s.role = .host ∧ s.conn = false ∧ s.cb = some 5 ∧
    s.collab = ⟨[], true⟩ :: ⟨[], true⟩ :: ⟨[], true⟩ :: [] ∧
    s.chip = ⟨some 0⟩ :: ⟨some 0x80⟩ :: ⟨some 0⟩ :: ⟨some 0xC1⟩ :: ⟨some 0⟩ ::
      ⟨some 0⟩ :: ⟨some 0⟩ :: ⟨some 0x60⟩ :: ⟨some 0⟩ :: ⟨some 0⟩ :: [] ∧
    (0x80 : Byte) &&& 0xC0 ≠ 0 ∧ (0x60 : Byte) &&& s.cfg.b.frame ≠ 0 := by decide

/-- The acknowledge fails; it goes through and the burst fails; both go through with each of the three kinds of request. -/
theorem test_witness_SetupStatements :
    let outs : List Byte := cmdByte 4 .read false :: List.replicate 8 0x00
    let s (q : Byte) := block .peripheral (bytes [0, 0, 0, 0x80, q, 0, 0, 0, 0, 0, 0])
    let s1 (q : Byte) := (s q).afterWrite 11 0x20
    (11 : Addr) = Cfg.t0.periph.epIrq ∧ (4 : Addr) = Cfg.t0.periph.sudFifo ∧ Cfg.t0.reqGetStatus ≠ Cfg.t0.reqSetAddress ∧
    (block .peripheral [broken]).writeOk 11 0x20 = false ∧ (s 5).writeOk 11 0x20 = true ∧
    ((block .peripheral (bytes [0, 0, 0, 0x80] ++ [broken])).afterWrite 11 0x20).busOk outs = false ∧
    (s1 5).busOk outs = true ∧ ((s1 5).busData outs)[1]? = some Cfg.t0.reqSetAddress ∧
    (s1 0).busOk outs = true ∧ ((s1 0).busData outs)[1]? = some Cfg.t0.reqGetStatus ∧
    (s1 6).busOk outs = true ∧ ((s1 6).busData outs)[1]? = some 6 ∧ (6 : Byte) ≠ Cfg.t0.reqSetAddress ∧
    (6 : Byte) ≠ Cfg.t0.reqGetStatus := by decide

/-- A Host-role block that has a device, idle, with a word to take: the invariant holds of it, and it has a next state. -/
theorem test_witness_StepKeepsInv :
    let s : State := { facing .host 0x480000 [] with conn := true, bstate := .enumerating, enabledTopIRQ := 0x20 }
    Inv s ∧ step s = .next (after (step s)) :=
  ⟨⟨by decide, rfl, by decide, by decide, by decide, by decide, by decide, rfl, by decide⟩, rfl⟩

/-- Instructions that do change the registers the statement is about. -/
theorem test_witness_RegistersHaveNamedWriters :
    let p := block .peripheral (bytes [0, 0, 0, 0x80, 6, 0, 0, 0, 0, 0, 0])
    let h : State := { block .host (bytes [0, 0, 0, 0, 0, 0, 0, 0]) with conn := true, bstate := .ready }
    (after (exec (.start .peripheral) (block .unset []))).role ≠ (block .unset []).role ∧
    (after (exec .onConnectDetect h)).conn ≠ h.conn ∧ (after (exec (.registerCallback (some 1)) h)).cb ≠ h.cb ∧
    (after (exec .onSetup p)).rxbuf ≠ p.rxbuf ∧ (after (exec (.enableInterrupts 1) h)).enabledTopIRQ ≠ h.enabledTopIRQ ∧
    (after (exec (.enableEndpointInterrupts 1) p)).enabledEndpointIRQ ≠ p.enabledEndpointIRQ ∧
    (after (exec .setAckstat p)).results ≠ p.results ∧ rxPeek [(8, 1)] 8 = some 1 := by decide

/-- A step with a change to report: a detach with a callback. -/
theorem test_witness_NotificationOncePerTransition :
    let s : State := { block .host (bytes [0, 0, 0, 0, 0, 0, 0, 0]) with
      sel := 0b1000, conn := true, bstate := .ready, cb := some 5, collab := [quiet true] }
    (after (step s)).conn = false ∧ notifications (after (step s)).trace = [(5, false)] ∧
    owed s.cb s.conn (after (step s)).conn = [(5, false)] := by decide

theorem test_witness_RefusedExactly :
    isOp .reset = true ∧ refusedCase (block .unset []) .reset = true ∧ refusedCase (block .host []) .reset = false ∧
    refusedCase (block .host []) (.multiReadRegister 1 64) = false ∧
    refusedCase (block .host []) (.multiReadRegister 1 65) = true := by decide

theorem test_witness_PendingEventIsKept :
    let s : State := { block .host (bytes [0, 0]) with irqPend := true }
    exec (.readRegister 1) s = .next (after (exec (.readRegister 1) s)) ∧ s.irqPend = true :=
  ⟨rfl, rfl⟩

/-- An operation with bus activity, and one without. -/
theorem test_witness_BusActivityClearsAckstat :
    let s : State := { block .unset (bytes [0, 0]) with ackstat := true }
    isOp (.readRegister 1) = true ∧ (after (exec (.readRegister 1) s)).trace ≠ s.trace ∧
    (after (exec (.registerCallback none) s)).trace = s.trace ∧ (after (exec (.registerCallback none) s)).ackstat = true := by
  decide

/-- A read-modify-write entered with the flag set has two command bytes. -/
theorem test_witness_OneCommandCarriesAckstat :
    let s : State := { block .unset (bytes [0, 0, 0, 0]) with ackstat := true }
    isOp (.enableOptions 27 8) = true ∧ commandBytes (after (exec (.enableOptions 27 8) s)).trace = [0xD9, 0xDA] := by decide

/-- A first operation after power-on. -/
theorem test_witness_PowerOnValues : decode (.op 0x08F800 [] 0) = .ok (.readRegister 31) := by decide

/-- A callee that presents nothing. -/
theorem test_witness_CallsAndMasks :
    (({ block .host [] with collab := [quiet true] } : State).emit (.call .performBusReset)).collabAnswer.ops = [] := by decide

end Sys2Proof.Tests
end

/-! # Every step keeps the invariant (O54)

Three layers: the clauses of `Inv` under what a shared operation may change (`BusStep`, `CallStep`, `HandlerStep`); then every
instruction by its meaning (`exec_keeps_inv`); then arbitration (`fetch_keeps_inv`), from which the step follows. -/

namespace Sys2Proof.Machine

/-! ## The handlers selected (R89, R214) -/

theorem selBit_host : ∀ a : Bool, selBit a 3 &&& 0b0111 = 0 := by decide

theorem selBits_peripheral : ∀ a b c : Bool, (selBit a 0 ||| selBit b 1 ||| selBit c 2) &&& 0b1000 = 0 := by decide

/-- The snapshot selects handlers of the role only (R89). -/
theorem selLegal_selVector (c : Cfg) (r : Role) (t e : Byte) : selLegal r (selVector c r t e) := by
  cases r with
  | unset => rfl
  | host => exact selBit_host _
  | peripheral => exact selBits_peripheral _ _ _

theorem selLegal_zero (r : Role) : selLegal r 0 := by
  cases r <;> rfl

/-- Striking handlers leaves handlers of the role. -/
theorem selLegal_and {r : Role} {sel : Sel} (h : selLegal r sel) (x : Sel) : selLegal r (sel &&& x) := by
  have hand {m : Sel} (hm : sel &&& m = 0) : sel &&& x &&& m = 0 := by
    rw [BitVec.and_assoc, BitVec.and_comm x, ← BitVec.and_assoc, hm]
    exact BitVec.zero_and
  cases r with
  | unset =>
    have h0 : sel = 0 := h
    rw [h0]
    exact BitVec.zero_and
  | host => exact hand h
  | peripheral => exact hand h

/-! ## The invariant under what the shared operations change -/

theorem WellFramed.append {es fs : List Event} (h : WellFramed es) (hf : busRun .idle fs = some .idle) :
    WellFramed (es ++ fs) := by
  unfold WellFramed at *
  rw [busRun_append, h]
  exact hf

section
variable {s t : State} (h : Inv s)
include h

/-- A handler's step keeps the clauses it does not write; those on `RXBUF`, `CONN` and `BSTATE` are asked for. -/
theorem Inv.handlerStep (hs : HandlerStep s t) (memory : Memory.wf t.rxbuf = true)
    (hostOnly : s.role ≠ .host → t.conn = false ∧ t.bstate = .noDevice)
    (busState : (t.conn = true ∧ (t.bstate = .ready ∨ t.bstate = .enumerating)) ∨
      (t.conn = false ∧ t.bstate = .noDevice)) : Inv t where
  memory := memory
  framed := by
    obtain ⟨evs, htrace, hrun, -, -⟩ := hs.grows
    exact htrace ▸ h.framed.append hrun
  armed := by rw [hs.intArmed, hs.role]; exact h.armed
  pending hp := by
    rw [hs.intArmed]
    exact (hs.latch.2 hp).elim h.pending id
  endpoint hr := by
    rw [hs.role] at hr
    exact (hs.endpoint hr).trans (h.endpoint hr)
  hostOnly hr := hostOnly (hs.role ▸ hr)
  busState := busState
  handlers := by rw [hs.role, hs.sel]; exact h.handlers
  config := by rw [hs.cfg]; exact h.config

/-- Calls and the shadow operations write neither `RXBUF` nor `CONN` nor `BSTATE` (R228). -/
theorem Inv.callStep (hs : CallStep [] s t) : Inv t := by
  refine h.handlerStep hs.handler ?_ ?_ ?_ <;> simp only [hs.frame.rxbuf, hs.frame.conn, hs.frame.bstate]
  · exact h.memory
  · exact h.hostOnly
  · exact h.busState

theorem Inv.busStep (hs : BusStep s t) : Inv t := h.callStep hs.toCall

/-- In Host role either end of `onConnectDetect` is consistent (R174, R175). -/
theorem Inv.settled (hr : s.role = .host) (hs : Settled s t) : Inv t := by
  rcases hs with hs | ⟨b, hb, hs⟩
  · exact h.handlerStep hs.step (hs.rxbuf ▸ h.memory) (fun hn => absurd hr hn) (.inr ⟨hs.conn_eq, hs.bstate_eq⟩)
  · exact h.handlerStep hs.step (hs.rxbuf ▸ h.memory) (fun hn => absurd hr hn)
      (.inl ⟨hs.conn_eq, hs.bstate_eq ▸ hb⟩)

/-! ## The invariant under the named updates -/

theorem Inv.answer (a : Answer) : Inv (s.answer a) := { h with }

theorem Inv.fallingEdge : Inv s.fallingEdge :=
  { h with pending := fun hp => ((Bool.or_eq_true _ _).mp hp).elim h.pending id }

theorem Inv.clearShadow : Inv (clearShadow s) := { h with endpoint := fun _ => rfl }

theorem Inv.retireHandler : Inv (retireHandler s) := { h with handlers := selLegal_and h.handlers _ }

theorem Inv.sched (items : List Item) : Inv { s with sched := items } := { h with }

/-- The role fixed by `start` begins with the power-on values of the other role's registers (R155). -/
theorem Inv.started (hr : s.role = .unset) (r : UsbRole) : Inv { s with role := roleOf r, intArmed := true } :=
  have hsel : s.sel = 0 := by simpa only [hr, selLegal] using h.handlers
  { h with
    armed := ⟨fun _ => by cases r <;> exact Role.noConfusion, fun _ => rfl⟩
    pending := fun _ => rfl
    endpoint := fun _ => h.endpoint (hr ▸ Role.noConfusion)
    hostOnly := fun _ => h.hostOnly (hr ▸ Role.noConfusion)
    handlers := hsel ▸ selLegal_zero _ }

end

/-- The start of a dispatcher run (R212, R213): two reads at most, then the vector. -/
theorem Inv.takeInterrupt {s : State} (h : Inv s) : Inv (takeInterrupt s) := by
  have h0 : Inv { s with irqPend := false } := { h with pending := fun hp => absurd hp Bool.false_ne_true }
  have h1 := h0.busStep (busStep_statusTop { s with irqPend := false })
  unfold Machine.takeInterrupt
  split
  next t s1 htop =>
    rw [htop] at h1
    have h2 := h1.busStep (busStep_statusEp s1)
    split
    next e s2 hep =>
      rw [hep] at h2
      exact { h2 with handlers := selLegal_selVector _ _ _ _ }
    next k s2 hep =>
      rw [hep] at h2
      exact h2.busStep (busStep_logFault s2 k)
    next s2 hep =>
      rw [hep] at h2
      exact h2
  next k s1 htop =>
    rw [htop] at h1
    exact h1.busStep (busStep_logFault s1 k)
  next s1 htop =>
    rw [htop] at h1
    exact h1

/-! ## Sequences of bus activity -/

theorem busStep_andThen {s : State} {r : Res Unit × State} {f : State → Res Unit × State} (hr : BusStep s r.2)
    (hf : ∀ u, BusStep u (f u).2) : BusStep s (andThen r f).2 := by
  rcases r with ⟨_ | k | _, u⟩
  · exact hr.trans (hf u)
  · exact hr
  · exact hr

theorem busStep_clearPairs (ps : List (Addr × Addr)) (s : State) : BusStep s (clearPairs ps s).2 := by
  rw [clearPairs_eq]
  exact busStep_afterWrites _ s

theorem busStep_resetInterrupts (s : State) : BusStep s (resetInterrupts s).2 :=
  busStep_andThen (busStep_gateOff s) fun u => busStep_clearPairs _ u

theorem busStep_resetFromPoll (osc : Addr) (s : State) : BusStep s (resetFromPoll osc s).2 := by
  have hp := busStep_poll osc (oscStable s.cfg) id BusStep.refl s.cfg.oscPollCap s
  unfold resetFromPoll
  split
  next s1 he =>
    rw [he] at hp
    exact hp.trans (busStep_resetInterrupts s1)
  next s1 he =>
    rw [he] at hp
    exact hp.trans (busStep_resetInterrupts s1)
  next s1 he =>
    rw [he] at hp
    exact hp

/-- The bus steps of `reset()`, however far they go (R150 to R152, R154). -/
theorem busStep_resetBus (ctl osc : Addr) (s : State) : BusStep s (resetBus ctl osc s).2 :=
  busStep_andThen (busStep_enableOpts ctl _ s) fun u =>
    busStep_andThen (busStep_disableOpts ctl _ u) fun v => busStep_resetFromPoll osc v

theorem busStep_scanLines {s : State} {p : PollEnd × State} (hp : BusStep s p.2) : BusStep s (scanLines p).2 := by
  rcases p with ⟨_ | _ | _, u⟩
  · exact hp.trans (busStep_readReg _ u)
  · exact hp
  · exact hp

theorem busStep_scanOp (s : State) : BusStep s (scanOp s).2 := by
  have h1 := busStep_enableOpts s.cfg.host.sampleReg s.cfg.b.sampleBus s
  unfold scanOp
  split
  · exact .refl s
  · exact .refl s
  · split
    next s1 he =>
      rw [he] at h1
      exact h1.trans (busStep_scanLines (busStep_poll _ _ _ (fun u => busStep_delay u .samplePoll) _ s1))
    next k s1 he =>
      rw [he] at h1
      exact h1
    next s1 he =>
      rw [he] at h1
      exact h1

theorem busStep_optionSetup (s : State) : BusStep s (optionSetup s).2 := by
  unfold optionSetup
  split
  · exact .refl s
  · exact busStep_enableOpts _ _ s
  · exact .refl s

/-! ## Instructions -/

section
variable {s : State} (h : Inv s)
include h

theorem Inv.resetOp : Inv (resetOp s).2 := by
  unfold Machine.resetOp
  split
  · exact (h.busStep (busStep_resetBus _ _ s)).clearShadow
  · exact h

theorem Inv.startOp (r : UsbRole) : Inv (startOp r s).2 := by
  unfold Machine.startOp
  split
  next hr => exact (h.started hr r).busStep (busStep_optionSetup _)
  next => exact h

/-- A raw transaction is one of this block: a read's dummies are `0x00` (R56, R82). -/
theorem Inv.rawTransaction (a : Addr) (d : Dir) (flag : Bool) (datas : List Byte)
    (hz : d = .write ∨ ∀ o ∈ datas, o = 0) : Inv (rawTransaction a d flag datas s) := by
  have hdata : cmdIsWrite (cmdByte a d flag) = true ∨ ∀ o ∈ datas, o = 0 :=
    hz.imp_left fun hd => by rw [hd, cmdIsWrite_write]
  rw [rawTransaction_eq]
  split
  · exact (h.busStep (busStep_afterBus s _ datas (cmdBit2_cmdByte a d flag) hdata)).answer _
  · exact h.answer _

/-- The burst of `onSetup` goes into `RXBUF` and keeps its form (R26, R190). -/
theorem Inv.setupPacket : ∃ t, setupPacket s = .next t ∧ Inv t := by
  obtain ⟨t, data, ht, -, hrx, hs⟩ := setupPacket_cases s
  have hu := h.callStep hs
  exact ⟨t, ht, { hu with memory := hrx ▸ rxFill_keeps_wf data 0 h.memory }⟩

theorem Inv.execOnSetup : ∃ t, execOnSetup s = .next t ∧ Inv t := by
  unfold Machine.execOnSetup
  split
  · exact ⟨s, rfl, h⟩
  · exact ⟨s, rfl, h⟩
  · exact h.setupPacket

theorem Inv.execOnInBufAvail : ∃ t, execOnInBufAvail s = .next t ∧ Inv t := by
  unfold Machine.execOnInBufAvail
  split
  · exact ⟨s, rfl, h⟩
  · exact ⟨s, rfl, h⟩
  · exact ⟨_, rfl, h.callStep (callStep_logged (callStep_disableEp _ s))⟩

theorem Inv.execOnResetDone : ∃ t, execOnResetDone s = .next t ∧ Inv t := by
  unfold Machine.execOnResetDone
  split
  · exact ⟨s, rfl, h⟩
  · exact ⟨s, rfl, h⟩
  · exact ⟨_, rfl, h.callStep (callStep_resetDone s)⟩

theorem Inv.execOnConnectDetect : ∃ t, execOnConnectDetect s = .next t ∧ Inv t := by
  unfold Machine.execOnConnectDetect
  split
  · exact ⟨s, rfl, h⟩
  next hr => exact ⟨_, rfl, h.settled hr (settled_connectDetect s)⟩
  · exact ⟨s, rfl, h⟩

/-- Every instruction has a next state, and the invariant holds of it. -/
theorem exec_keeps_inv (i : Instr) : ∃ t, exec i s = .next t ∧ Inv t := by
  cases i with
  | regrd a flag n =>
    exact ⟨_, rfl, h.rawTransaction a .read flag _ (.inr fun _ ho => (List.mem_replicate.mp ho).2)⟩
  | regwr a flag vs => exact ⟨_, rfl, h.rawTransaction a .write flag vs (.inl rfl)⟩
  | readRegister a => exact ⟨_, rfl, (h.busStep (busStep_readReg a s)).answer _⟩
  | writeRegister a v => exact ⟨_, rfl, (h.busStep (busStep_writeReg a v s)).answer _⟩
  | readRegisterAS a => exact ⟨_, rfl, (h.busStep (busStep_readRegAS a s)).answer _⟩
  | writeRegisterAS a v => exact ⟨_, rfl, (h.busStep (busStep_writeRegAS a v s)).answer _⟩
  | multiReadRegister a n => exact ⟨_, rfl, (h.busStep (busStep_burstRead a n.toNat s)).answer _⟩
  | multiWriteRegister a vs => exact ⟨_, rfl, (h.busStep (busStep_burstWrite a vs s)).answer _⟩
  | enableOptions a bits => exact ⟨_, rfl, (h.busStep (busStep_enableOpts a bits s)).answer _⟩
  | disableOptions a bits => exact ⟨_, rfl, (h.busStep (busStep_disableOpts a bits s)).answer _⟩
  | setAckstat => exact ⟨_, rfl, (h.busStep (busStep_setFlag s)).answer _⟩
  | enableInterrupts bits => exact ⟨_, rfl, (h.callStep (callStep_enableTop bits s)).answer _⟩
  | disableInterrupts bits => exact ⟨_, rfl, (h.callStep (callStep_disableTop bits s)).answer _⟩
  | enableEndpointInterrupts bits => exact ⟨_, rfl, (h.callStep (callStep_enableEp bits s)).answer _⟩
  | disableEndpointInterrupts bits => exact ⟨_, rfl, (h.callStep (callStep_disableEp bits s)).answer _⟩
  | clearInterruptStatus bits => exact ⟨_, rfl, (h.busStep (busStep_clearTop bits s)).answer _⟩
  | clearEndpointInterruptStatus bits => exact ⟨_, rfl, (h.busStep (busStep_clearEp bits s)).answer _⟩
  | getEnabledInterruptStatus => exact ⟨_, rfl, (h.busStep (busStep_statusTop s)).answer _⟩
  | getEnabledEndpointInterruptStatus => exact ⟨_, rfl, (h.busStep (busStep_statusEp s)).answer _⟩
  | masterEnable => exact ⟨_, rfl, (h.busStep (busStep_gateOn s)).answer _⟩
  | masterDisable => exact ⟨_, rfl, (h.busStep (busStep_gateOff s)).answer _⟩
  | reset => exact ⟨_, rfl, h.resetOp.answer _⟩
  | start r => exact ⟨_, rfl, (h.startOp r).answer _⟩
  | scanBus => exact ⟨_, rfl, (h.busStep (busStep_scanOp s)).answer _⟩
  | registerCallback cb => exact ⟨_, rfl, { h with }⟩
  | illegal00 _ => exact ⟨_, rfl, h.answer _⟩
  | illegal18to1F _ => exact ⟨_, rfl, h.answer _⟩
  | onSetup => exact h.execOnSetup
  | onInBufAvail => exact h.execOnInBufAvail
  | onResetDone => exact h.execOnResetDone
  | onConnectDetect => exact h.execOnConnectDetect

end

/-! ## Arbitration -/

/-- A property of the state that what comes next leads to: the one an instruction starts in, or the one reached without any. -/
def Next.Meets (P : State → Prop) : Next → Prop
  | .run _ u => P u
  | .done u => P u
  | .stop _ => True

section
variable {s : State} (h : Inv s)
include h

theorem fetchOp_keeps_inv (w : OpWord) (payload : List Byte) (ref : CallbackRef) :
    (fetchOp w payload ref s).Meets Inv := by
  unfold fetchOp
  split
  · exact h
  · exact h.answer _

theorem fetchBus_keeps_inv (bytes : List Byte) : (fetchBus bytes s).Meets Inv := by
  unfold fetchBus
  split
  · exact h
  · exact True.intro

theorem fetchItem_keeps_inv : (fetchItem s).Meets Inv := by
  unfold fetchItem
  split
  · exact h
  · exact fetchOp_keeps_inv (h.sched _) _ _ _
  · exact fetchBus_keeps_inv (h.sched _) _
  · exact (h.sched _).fallingEdge

theorem fetch_keeps_inv : (fetch s).Meets Inv := by
  unfold fetch
  split
  · exact h.retireHandler
  · split
    · exact h.takeInterrupt
    · exact fetchItem_keeps_inv h

end

/-- Settles O54: what comes next keeps the invariant, and so does the instruction it runs, if it runs one. -/
theorem stepKeepsInv : Obligations.StepKeepsInv := by
  intro s t hs hstep
  have hf := fetch_keeps_inv hs
  unfold step at hstep
  split at hstep
  next i u hn =>
    rw [hn] at hf
    obtain ⟨v, hv, hi⟩ := exec_keeps_inv hf i
    cases hv.symm.trans hstep
    exact hi
  next u hn =>
    rw [hn] at hf
    cases hstep
    exact hf
  next => cases hstep

end Sys2Proof.Machine

/-! # The flag and the command bytes (O60, O59)

An operation's bus activity is `Spent`: its first command byte carries the flag, every later one does not, and the flag is clear
afterwards. Single accesses are `Spent`; whatever follows a `Spent` stretch keeps it so (`Spent.trans`). -/

namespace Sys2Proof.Machine

/-! ## Command bytes of a list of events -/

/-- Whole transactions do not begin with an exchange, so no command byte is read across the join. -/
theorem commandBytes_append (es fs : List Event) (hf : busRun .idle fs = some .idle) :
    commandBytes (es ++ fs) = commandBytes es ++ commandBytes fs := by
  induction es using commandBytes.induct with
  | case1 c inn es ih => simp [commandBytes, ih]
  | case2 e es hne ih =>
    have hjoin : ∀ c inn gs, e = .ss false → es ++ fs = .x c inn :: gs → False := by
      intro c inn gs he hgs
      cases es with
      | nil =>
        rw [List.nil_append] at hgs
        simp [hgs, busRun, busNext, nextIdle] at hf
      | cons e' es' =>
        obtain ⟨rfl, -⟩ := List.cons.inj hgs
        exact hne _ _ _ he rfl
    rw [List.cons_append, commandBytes.eq_2 _ _ hjoin, commandBytes.eq_2 _ _ hne, ih]
  | case3 => rfl

/-- The exchanges after the command byte's hold no command byte. -/
theorem commandBytes_exchanges (outs : List Byte) (us : List ChipAnswer) :
    commandBytes (List.zipWith (fun o u => Event.x o u.miso) outs us ++ [.ss true]) = [] := by
  induction outs generalizing us with
  | nil => rfl
  | cons o os ih =>
    cases us with
    | nil => rfl
    | cons u us => simpa [commandBytes] using ih us

/-- A transaction has one command byte, its first: the exchange of it is made whatever the chip answers (R54). -/
theorem commandBytes_transaction (s : State) (c : Byte) (datas : List Byte) :
    commandBytes (busEvents (c :: datas) (s.drawn (c :: datas))) = [c] := by
  have hdrawn : ∃ u us, s.drawn (c :: datas) = u :: us := by
    unfold State.drawn draws
    split
    · exact ⟨_, _, rfl⟩
    · exact ⟨_, _, rfl⟩
  obtain ⟨u, us, hu⟩ := hdrawn
  simp [hu, busEvents, commandBytes, commandBytes_exchanges]

/-! ## Bus activity that spends the flag -/

/-- Between `s` and `t` at least one transaction was made; of the command bytes the first carries `flag`, no later one is flagged, and the
flag is clear in `t` (R21, R83). -/
def Spent (flag : Bool) (s t : State) : Prop :=
  t.ackstat = false ∧ ∃ evs c cs, t.trace = s.trace ++ evs ∧ busRun .idle evs = some .idle ∧ commandBytes evs = c :: cs ∧
    cmdAckstat c = flag ∧ ∀ b ∈ cs, cmdAckstat b = false

/-- Bus activity that spends the flag, if there was any. -/
def SpentIfAny (s t : State) : Prop := (t.trace = s.trace ∧ t.ackstat = s.ackstat) ∨ Spent s.ackstat s t

theorem SpentIfAny.refl (s : State) : SpentIfAny s s := .inl ⟨rfl, rfl⟩

theorem Spent.trans {flag : Bool} {s t u : State} (h1 : Spent flag s t) (h2 : SpentIfAny t u) : Spent flag s u := by
  obtain ⟨ht, es, c, cs, he, hr, hc, hflag, hcs⟩ := h1
  rcases h2 with ⟨htrace, hack⟩ | ⟨hu, fs, d, ds, hf, hr', hd, hflag', hds⟩
  · exact ⟨hack.trans ht, es, c, cs, htrace.trans he, hr, hc, hflag, hcs⟩
  · refine ⟨hu, es ++ fs, c, cs ++ d :: ds, by rw [hf, he, List.append_assoc], by simp [busRun_append, hr, hr'], ?_, hflag, ?_⟩
    · rw [commandBytes_append es fs hr', hc, hd, List.cons_append]
    · simp only [List.mem_append, List.mem_cons]
      rintro b (hb | rfl | hb)
      · exact hcs b hb
      · exact hflag'.trans ht
      · exact hds b hb

theorem SpentIfAny.trans {s t u : State} (h1 : SpentIfAny s t) (h2 : SpentIfAny t u) : SpentIfAny s u := by
  rcases h1 with ⟨htrace, hack⟩ | h1
  · unfold SpentIfAny Spent at h2 ⊢
    rwa [htrace, hack] at h2
  · exact .inr (h1.trans h2)

/-- A delay between two reads of a poll is no transaction and leaves the flag as it is. -/
theorem Spent.delay {flag : Bool} {s t : State} (h : Spent flag s t) (d : DelayName) : Spent flag s (t.delay d) := by
  obtain ⟨ht, es, c, cs, he, hr, hc, hrest⟩ := h
  refine ⟨ht, es ++ [.delay d], c, cs, ?_, by rw [busRun_append, hr]; rfl, ?_, hrest⟩
  · rw [delay_eq, emit_trace, he, List.append_assoc]
  · rw [commandBytes_append es [.delay d] rfl, hc]
    simp [commandBytes]

/-- The trace has grown and the flag is clear, whatever was done in between. -/
def Cleared (s t : State) : Prop := t.ackstat = false ∧ s.trace.length < t.trace.length

theorem Cleared.trace_ne {s t : State} (h : Cleared s t) : t.trace ≠ s.trace :=
  fun heq => absurd h.2 (heq ▸ Nat.lt_irrefl _)

theorem Spent.cleared {flag : Bool} {s t : State} (h : Spent flag s t) : Cleared s t := by
  obtain ⟨hflag, evs, c, cs, htrace, -, hcmd, -⟩ := h
  have hne : evs ≠ [] := by
    rintro rfl
    simp [commandBytes] at hcmd
  exact ⟨hflag, by simpa [htrace] using List.length_pos_of_ne_nil hne⟩

/-! ## Register access -/

/-- The dummies of a read are all `0x00` (R82). -/
theorem dummies_zero (n : Nat) : ∀ o ∈ List.replicate n (0 : Byte), o = 0 := fun _ ho => (List.mem_replicate.mp ho).2

/-- What a reader of the bus asks of a data phase (R56, R82), from the direction. -/
theorem dataPhase_legal (a : Addr) (flag : Bool) {d : Dir} {datas : List Byte} (hz : d = .write ∨ ∀ o ∈ datas, o = 0) :
    cmdIsWrite (cmdByte a d flag) = true ∨ ∀ o ∈ datas, o = 0 :=
  hz.imp_left fun hd => by rw [hd, cmdIsWrite_write]

/-- One transaction of this block spends the flag of its command byte. -/
theorem spent_afterBus (s : State) (a : Addr) (d : Dir) (flag : Bool) (datas : List Byte)
    (hz : d = .write ∨ ∀ o ∈ datas, o = 0) : Spent flag s (s.afterBus (cmdByte a d flag :: datas)) :=
  ⟨rfl, _, _, [], rfl, busRun_transaction _ datas (cmdBit2_cmdByte a d flag) (dataPhase_legal a flag hz) _ _,
    commandBytes_transaction s _ datas, cmdAckstat_cmdByte a d flag, by simp⟩

theorem spent_read (s : State) (a : Addr) (n : Nat) : Spent s.ackstat s (s.afterBus (s.readBytes a n)) :=
  spent_afterBus s a .read _ _ (.inr (dummies_zero n))

theorem spent_write (s : State) (a : Addr) (vs : List Byte) : Spent s.ackstat s (s.afterBus (s.writeBytes a vs)) :=
  spent_afterBus s a .write _ vs (.inl rfl)

theorem spent_readReg (a : Addr) (s : State) : Spent s.ackstat s (readReg a s).2 := by
  rw [readReg_eq]
  exact spent_read s a 1

theorem spent_writeReg (a : Addr) (v : Byte) (s : State) : Spent s.ackstat s (writeReg a v s).2 := by
  rw [writeReg_eq]
  exact spent_write s a [v]

/-- The acknowledge forms set the flag first, so their command byte carries it (R113, R114). -/
theorem spent_readRegAS (a : Addr) (s : State) : Spent true s (readRegAS a s).2 := spent_readReg a (setFlag s)

theorem spent_writeRegAS (a : Addr) (v : Byte) (s : State) : Spent true s (writeRegAS a v s).2 :=
  spent_writeReg a v (setFlag s)

theorem spent_afterRmw (s : State) (a : Addr) (f : Byte → Byte) : Spent s.ackstat s (s.afterRmw a f) := by
  unfold State.afterRmw
  split
  · exact (spent_read s a 1).trans (.inr (spent_write _ a _))
  · exact spent_read s a 1

theorem spent_enableOpts (a : Addr) (bits : Byte) (s : State) : Spent s.ackstat s (enableOpts a bits s).2 := by
  rw [enableOpts_eq]
  exact spent_afterRmw s a (setBits · bits)

theorem spent_disableOpts (a : Addr) (bits : Byte) (s : State) : Spent s.ackstat s (disableOpts a bits s).2 := by
  rw [disableOpts_eq]
  exact spent_afterRmw s a (clearBits · bits)

theorem spentIfAny_burstRead (a : Addr) (n : Nat) (s : State) : SpentIfAny s (burstRead a n s).2 := by
  rw [burstRead_eq]
  split
  · exact .inr (spent_read s a n)
  · exact .refl s

theorem spentIfAny_burstWrite (a : Addr) (vs : List Byte) (s : State) : SpentIfAny s (burstWrite a vs s).2 := by
  rw [burstWrite_eq]
  split
  · exact .inr (spent_write s a vs)
  · exact .refl s

/-! ## Interrupt shadow state: nothing without a role, an access with one -/

theorem spentIfAny_enableTop (bits : Byte) (s : State) : SpentIfAny s (enableTop bits s).2 := by
  unfold enableTop
  split
  · exact .refl s
  · exact .inr (spent_enableOpts _ bits s)

theorem spentIfAny_disableTop (bits : Byte) (s : State) : SpentIfAny s (disableTop bits s).2 := by
  unfold disableTop
  split
  · exact .refl s
  · exact .inr (spent_disableOpts _ bits s)

theorem spentIfAny_enableEp (bits : Byte) (s : State) : SpentIfAny s (enableEp bits s).2 := by
  unfold enableEp
  split
  · exact .refl s
  · exact .refl s
  · exact .inr (spent_enableOpts _ bits s)

theorem spentIfAny_disableEp (bits : Byte) (s : State) : SpentIfAny s (disableEp bits s).2 := by
  unfold disableEp
  split
  · exact .refl s
  · exact .refl s
  · exact .inr (spent_disableOpts _ bits s)

theorem spentIfAny_clearTop (bits : Byte) (s : State) : SpentIfAny s (clearTop bits s).2 := by
  unfold clearTop
  split
  · exact .refl s
  · exact .inr (spent_writeReg _ bits s)

theorem spentIfAny_clearEp (bits : Byte) (s : State) : SpentIfAny s (clearEp bits s).2 := by
  unfold clearEp
  split
  · exact .refl s
  · exact .refl s
  · exact .inr (spent_writeReg _ bits s)

theorem spentIfAny_statusTop (s : State) : SpentIfAny s (statusTop s).2 := by
  unfold statusTop
  split
  · exact .refl s
  · exact .inr (spent_readReg _ s)

theorem spentIfAny_statusEp (s : State) : SpentIfAny s (statusEp s).2 := by
  unfold statusEp
  split
  · exact .refl s
  · exact .refl s
  · exact .inr (spent_readReg _ s)

theorem spentIfAny_gateOn (s : State) : SpentIfAny s (gateOn s).2 := by
  unfold gateOn
  split
  · exact .refl s
  · exact .inr (spent_enableOpts _ _ s)

theorem spentIfAny_gateOff (s : State) : SpentIfAny s (gateOff s).2 := by
  unfold gateOff
  split
  · exact .refl s
  · exact .inr (spent_disableOpts _ _ s)

/-! ## Sequences -/

/-- A poll reads at least once or does nothing; what follows a miss must not undo that. -/
theorem spentIfAny_poll (a : Addr) (hit : Byte → Bool) (miss : State → State)
    (hm : ∀ {flag : Bool} {s t : State}, Spent flag s t → Spent flag s (miss t)) (cap : Nat) (s : State) :
    SpentIfAny s (poll a hit miss cap s).2 := by
  induction cap generalizing s with
  | zero => exact .refl s
  | succ cap ih =>
    have hr := spent_readReg a s
    unfold poll
    rcases h : readReg a s with ⟨_ | _ | _, s1⟩ <;> rw [h] at hr
    · dsimp only
      split
      · exact .inr hr
      · exact .inr ((hm hr).trans (ih _))
    · exact .inr hr
    · exact .inr hr

theorem Spent.andThen {flag : Bool} {s : State} {r : Res Unit × State} {f : State → Res Unit × State}
    (hr : Spent flag s r.2) (hf : ∀ u, SpentIfAny u (f u).2) : Spent flag s (andThen r f).2 := by
  rcases r with ⟨_ | k | _, u⟩
  · exact hr.trans (hf u)
  · exact hr
  · exact hr

theorem SpentIfAny.andThen {s : State} {r : Res Unit × State} {f : State → Res Unit × State}
    (hr : SpentIfAny s r.2) (hf : ∀ u, SpentIfAny u (f u).2) : SpentIfAny s (andThen r f).2 := by
  rcases r with ⟨_ | k | _, u⟩
  · exact hr.trans (hf u)
  · exact hr
  · exact hr

theorem spentIfAny_afterWrites (ws : List (Addr × Byte)) (s : State) : SpentIfAny s (State.afterWrites ws s) := by
  induction ws generalizing s with
  | nil => exact .refl s
  | cons w ws ih =>
    unfold State.afterWrites
    split
    · exact .inr ((spent_write s w.1 [w.2]).trans (ih _))
    · exact .inr (spent_write s w.1 [w.2])

theorem spentIfAny_clearPairs (ps : List (Addr × Addr)) (s : State) : SpentIfAny s (clearPairs ps s).2 := by
  rw [clearPairs_eq]
  exact spentIfAny_afterWrites _ s

theorem spentIfAny_resetInterrupts (s : State) : SpentIfAny s (resetInterrupts s).2 :=
  (spentIfAny_gateOff s).andThen fun u => spentIfAny_clearPairs _ u

theorem spentIfAny_resetFromPoll (osc : Addr) (s : State) : SpentIfAny s (resetFromPoll osc s).2 := by
  have hp := spentIfAny_poll osc (oscStable s.cfg) id id s.cfg.oscPollCap s
  unfold resetFromPoll
  split
  next s1 he =>
    rw [he] at hp
    exact hp.trans (spentIfAny_resetInterrupts s1)
  next s1 he =>
    rw [he] at hp
    exact hp.trans (spentIfAny_resetInterrupts s1)
  next s1 he =>
    rw [he] at hp
    exact hp

/-- The chip reset pulse is the first bus activity of `reset()` (R150). -/
theorem spent_resetBus (ctl osc : Addr) (s : State) : Spent s.ackstat s (resetBus ctl osc s).2 :=
  (spent_enableOpts ctl _ s).andThen fun u =>
    SpentIfAny.andThen (.inr (spent_disableOpts ctl _ u)) fun v => spentIfAny_resetFromPoll osc v

/-- Step 6 clears the flag, which the bus steps have spent already (R153). -/
theorem spentIfAny_resetOp (s : State) : SpentIfAny s (resetOp s).2 := by
  unfold resetOp
  split
  next ctl osc _ _ =>
    obtain ⟨-, hevents⟩ := spent_resetBus ctl osc s
    exact .inr ⟨rfl, hevents⟩
  next => exact .refl s

theorem spentIfAny_optionSetup (s : State) : SpentIfAny s (optionSetup s).2 := by
  unfold optionSetup
  split
  · exact .refl s
  · exact .inr (spent_enableOpts _ _ s)
  · exact .refl s

theorem spentIfAny_startOp (r : UsbRole) (s : State) : SpentIfAny s (startOp r s).2 := by
  unfold startOp
  split
  · exact spentIfAny_optionSetup { s with role := roleOf r, intArmed := true }
  · exact .refl s

theorem spentIfAny_scanLines {s : State} {p : PollEnd × State} (hp : SpentIfAny s p.2) : SpentIfAny s (scanLines p).2 := by
  rcases p with ⟨_ | _ | _, u⟩
  · exact hp.trans (.inr (spent_readReg _ u))
  · exact hp
  · exact hp

theorem spentIfAny_scanOp (s : State) : SpentIfAny s (scanOp s).2 := by
  have h1 := spent_enableOpts s.cfg.host.sampleReg s.cfg.b.sampleBus s
  unfold scanOp
  split
  · exact .refl s
  · exact .refl s
  · split
    next s1 he =>
      rw [he] at h1
      have hpoll := spentIfAny_poll s1.cfg.host.sampleDone (sampleDone s1.cfg) (·.delay .samplePoll)
        (fun h => h.delay _) s1.cfg.samplePollCap s1
      exact .inr (h1.trans (spentIfAny_scanLines hpoll))
    next k s1 he =>
      rw [he] at h1
      exact .inr h1
    next s1 he =>
      rw [he] at h1
      exact .inr h1

/-! ## Operations -/

/-- What an operation does to the flag: with no bus activity it is kept, or set by `setAckstat()`; else the first command byte takes it
with it, set by the operation itself if it is an acknowledge form (R21, R110, R113, R114). -/
def OpFlag (i : Instr) (s t : State) : Prop :=
  (t.trace = s.trace ∧ t.ackstat = if i = .setAckstat then true else s.ackstat) ∨ Spent (s.ackstat || isAckForm i) s t

theorem SpentIfAny.op {i : Instr} {s u : State} (h : SpentIfAny s u) (a : Answer) (hi : i ≠ .setAckstat)
    (hf : isAckForm i = false) : OpFlag i s (u.answer a) := by
  unfold OpFlag
  rw [if_neg hi, hf, Bool.or_false]
  exact h

theorem Spent.op {i : Instr} {s u : State} (h : Spent s.ackstat s u) (a : Answer) (hf : isAckForm i = false) :
    OpFlag i s (u.answer a) := by
  unfold OpFlag
  rw [hf, Bool.or_false]
  exact .inr h

theorem Spent.ackForm {i : Instr} {s u : State} (h : Spent true s u) (a : Answer) (hf : isAckForm i = true) :
    OpFlag i s (u.answer a) := by
  unfold OpFlag
  rw [hf, Bool.or_true]
  exact .inr h

/-- Every operation, by its meaning. -/
theorem opFlag_exec (i : Instr) (s : State) (hi : isOp i = true) : ∃ t, exec i s = .next t ∧ OpFlag i s t := by
  cases i with
  | regrd a flag n => cases hi
  | regwr a flag vs => cases hi
  | readRegister a => exact ⟨_, rfl, (spent_readReg a s).op _ rfl⟩
  | writeRegister a v => exact ⟨_, rfl, (spent_writeReg a v s).op _ rfl⟩
  | readRegisterAS a => exact ⟨_, rfl, (spent_readRegAS a s).ackForm _ rfl⟩
  | writeRegisterAS a v => exact ⟨_, rfl, (spent_writeRegAS a v s).ackForm _ rfl⟩
  | multiReadRegister a n => exact ⟨_, rfl, (spentIfAny_burstRead a n.toNat s).op _ (by simp) rfl⟩
  | multiWriteRegister a vs => exact ⟨_, rfl, (spentIfAny_burstWrite a vs s).op _ (by simp) rfl⟩
  | enableOptions a bits => exact ⟨_, rfl, (spent_enableOpts a bits s).op _ rfl⟩
  | disableOptions a bits => exact ⟨_, rfl, (spent_disableOpts a bits s).op _ rfl⟩
  | setAckstat => exact ⟨_, rfl, .inl ⟨rfl, rfl⟩⟩
  | enableInterrupts bits => exact ⟨_, rfl, (spentIfAny_enableTop bits s).op _ (by simp) rfl⟩
  | disableInterrupts bits => exact ⟨_, rfl, (spentIfAny_disableTop bits s).op _ (by simp) rfl⟩
  | enableEndpointInterrupts bits => exact ⟨_, rfl, (spentIfAny_enableEp bits s).op _ (by simp) rfl⟩
  | disableEndpointInterrupts bits => exact ⟨_, rfl, (spentIfAny_disableEp bits s).op _ (by simp) rfl⟩
  | clearInterruptStatus bits => exact ⟨_, rfl, (spentIfAny_clearTop bits s).op _ (by simp) rfl⟩
  | clearEndpointInterruptStatus bits => exact ⟨_, rfl, (spentIfAny_clearEp bits s).op _ (by simp) rfl⟩
  | getEnabledInterruptStatus => exact ⟨_, rfl, (spentIfAny_statusTop s).op _ (by simp) rfl⟩
  | getEnabledEndpointInterruptStatus => exact ⟨_, rfl, (spentIfAny_statusEp s).op _ (by simp) rfl⟩
  | masterEnable => exact ⟨_, rfl, (spentIfAny_gateOn s).op _ (by simp) rfl⟩
  | masterDisable => exact ⟨_, rfl, (spentIfAny_gateOff s).op _ (by simp) rfl⟩
  | reset => exact ⟨_, rfl, (spentIfAny_resetOp s).op _ (by simp) rfl⟩
  | start r => exact ⟨_, rfl, (spentIfAny_startOp r s).op _ (by simp) rfl⟩
  | scanBus => exact ⟨_, rfl, (spentIfAny_scanOp s).op _ (by simp) rfl⟩
  | registerCallback cb => exact ⟨_, rfl, .inl ⟨rfl, rfl⟩⟩
  | illegal00 _ => exact ⟨_, rfl, (SpentIfAny.refl s).op _ (by simp) rfl⟩
  | illegal18to1F _ => exact ⟨_, rfl, (SpentIfAny.refl s).op _ (by simp) rfl⟩
  | onSetup => cases hi
  | onInBufAvail => cases hi
  | onResetDone => cases hi
  | onConnectDetect => cases hi

/-- `opFlag_exec` for the state an operation answers with. -/
theorem opFlag_of_exec {i : Instr} {s t : State} (hi : isOp i = true) (h : exec i s = .next t) : OpFlag i s t := by
  obtain ⟨u, hu, hflag⟩ := opFlag_exec i s hi
  cases hu.symm.trans h
  exact hflag

/-- Settles O60: an operation without bus activity has no command byte, any other spends the flag on its first. -/
theorem oneCommandCarriesAckstat : Obligations.OneCommandCarriesAckstat := by
  intro i s t hi hexec
  rcases opFlag_of_exec hi hexec with ⟨htrace, -⟩ | ⟨-, evs, c, cs, htrace, -, hcmd, hc, hcs⟩
  · exact ⟨[], by rw [htrace, List.append_nil], by simp [commandBytes], by simp [commandBytes]⟩
  · exact ⟨evs, htrace, by simpa [hcmd] using hc, by simpa [hcmd] using hcs⟩

/-- Settles O59: the trace grows exactly if the flag is spent. -/
theorem busActivityClearsAckstat : Obligations.BusActivityClearsAckstat := by
  intro i s t hi hexec
  rcases opFlag_of_exec hi hexec with ⟨htrace, hflag⟩ | hspent
  · exact ⟨fun hne => absurd htrace hne, fun _ => hflag⟩
  · exact ⟨fun _ => hspent.1, fun heq => absurd heq hspent.cleared.trace_ne⟩

end Sys2Proof.Machine

/-! # What every instruction writes (O32, O58, O56)

An operation or a raw transaction is an `OpStep`, whose mask clauses are exact; a handler is a `HandlerStep` (Laws/Handlers). Both give
`Writers`, the state table's frame with the events appended. -/

namespace Sys2Proof.Machine

/-! ## Operations and raw transactions -/

/-- What an instruction that is no handler does: the registers it may write, the masks exactly, and whole transactions with no
notification (R22 to R29). -/
structure OpStep (i : Instr) (s t : State) : Prop where
  started : (t.role = s.role ∧ t.intArmed = s.intArmed) ∨ (s.role = .unset ∧ ∃ r, i = .start r)
  conn : t.conn = s.conn
  bstate : t.bstate = s.bstate
  cb : t.cb = s.cb ∨ ∃ c, i = .registerCallback c
  rxbuf : t.rxbuf = s.rxbuf
  top : t.enabledTopIRQ = if refusedCase s i then s.enabledTopIRQ else topMaskAfter i s.enabledTopIRQ
  endpoint : t.enabledEndpointIRQ =
    if refusedCase s i then s.enabledEndpointIRQ else epMaskAfter s.role i s.enabledEndpointIRQ
  sel : t.sel = s.sel
  cfg : t.cfg = s.cfg
  sched : t.sched = s.sched
  grows : ∃ evs, t.trace = s.trace ++ evs ∧ notifications evs = [] ∧ EdgesTaken (exchanges evs) s t

/-- A shadow operation, whose mask clauses are given. -/
theorem CallStep.op {i : Instr} {s u : State} (h : CallStep [] s u) (a : Answer)
    (top : u.enabledTopIRQ = if refusedCase s i then s.enabledTopIRQ else topMaskAfter i s.enabledTopIRQ)
    (endpoint : u.enabledEndpointIRQ =
      if refusedCase s i then s.enabledEndpointIRQ else epMaskAfter s.role i s.enabledEndpointIRQ) :
    OpStep i s (u.answer a) where
  started := .inl ⟨h.frame.role, h.frame.intArmed⟩
  conn := h.frame.conn
  bstate := h.frame.bstate
  cb := .inl h.frame.cb
  rxbuf := h.frame.rxbuf
  top := top
  endpoint := endpoint
  sel := h.frame.sel
  cfg := h.frame.cfg
  sched := h.frame.sched
  grows := by
    obtain ⟨evs, htrace, -, hnote, hedges⟩ := h.grows
    exact ⟨evs, htrace, hnote, hedges⟩

/-- An operation of bus activity alone, which is none of those that write a mask. -/
theorem BusStep.op {i : Instr} {s u : State} (h : BusStep s u) (a : Answer) (htop : ∀ m, topMaskAfter i m = m)
    (hep : ∀ r m, epMaskAfter r i m = m) : OpStep i s (u.answer a) :=
  h.toCall.op a (by rw [h.frame.enabledTopIRQ, htop, ite_self]) (by rw [h.frame.enabledEndpointIRQ, hep, ite_self])

section
variable (s : State)

/-- The mask operations are refused for want of a role, and for nothing else (R142). -/
theorem refusedCase_maskOps (x : Byte) :
    refusedCase s (.enableInterrupts x) = (s.role == .unset) ∧ refusedCase s (.disableInterrupts x) = (s.role == .unset) ∧
    refusedCase s (.enableEndpointInterrupts x) = (s.role == .unset) ∧
    refusedCase s (.disableEndpointInterrupts x) = (s.role == .unset) :=
  ⟨rfl, rfl, rfl, rfl⟩

theorem refusedCase_reset : refusedCase s .reset = (s.role == .unset) := rfl

theorem opStep_enableTop (bits : Byte) (a : Answer) : OpStep (.enableInterrupts bits) s ((enableTop bits s).2.answer a) :=
  (callStep_enableTop bits s).op a (by simpa [refusedCase_maskOps, topMaskAfter] using enableTop_top bits s)
    ((enableTop_rest bits s).1.trans (ite_self _).symm)

theorem opStep_disableTop (bits : Byte) (a : Answer) :
    OpStep (.disableInterrupts bits) s ((disableTop bits s).2.answer a) :=
  (callStep_disableTop bits s).op a (by simpa [refusedCase_maskOps, topMaskAfter] using disableTop_top bits s)
    ((disableTop_rest bits s).1.trans (ite_self _).symm)

theorem opStep_enableEp (bits : Byte) (a : Answer) :
    OpStep (.enableEndpointInterrupts bits) s ((enableEp bits s).2.answer a) := by
  refine (callStep_enableEp bits s).op a ((enableEp_rest bits s).1.trans (ite_self _).symm) ?_
  rw [enableEp_ep]
  cases hr : s.role <;> simp [refusedCase_maskOps, hr, epMaskAfter]

theorem opStep_disableEp (bits : Byte) (a : Answer) :
    OpStep (.disableEndpointInterrupts bits) s ((disableEp bits s).2.answer a) := by
  refine (callStep_disableEp bits s).op a ((disableEp_rest bits s).1.trans (ite_self _).symm) ?_
  rw [disableEp_ep]
  cases hr : s.role <;> simp [refusedCase_maskOps, hr, epMaskAfter]

/-- `reset()` zeroes both masks at its end, unless it is refused for want of a role (R153). -/
theorem opStep_reset (a : Answer) : OpStep .reset s ((resetOp s).2.answer a) := by
  unfold resetOp
  split
  next ctl osc hctl _ =>
    have hrole : refusedCase s .reset = false := by
      cases hr : s.role with
      | unset => simp [hr, chipCtl] at hctl
      | host => simp [refusedCase_reset, hr]
      | peripheral => simp [refusedCase_reset, hr]
    have hb := busStep_resetBus ctl osc s
    obtain ⟨evs, htrace, -, hnote, hedges⟩ := hb.grows
    exact
      { hb.frame with
        started := .inl ⟨hb.frame.role, hb.frame.intArmed⟩
        cb := .inl hb.frame.cb
        top := by rw [hrole]; rfl
        endpoint := by rw [hrole]; rfl
        grows := ⟨evs, htrace, hnote, hedges⟩ }
  next hnone =>
    have hrole : refusedCase s .reset = true := by
      cases hr : s.role with
      | unset => simp [refusedCase_reset, hr]
      | host => exact absurd (by rw [hr]; rfl) (hnone _ _ (by rw [hr]; rfl))
      | peripheral => exact absurd (by rw [hr]; rfl) (hnone _ _ (by rw [hr]; rfl))
    exact (CallStep.refl s).op a (by rw [hrole]; rfl) (by rw [hrole]; rfl)

/-- The accepted `start` fixes the role and puts the detector in service before its bus activity (R155, R156). -/
theorem opStep_start (r : UsbRole) (a : Answer) : OpStep (.start r) s ((startOp r s).2.answer a) := by
  unfold startOp
  split
  next hr =>
    have hb := busStep_optionSetup { s with role := roleOf r, intArmed := true }
    obtain ⟨evs, htrace, -, hnote, hedges⟩ := hb.grows
    exact
      { hb.frame with
        started := .inr ⟨hr, r, rfl⟩
        cb := .inl hb.frame.cb
        top := hb.frame.enabledTopIRQ.trans (ite_self _).symm
        endpoint := hb.frame.enabledEndpointIRQ.trans (ite_self _).symm
        grows := ⟨evs, htrace, hnote, hedges⟩ }
  next => exact (BusStep.refl s).op a (fun _ => rfl) fun _ _ => rfl

theorem opStep_registerCallback (cb : Option CallbackRef) (a : Answer) :
    OpStep (.registerCallback cb) s ({ s with cb := cb }.answer a) :=
  { (BusStep.refl s).op (i := .registerCallback cb) a (fun _ => rfl) (fun _ _ => rfl) with cb := .inr ⟨cb, rfl⟩ }

/-- A raw transaction within `MAX_BURST` is bus activity, a longer one is refused (log entry 9). -/
theorem rawTransaction_cases (a : Addr) (d : Dir) (flag : Bool) (datas : List Byte) (hz : d = .write ∨ ∀ o ∈ datas, o = 0) :
    rawTransaction a d flag datas s = answerRefused s ∨
    ∃ u ans, rawTransaction a d flag datas s = u.answer ans ∧ BusStep s u ∧ Spent flag s u := by
  rw [rawTransaction_eq]
  split
  · exact .inr ⟨_, _, rfl, busStep_afterBus s _ datas (cmdBit2_cmdByte a d flag) (dataPhase_legal a flag hz),
      spent_afterBus s a d flag datas hz⟩
  · exact .inl rfl

theorem opStep_rawTransaction {i : Instr} (a : Addr) (d : Dir) (flag : Bool) (datas : List Byte)
    (hz : d = .write ∨ ∀ o ∈ datas, o = 0) (htop : ∀ m, topMaskAfter i m = m) (hep : ∀ r m, epMaskAfter r i m = m) :
    OpStep i s (rawTransaction a d flag datas s) := by
  rcases rawTransaction_cases s a d flag datas hz with h | ⟨u, ans, h, hb, -⟩
  · exact h ▸ (BusStep.refl s).op _ htop hep
  · exact h ▸ hb.op _ htop hep

end

/-! ## Handlers -/

/-- The instructions an event-select vector selects (R89). -/
def Instr.IsHandler (i : Instr) : Prop := ∃ sel : Sel, decode (.evt sel) = .ok i

theorem isHandler_cases {i : Instr} (h : Instr.IsHandler i) :
    i = .onSetup ∨ i = .onInBufAvail ∨ i = .onResetDone ∨ i = .onConnectDetect := by
  obtain ⟨sel, h⟩ := h
  simp only [decode, decodeEvt] at h
  split at h
  · exact .inl (Except.ok.inj h).symm
  · split at h
    · exact .inr (.inl (Except.ok.inj h).symm)
    · split at h
      · exact .inr (.inr (.inl (Except.ok.inj h).symm))
      · split at h
        · exact .inr (.inr (.inr (Except.ok.inj h).symm))
        · cases h

theorem isHandler_onSetup : Instr.IsHandler .onSetup := ⟨0b0001, rfl⟩
theorem isHandler_onInBufAvail : Instr.IsHandler .onInBufAvail := ⟨0b0010, rfl⟩
theorem isHandler_onResetDone : Instr.IsHandler .onResetDone := ⟨0b0100, rfl⟩
theorem isHandler_onConnectDetect : Instr.IsHandler .onConnectDetect := ⟨0b1000, rfl⟩

/-- Every instruction that is no handler, by its meaning. -/
theorem opStep_exec (i : Instr) (s : State) (hi : ¬ Instr.IsHandler i) : ∃ t, exec i s = .next t ∧ OpStep i s t := by
  cases i with
  | regrd a flag n =>
    exact ⟨_, rfl, opStep_rawTransaction s a .read flag _ (.inr (dummies_zero n)) (fun _ => rfl)
      fun _ _ => rfl⟩
  | regwr a flag vs =>
    exact ⟨_, rfl, opStep_rawTransaction s a .write flag vs (.inl rfl) (fun _ => rfl) fun _ _ => rfl⟩
  | readRegister a => exact ⟨_, rfl, (busStep_readReg a s).op _ (fun _ => rfl) fun _ _ => rfl⟩
  | writeRegister a v => exact ⟨_, rfl, (busStep_writeReg a v s).op _ (fun _ => rfl) fun _ _ => rfl⟩
  | readRegisterAS a => exact ⟨_, rfl, (busStep_readRegAS a s).op _ (fun _ => rfl) fun _ _ => rfl⟩
  | writeRegisterAS a v => exact ⟨_, rfl, (busStep_writeRegAS a v s).op _ (fun _ => rfl) fun _ _ => rfl⟩
  | multiReadRegister a n => exact ⟨_, rfl, (busStep_burstRead a n.toNat s).op _ (fun _ => rfl) fun _ _ => rfl⟩
  | multiWriteRegister a vs => exact ⟨_, rfl, (busStep_burstWrite a vs s).op _ (fun _ => rfl) fun _ _ => rfl⟩
  | enableOptions a bits => exact ⟨_, rfl, (busStep_enableOpts a bits s).op _ (fun _ => rfl) fun _ _ => rfl⟩
  | disableOptions a bits => exact ⟨_, rfl, (busStep_disableOpts a bits s).op _ (fun _ => rfl) fun _ _ => rfl⟩
  | setAckstat => exact ⟨_, rfl, (busStep_setFlag s).op _ (fun _ => rfl) fun _ _ => rfl⟩
  | enableInterrupts bits => exact ⟨_, rfl, opStep_enableTop s bits _⟩
  | disableInterrupts bits => exact ⟨_, rfl, opStep_disableTop s bits _⟩
  | enableEndpointInterrupts bits => exact ⟨_, rfl, opStep_enableEp s bits _⟩
  | disableEndpointInterrupts bits => exact ⟨_, rfl, opStep_disableEp s bits _⟩
  | clearInterruptStatus bits => exact ⟨_, rfl, (busStep_clearTop bits s).op _ (fun _ => rfl) fun _ _ => rfl⟩
  | clearEndpointInterruptStatus bits => exact ⟨_, rfl, (busStep_clearEp bits s).op _ (fun _ => rfl) fun _ _ => rfl⟩
  | getEnabledInterruptStatus => exact ⟨_, rfl, (busStep_statusTop s).op _ (fun _ => rfl) fun _ _ => rfl⟩
  | getEnabledEndpointInterruptStatus => exact ⟨_, rfl, (busStep_statusEp s).op _ (fun _ => rfl) fun _ _ => rfl⟩
  | masterEnable => exact ⟨_, rfl, (busStep_gateOn s).op _ (fun _ => rfl) fun _ _ => rfl⟩
  | masterDisable => exact ⟨_, rfl, (busStep_gateOff s).op _ (fun _ => rfl) fun _ _ => rfl⟩
  | reset => exact ⟨_, rfl, opStep_reset s _⟩
  | start r => exact ⟨_, rfl, opStep_start s r _⟩
  | scanBus => exact ⟨_, rfl, (busStep_scanOp s).op _ (fun _ => rfl) fun _ _ => rfl⟩
  | registerCallback cb => exact ⟨_, rfl, opStep_registerCallback s cb _⟩
  | illegal00 _ => exact ⟨_, rfl, (BusStep.refl s).op _ (fun _ => rfl) fun _ _ => rfl⟩
  | illegal18to1F _ => exact ⟨_, rfl, (BusStep.refl s).op _ (fun _ => rfl) fun _ _ => rfl⟩
  | onSetup => exact absurd isHandler_onSetup hi
  | onInBufAvail => exact absurd isHandler_onInBufAvail hi
  | onResetDone => exact absurd isHandler_onResetDone hi
  | onConnectDetect => exact absurd isHandler_onConnectDetect hi

/-- The operations are no handlers. -/
theorem not_isHandler_of_isOp {i : Instr} (hi : isOp i = true) : ¬ Instr.IsHandler i := by
  intro h
  rcases isHandler_cases h with rfl | rfl | rfl | rfl <;> cases hi

/-- Settles O32: the mask clauses of an operation that is not refused. -/
theorem operationsAndMasks : Obligations.OperationsAndMasks := by
  intro i s t hi hacc hexec
  obtain ⟨u, hu, hop⟩ := opStep_exec i s (not_isHandler_of_isOp hi)
  cases hu.symm.trans hexec
  have htop := hop.top
  have hep := hop.endpoint
  rw [hacc] at htop hep
  exact ⟨htop, hep⟩

/-! ## The writers of the registers -/

/-- The frame of the state table (R20): which instruction may write which register, and the events an instruction appends with the edges
taken in them and the notifications owed for its change of `CONN`. -/
structure Writers (i : Instr) (s t : State) : Prop where
  started : (t.role ≠ s.role ∨ t.intArmed ≠ s.intArmed) → s.role = .unset ∧ ∃ r, i = .start r
  connection : (t.conn ≠ s.conn ∨ t.bstate ≠ s.bstate) → s.role = .host ∧ i = .onConnectDetect
  grows : ∃ evs, t.trace = s.trace ++ evs ∧ notifications evs = owed s.cb s.conn t.conn ∧ EdgesTaken (exchanges evs) s t
  cb : t.cb ≠ s.cb → ∃ c, i = .registerCallback c
  rxbuf : t.rxbuf ≠ s.rxbuf → s.role = .peripheral ∧ i = .onSetup
  beyond : ∀ j : Nat, 8 ≤ j → rxPeek t.rxbuf j = rxPeek s.rxbuf j
  top : t.enabledTopIRQ ≠ s.enabledTopIRQ → (∃ x, i = .enableInterrupts x) ∨ (∃ x, i = .disableInterrupts x) ∨
    i = .reset ∨ i = .onResetDone ∨ i = .onSetup ∨ i = .onConnectDetect
  endpoint : t.enabledEndpointIRQ ≠ s.enabledEndpointIRQ →
    (∃ x, i = .enableEndpointInterrupts x) ∨ (∃ x, i = .disableEndpointInterrupts x) ∨
    i = .reset ∨ i = .onResetDone ∨ i = .onInBufAvail ∨ i = .onSetup
  sel : t.sel = s.sel
  cfg : t.cfg = s.cfg
  sched : t.sched = s.sched
  results : Instr.IsHandler i → t.results = s.results

theorem topMaskAfter_writers {i : Instr} {m : Byte} (h : topMaskAfter i m ≠ m) :
    (∃ x, i = .enableInterrupts x) ∨ (∃ x, i = .disableInterrupts x) ∨ i = .reset := by
  unfold topMaskAfter at h
  split at h
  · exact .inl ⟨_, rfl⟩
  · exact .inr (.inl ⟨_, rfl⟩)
  · exact .inr (.inr rfl)
  · exact absurd rfl h

theorem epMaskAfter_writers {r : Role} {i : Instr} {m : Byte} (h : epMaskAfter r i m ≠ m) :
    (∃ x, i = .enableEndpointInterrupts x) ∨ (∃ x, i = .disableEndpointInterrupts x) ∨ i = .reset := by
  unfold epMaskAfter at h
  split at h
  · exact .inl ⟨_, rfl⟩
  · exact .inr (.inl ⟨_, rfl⟩)
  · exact .inr (.inr rfl)
  · exact absurd rfl h

theorem OpStep.writers {i : Instr} {s t : State} (h : OpStep i s t) (hi : ¬ Instr.IsHandler i) : Writers i s t where
  started hne := h.started.elim (fun ⟨hr, ha⟩ => (hne.elim (absurd hr) (absurd ha))) id
  connection hne := hne.elim (absurd h.conn) (absurd h.bstate)
  grows := by
    obtain ⟨evs, htrace, hnote, hedges⟩ := h.grows
    exact ⟨evs, htrace, by rw [hnote, h.conn, owed_same], hedges⟩
  cb hne := h.cb.resolve_left hne
  rxbuf hne := absurd h.rxbuf hne
  beyond j _ := by rw [h.rxbuf]
  top hne := by
    rw [h.top] at hne
    split at hne
    · exact absurd rfl hne
    · rcases topMaskAfter_writers hne with hw | hw | hw
      · exact .inl hw
      · exact .inr (.inl hw)
      · exact .inr (.inr (.inl hw))
  endpoint hne := by
    rw [h.endpoint] at hne
    split at hne
    · exact absurd rfl hne
    · rcases epMaskAfter_writers hne with hw | hw | hw
      · exact .inl hw
      · exact .inr (.inl hw)
      · exact .inr (.inr (.inl hw))
  sel := h.sel
  cfg := h.cfg
  sched := h.sched
  results hh := absurd hh hi

/-- A handler that leaves `CONN`, `BSTATE` and `RXBUF` alone; the mask clauses are asked for. -/
theorem CallStep.writers {i : Instr} {s t : State} (h : CallStep [] s t)
    (top : t.enabledTopIRQ = s.enabledTopIRQ ∨ i = .onResetDone ∨ i = .onSetup ∨ i = .onConnectDetect)
    (endpoint : t.enabledEndpointIRQ = s.enabledEndpointIRQ ∨ i = .onResetDone ∨ i = .onInBufAvail ∨ i = .onSetup) :
    Writers i s t where
  started hne := hne.elim (absurd h.frame.role) (absurd h.frame.intArmed)
  connection hne := hne.elim (absurd h.frame.conn) (absurd h.frame.bstate)
  grows := by
    obtain ⟨evs, htrace, -, hnote, hedges⟩ := h.handler.grows
    exact ⟨evs, htrace, hnote, hedges⟩
  cb hne := absurd h.frame.cb hne
  rxbuf hne := absurd h.frame.rxbuf hne
  beyond j _ := by rw [h.frame.rxbuf]
  top hne := .inr (.inr (.inr (top.resolve_left hne)))
  endpoint hne := .inr (.inr (.inr (endpoint.resolve_left hne)))
  sel := h.frame.sel
  cfg := h.frame.cfg
  sched := h.frame.sched
  results _ := h.frame.results

/-- Outside its role a handler does nothing (log entry 10). -/
theorem Writers.refl (i : Instr) (s : State) : Writers i s s := (CallStep.refl s).writers (.inl rfl) (.inl rfl)

theorem logged_enabledTopIRQ (r : Res Unit × State) : (logged r).enabledTopIRQ = r.2.enabledTopIRQ := by
  rcases r with ⟨_ | _ | _, u⟩ <;> rfl

theorem writers_onSetup (s : State) : ∃ t, exec .onSetup s = .next t ∧ Writers .onSetup s t := by
  show ∃ t, execOnSetup s = .next t ∧ Writers .onSetup s t
  unfold execOnSetup
  split
  · exact ⟨s, rfl, .refl _ s⟩
  · exact ⟨s, rfl, .refl _ s⟩
  next hr =>
    obtain ⟨t, data, ht, hlen, hrx, hs⟩ := setupPacket_cases s
    have hw : Writers .onSetup s { t with rxbuf := s.rxbuf } :=
      hs.writers (.inr (.inr (.inl rfl))) (.inr (.inr (.inr rfl)))
    refine ⟨t, ht, { hw with rxbuf := fun _ => ⟨hr, rfl⟩, beyond := fun j hj => ?_ }⟩
    rw [hrx, rxPeek_rxFill_outside data 0 j s.rxbuf (.inr (by omega))]

theorem writers_onInBufAvail (s : State) : ∃ t, exec .onInBufAvail s = .next t ∧ Writers .onInBufAvail s t := by
  show ∃ t, execOnInBufAvail s = .next t ∧ Writers .onInBufAvail s t
  unfold execOnInBufAvail
  split
  · exact ⟨s, rfl, .refl _ s⟩
  · exact ⟨s, rfl, .refl _ s⟩
  · have htop : (logged (disableEp s.cfg.b.inBAv s)).enabledTopIRQ = s.enabledTopIRQ :=
      (logged_enabledTopIRQ _).trans (disableEp_rest _ s).1
    exact ⟨_, rfl, (callStep_logged (callStep_disableEp _ s)).writers (.inl htop) (.inr (.inr (.inl rfl)))⟩

theorem writers_onResetDone (s : State) : ∃ t, exec .onResetDone s = .next t ∧ Writers .onResetDone s t := by
  show ∃ t, execOnResetDone s = .next t ∧ Writers .onResetDone s t
  unfold execOnResetDone
  split
  · exact ⟨s, rfl, .refl _ s⟩
  · exact ⟨s, rfl, .refl _ s⟩
  · exact ⟨_, rfl, (callStep_resetDone s).writers (.inr (.inl rfl)) (.inr (.inl rfl))⟩

/-- Only here do `CONN` and `BSTATE` change; the collaborators may write the top mask, in Host role not the endpoint one. -/
theorem writers_onConnectDetect (s : State) :
    ∃ t, exec .onConnectDetect s = .next t ∧ Writers .onConnectDetect s t := by
  show ∃ t, execOnConnectDetect s = .next t ∧ Writers .onConnectDetect s t
  unfold execOnConnectDetect
  split
  · exact ⟨s, rfl, .refl _ s⟩
  next hr =>
    have hs : HandlerStep s (connectDetect s) ∧ (connectDetect s).rxbuf = s.rxbuf := by
      rcases settled_connectDetect s with h | ⟨b, -, h⟩
      · exact ⟨h.step, h.rxbuf⟩
      · exact ⟨h.step, h.rxbuf⟩
    obtain ⟨h, hrx⟩ := hs
    obtain ⟨evs, htrace, -, hnote, hedges⟩ := h.grows
    exact ⟨_, rfl,
      { started := fun hne => hne.elim (absurd h.role) (absurd h.intArmed)
        connection := fun _ => ⟨hr, rfl⟩
        grows := ⟨evs, htrace, hnote, hedges⟩
        cb := fun hne => absurd h.cb hne
        rxbuf := fun hne => absurd hrx hne
        beyond := fun j _ => by rw [hrx]
        top := fun _ => .inr (.inr (.inr (.inr (.inr rfl))))
        endpoint := fun hne => absurd (h.endpoint (by simp [hr])) hne
        sel := h.sel
        cfg := h.cfg
        sched := h.sched
        results := fun _ => h.results }⟩
  · exact ⟨s, rfl, .refl _ s⟩

/-- Every instruction keeps to the state table. -/
theorem writers_exec {i : Instr} {s t : State} (hexec : exec i s = .next t) : Writers i s t := by
  have hw : ∃ u, exec i s = .next u ∧ Writers i s u := by
    by_cases hi : Instr.IsHandler i
    · rcases isHandler_cases hi with rfl | rfl | rfl | rfl
      · exact writers_onSetup s
      · exact writers_onInBufAvail s
      · exact writers_onResetDone s
      · exact writers_onConnectDetect s
    · obtain ⟨u, hu, hop⟩ := opStep_exec i s hi
      exact ⟨u, hu, hop.writers hi⟩
  obtain ⟨u, hu, hwr⟩ := hw
  cases hu.symm.trans hexec
  exact hwr

/-- Settles O58: the latch is what it was, or has caught an edge taken with the detector in service. -/
theorem pendingEventIsKept : Obligations.PendingEventIsKept := by
  intro i s t hexec
  obtain ⟨evs, -, -, -, hlatch⟩ := (writers_exec hexec).grows
  rw [hlatch]
  refine ⟨fun hp => by rw [hp, Bool.true_or], fun hp => ?_⟩
  exact ((Bool.or_eq_true _ _).mp hp).imp_right fun hcaught => ((Bool.and_eq_true _ _).mp hcaught).1

/-! ## Notifications of a step -/

/-- Between two instructions nothing is notified and neither `CONN` nor `CB` changes. -/
structure Unnotified (s t : State) : Prop where
  conn : t.conn = s.conn
  cb : t.cb = s.cb
  grows : ∃ evs, t.trace = s.trace ++ evs ∧ notifications evs = []

theorem BusStep.unnotified {s t : State} (h : BusStep s t) : Unnotified s t := by
  obtain ⟨evs, htrace, -, hnote, -⟩ := h.grows
  exact ⟨h.frame.conn, h.frame.cb, evs, htrace, hnote⟩

theorem Unnotified.refl (s : State) : Unnotified s s := (BusStep.refl s).unnotified

/-- The two reads of the snapshot, and a fault logged (R213). -/
theorem unnotified_takeInterrupt (s : State) : Unnotified s (takeInterrupt s) := by
  have h1 := busStep_statusTop { s with irqPend := false }
  have started {t : State} (h : BusStep { s with irqPend := false } t) : Unnotified s t :=
    ⟨h.unnotified.conn, h.unnotified.cb, h.unnotified.grows⟩
  unfold takeInterrupt
  split
  next t s1 htop =>
    rw [htop] at h1
    have h2 := h1.trans (busStep_statusEp s1)
    split
    next e s2 hep =>
      rw [hep] at h2
      exact { started h2 with }
    next k s2 hep =>
      rw [hep] at h2
      exact started (h2.trans (busStep_logFault s2 k))
    next s2 hep =>
      rw [hep] at h2
      exact started h2
  next k s1 htop =>
    rw [htop] at h1
    exact started (h1.trans (busStep_logFault s1 k))
  next s1 htop =>
    rw [htop] at h1
    exact started h1

theorem unnotified_fetchItem (s : State) : (fetchItem s).Meets (Unnotified s) := by
  have same : Unnotified s s := .refl s
  unfold fetchItem fetchOp fetchBus
  split
  · exact same
  · split
    · exact { same with }
    · exact { same with }
  · split
    · exact { same with }
    · exact True.intro
  · exact { same with }

theorem unnotified_fetch (s : State) : (fetch s).Meets (Unnotified s) := by
  have same : Unnotified s s := .refl s
  unfold fetch
  split
  · exact { same with }
  · split
    · exact unnotified_takeInterrupt s
    · exact unnotified_fetchItem s

/-- Settles O56: arbitration notifies nobody, and an instruction exactly what it owes for its change of `CONN`. -/
theorem notificationOncePerTransition : Obligations.NotificationOncePerTransition := by
  intro s t hstep
  have hf := unnotified_fetch s
  unfold step at hstep
  split at hstep
  next i u hnext =>
    rw [hnext] at hf
    obtain ⟨es, htrace, hnone⟩ := hf.grows
    obtain ⟨fs, htrace', hnote, -⟩ := (writers_exec hstep).grows
    refine ⟨es ++ fs, by rw [htrace', htrace, List.append_assoc], ?_⟩
    rw [notifications_append, hnone, hnote, hf.cb, hf.conn, List.nil_append]
  next u hnext =>
    rw [hnext] at hf
    cases hstep
    obtain ⟨es, htrace, hnone⟩ := hf.grows
    exact ⟨es, htrace, by rw [hnone, hf.conn, owed_same]⟩
  next => cases hstep

end Sys2Proof.Machine

/-! # `onSetup` up to its dispatch, and its receive buffer (O45) -/

namespace Sys2Proof.Machine

/-! ## The ends of `onSetup` (R190) -/

/-- The state after the packet's burst: the bytes it delivered stand in `RXBUF` from index 0 (R53, R190). -/
def State.packetFilled (s : State) : State :=
  { s.afterBus (s.readBytes s.cfg.periph.sudFifo packetBytes) with
    rxbuf := rxFill 0 (s.busData (s.readBytes s.cfg.periph.sudFifo packetBytes)) s.rxbuf }

theorem fetchPacket_fault {s : State} (hburst : s.busOk (s.readBytes s.cfg.periph.sudFifo packetBytes) = false) :
    fetchPacket s = .next (s.packetFilled.logFault .transportError) := by
  simp only [fetchPacket, memRead_eq, hburst, Bool.false_eq_true, if_false]
  rfl

/-- A whole burst is dispatched with the very bytes it delivered: none of the reads of `RXBUF` faults (R34). -/
theorem fetchPacket_dispatch {s : State} (hburst : s.busOk (s.readBytes s.cfg.periph.sudFifo packetBytes) = true) :
    ∃ q, fetchPacket s =
      .next (dispatchRequest q (s.busData (s.readBytes s.cfg.periph.sudFifo packetBytes)) s.packetFilled) := by
  have hlen : (s.busData (s.readBytes s.cfg.periph.sudFifo packetBytes)).length = packetBytes :=
    (busData_length hburst).trans List.length_replicate
  have hfetch : fetchPacket s = dispatchPacket s.packetFilled := by
    simp only [fetchPacket, memRead_eq, hburst, if_true]
    rfl
  rw [hfetch, dispatchPacket, State.packetFilled]
  generalize s.busData (s.readBytes s.cfg.periph.sudFifo packetBytes) = data at hlen ⊢
  have h8 : data.length = 8 := hlen
  have hq : rxPeek (rxFill 0 data s.rxbuf) 1 = some data[1] := by
    rw [← List.getElem?_eq_getElem]
    exact rxPeek_rxFill_inside data 0 1 s.rxbuf (by omega) (by omega)
  have hp : rxReadMany 0 packetBytes (rxFill 0 data s.rxbuf) = .ok data :=
    hlen ▸ rxReadMany_rxFill data 0 s.rxbuf (by omega)
  exact ⟨data[1], by simp only [rxRead, hq, hp]⟩

section
variable {s : State} (hr : s.role = .peripheral)
include hr

/-- A fault in the acknowledge is logged, and there is no burst. -/
theorem execOnSetup_ackFault (hw : s.writeOk s.cfg.periph.epIrq s.cfg.b.sudAv = false) :
    execOnSetup s = .next ((s.afterWrite s.cfg.periph.epIrq s.cfg.b.sudAv).logFault .transportError) := by
  simp only [execOnSetup, hr, setupPacket, clearEp_eq hr, hw, busRes, Bool.false_eq_true, if_false]

theorem execOnSetup_burst (hw : s.writeOk s.cfg.periph.epIrq s.cfg.b.sudAv = true) :
    execOnSetup s = fetchPacket (s.afterWrite s.cfg.periph.epIrq s.cfg.b.sudAv) := by
  simp only [execOnSetup, hr, setupPacket, clearEp_eq hr, hw, busRes, if_true]

end

/-! ## The buffer -/

/-- A fill from index 0, read back. -/
theorem rxPeek_rxFill_zero (bs : List Byte) (j : Nat) (m : List Host.Cell) (h64 : bs.length ≤ 64) :
    rxPeek (rxFill 0 bs m) j = if j < bs.length then bs[j]? else rxPeek m j := by
  split
  next hj =>
    have h := rxPeek_rxFill_inside bs 0 j m hj (by omega)
    rwa [Nat.zero_add] at h
  next hj => exact rxPeek_rxFill_outside bs 0 j m (.inr (by omega))

/-- Settles O45: the burst's bytes are those of `State.packetFilled`, which neither the dispatch nor the log entry of a fault overwrites. -/
theorem setupBuffer : Obligations.SetupBuffer := by
  intro s hr s1 outs data
  refine ⟨fun hw => execOnSetup_ackFault hr hw, fun hw => ?_⟩
  have hlen : data.length ≤ 8 :=
    (List.length_replicate (n := 8) (a := (0x00 : Byte))) ▸ busData_le s1 _ _
  have hfilled (j : Nat) : rxPeek s1.packetFilled.rxbuf j = if j < data.length then data[j]? else rxPeek s.rxbuf j :=
    rxPeek_rxFill_zero data j s.rxbuf (by omega)
  refine ⟨hlen, fun hburst => (busData_length hburst).trans List.length_replicate, ?_⟩
  have hexec : exec .onSetup s = fetchPacket s1 := execOnSetup_burst hr hw
  rw [hexec]
  cases hburst : s1.busOk outs with
  | false => exact ⟨_, fetchPacket_fault hburst, hfilled, fun _ => rfl⟩
  | true =>
    obtain ⟨q, hq⟩ := fetchPacket_dispatch hburst
    refine ⟨_, hq, fun j => ?_, fun hf => absurd hf (by simp)⟩
    rw [(callStep_dispatchRequest q _ s1.packetFilled).frame.rxbuf]
    exact hfilled j

end Sys2Proof.Machine

/-! # The flag after any instruction, and the writers of all ten registers (O55) -/

namespace Sys2Proof.Machine

/-! ## Handlers that end with bus activity -/

theorem CallStep.trace_prefix {ns : List (CallbackRef × Bool)} {s t : State} (h : CallStep ns s t) : s.trace <+: t.trace := by
  obtain ⟨evs, htrace, -⟩ := h.grows
  exact ⟨evs, htrace.symm⟩

theorem HandlerStep.trace_prefix {s t : State} (h : HandlerStep s t) : s.trace <+: t.trace := by
  obtain ⟨evs, htrace, -⟩ := h.grows
  exact ⟨evs, htrace.symm⟩

theorem Cleared.pre {s t u : State} (h1 : s.trace <+: t.trace) (h2 : Cleared t u) : Cleared s u :=
  ⟨h2.1, h1.length_le.trans_lt h2.2⟩

theorem Cleared.emit {s t : State} (h : Cleared s t) (e : Event) : Cleared s (t.emit e) :=
  ⟨h.1, h.2.trans_le (by simp)⟩

theorem Cleared.logged {s : State} {r : Res Unit × State} (h : Cleared s r.2) : Cleared s (logged r) := by
  rcases r with ⟨_ | k | _, u⟩
  · exact h
  · exact h.emit _
  · exact h

/-- Step 4 of `onConnectDetect` ends with the acknowledge, after whatever the callback did (R174). -/
theorem cleared_finishConnect (c : Bool) {s : State} (hr : s.role = .host) : Cleared s (finishConnect c s) := by
  have hn := (reported_notifyChange c s).step
  have hirq : topIrq (notifyChange c s).cfg (notifyChange c s).role = some (notifyChange c s).cfg.host.topIrq := by
    rw [hn.role, hr]
    rfl
  have hack : Cleared (notifyChange c s) (clearTop s.cfg.b.conDet (notifyChange c s)).2 := by
    rw [clearTop_eq hirq]
    exact (spent_write _ _ _).cleared
  exact hack.logged.pre hn.trace_prefix

theorem cleared_notConnected {s : State} (hr : s.role = .host) : Cleared s (notConnected s) := by
  have h : CallStep [] s (logged (disableOpts s.cfg.host.sofReg s.cfg.b.sofEn s)) :=
    callStep_logged (busStep_disableOpts _ _ _).toCall
  exact (cleared_finishConnect false
    (s := { logged (disableOpts s.cfg.host.sofReg s.cfg.b.sofEn s) with bstate := .noDevice })
    (h.frame.role.trans hr)).pre h.trace_prefix

theorem cleared_abortConnect (k : FaultKind) {s : State} (hr : s.role = .host) : Cleared s (abortConnect k s) :=
  (cleared_notConnected (s := s.logFault k) hr).pre (busStep_logFault s k).toCall.trace_prefix

theorem cleared_bringUp {s : State} (hr : s.role = .host) : Cleared s (bringUp s) := by
  have h1 := callStep_callOut (.call .performBusReset) { s with bstate := .resetting } rfl rfl
  rw [bringUp_eq]
  generalize (callOut (.call .performBusReset) { s with bstate := .resetting }).2 = u at h1
  have h2 := callStep_callOut (.call .performEnumeration)
    { u with bstate := .enumerating, trace := u.trace ++ [.delay .settle] } rfl rfl
  dsimp only
  generalize callOut (.call .performEnumeration)
    { u with bstate := .enumerating, trace := u.trace ++ [.delay .settle] } = r at h2
  have hrole : r.2.role = .host := (h2.frame.role.trans h1.frame.role).trans hr
  have hprefix : s.trace <+: r.2.trace := (h1.trace_prefix.trans (List.prefix_append _ _)).trans h2.trace_prefix
  refine (cleared_finishConnect true ?_).pre (hprefix.trans (List.prefix_append _ _))
  exact hrole

theorem cleared_connectedPath {s : State} (hr : s.role = .host) : Cleared s (connectedPath s) := by
  have h1 := (busStep_enableOpts s.cfg.host.sofReg s.cfg.b.sofEn s).toCall
  unfold connectedPath
  split
  next s1 he =>
    rw [he] at h1
    have h2 := h1.trans (callStep_poll s1.cfg.host.topIrq (frameSeen s1.cfg) s1.cfg.framePollCap s1)
    split
    next s2 hp =>
      rw [hp] at h2
      exact (cleared_bringUp (h2.frame.role.trans hr)).pre h2.trace_prefix
    next s2 hp =>
      rw [hp] at h2
      exact (cleared_abortConnect _ (h2.frame.role.trans hr)).pre h2.trace_prefix
    next s2 hp =>
      rw [hp] at h2
      exact (cleared_abortConnect _ (h2.frame.role.trans hr)).pre h2.trace_prefix
  next k s1 he =>
    rw [he] at h1
    exact (cleared_abortConnect _ (h1.frame.role.trans hr)).pre h1.trace_prefix
  next s1 he =>
    rw [he] at h1
    exact (cleared_abortConnect _ (h1.frame.role.trans hr)).pre h1.trace_prefix

theorem cleared_connectDetect {s : State} (hr : s.role = .host) : Cleared s (connectDetect s) := by
  have h1 := (busStep_readReg s.cfg.host.lineState s).toCall
  unfold connectDetect
  split
  next v s1 he =>
    rw [he] at h1
    have hr1 := h1.frame.role.trans hr
    split
    · exact (cleared_connectedPath (s := { s1 with bstate := .connected }) hr1).pre h1.trace_prefix
    · exact (cleared_notConnected hr1).pre h1.trace_prefix
  next k s1 he =>
    rw [he] at h1
    exact (cleared_abortConnect _ (h1.frame.role.trans hr)).pre h1.trace_prefix
  next s1 he =>
    rw [he] at h1
    exact (cleared_abortConnect _ (h1.frame.role.trans hr)).pre h1.trace_prefix

theorem cleared_onInBufAvail {s : State} (hr : s.role = .peripheral) : Cleared s (logged (disableEp s.cfg.b.inBAv s)) := by
  refine Cleared.logged ?_
  rw [disableEp_eq hr]
  exact (spent_afterRmw s _ (· &&& ~~~s.cfg.b.inBAv)).cleared

/-- The last of the four steps of `onResetDone` is a write (R194). -/
theorem cleared_resetDone (s : State) : Cleared s (resetDone s) := by
  have h1 : CallStep [] s (logged (clearTop s.cfg.b.uresDn s)) := callStep_logged (busStep_clearTop _ s).toCall
  have h2 (u : State) : CallStep [] u (logged (enableEp u.cfg.b.sudAv u)) := callStep_logged (callStep_enableEp _ u)
  have h3 (u : State) : CallStep [] u (logged (enableTop u.cfg.b.uresDn u)) := callStep_logged (callStep_enableTop _ u)
  have hlast (u : State) : Cleared u (logged ((writeReg u.cfg.periph.ep2InBc u.cfg.ep2Refill u).1.done,
      (writeReg u.cfg.periph.ep2InBc u.cfg.ep2Refill u).2)) :=
    Cleared.logged (spent_writeReg _ _ u).cleared
  exact (hlast _).pre ((h1.trans (h2 _)).trans (h3 _)).trace_prefix

/-! ## The call of `onSetup` -/

/-- A call is recorded first; what the callee does comes after it (R228). -/
theorem callOut_trace (e : Event) (s : State) : ∃ evs, (callOut e s).2.trace = s.trace ++ e :: evs := by
  obtain ⟨evs, htrace, -⟩ :=
    (callStep_runAll ((s.emit e).collabAnswer).ops { s.emit e with collab := s.collab.tail }).grows
  exact ⟨evs, by rw [callOut, htrace, emit_trace, List.append_assoc, List.singleton_append]⟩

/-- The dispatch leaves the flag set only if it was set or the collaborator was called. -/
theorem dispatchRequest_flag (q : Byte) (packet : List Byte) {s : State} (hs : s.ackstat = false)
    (h : (dispatchRequest q packet s).ackstat = true) :
    ∃ evs, (dispatchRequest q packet s).trace = s.trace ++ .call (.respondToStatusRequest packet) :: evs := by
  unfold dispatchRequest at h ⊢
  split at h
  next =>
    have hc := (spent_readRegAS s.cfg.periph.ackReg s).cleared
    have hl : Cleared s (logged ((readRegAS s.cfg.periph.ackReg s).1.done, (readRegAS s.cfg.periph.ackReg s).2)) :=
      Cleared.logged hc
    exact absurd (hl.1.symm.trans h) Bool.false_ne_true
  next hq =>
    rw [if_neg hq]
    split at h
    next hq' =>
      rw [if_pos hq']
      exact callOut_trace _ s
    next => exact absurd (hs.symm.trans h) Bool.false_ne_true

/-! ## The flag after any instruction -/

/-- What an instruction leaves of the flag: without an event, what there was, or set by `setAckstat()`; with one it is clear, unless the
instruction is `onSetup` and called the collaborator of GET_STATUS (R21, R228). -/
def FlagAfter (i : Instr) (s t : State) : Prop :=
  (t.trace = s.trace ∧ t.ackstat = if i = .setAckstat then true else s.ackstat) ∨
  (t.trace ≠ s.trace ∧ (t.ackstat = true → i = .onSetup ∧
    ∃ packet, Event.call (.respondToStatusRequest packet) ∈ t.trace.drop s.trace.length))

theorem FlagAfter.unchanged {i : Instr} (hi : i ≠ .setAckstat) (s : State) : FlagAfter i s s :=
  .inl ⟨rfl, (if_neg hi).symm⟩

theorem Cleared.flagAfter {i : Instr} {s t : State} (h : Cleared s t) : FlagAfter i s t :=
  .inr ⟨h.trace_ne, fun hset => absurd (h.1.symm.trans hset) Bool.false_ne_true⟩

theorem OpFlag.flagAfter {i : Instr} {s t : State} (h : OpFlag i s t) : FlagAfter i s t :=
  h.elim .inl fun hspent => hspent.cleared.flagAfter

theorem flagAfter_rawTransaction {i : Instr} (hi : i ≠ .setAckstat) (a : Addr) (d : Dir) (flag : Bool) (datas : List Byte)
    (hz : d = .write ∨ ∀ o ∈ datas, o = 0) (s : State) : FlagAfter i s (rawTransaction a d flag datas s) := by
  rcases rawTransaction_cases s a d flag datas hz with h | ⟨u, ans, h, -, hspent⟩
  · exact h ▸ FlagAfter.unchanged hi s
  · exact h ▸ hspent.cleared.flagAfter

/-- The dispatch after a burst, which has spent the flag. -/
theorem flagAfter_dispatchRequest (q : Byte) (packet : List Byte) {s u : State} (h : Cleared s u) :
    FlagAfter .onSetup s (dispatchRequest q packet u) := by
  have hgrown := h.2.trans_le (callStep_dispatchRequest q packet u).trace_prefix.length_le
  refine .inr ⟨fun heq => absurd hgrown (heq ▸ Nat.lt_irrefl _), fun hset => ⟨rfl, packet, ?_⟩⟩
  obtain ⟨evs, htrace⟩ := dispatchRequest_flag q packet h.1 hset
  rw [htrace, List.drop_append_of_le_length h.2.le]
  simp

theorem flagAfter_onSetup (s : State) : ∃ t, exec .onSetup s = .next t ∧ FlagAfter .onSetup s t := by
  show ∃ t, execOnSetup s = .next t ∧ FlagAfter .onSetup s t
  cases hr : s.role with
  | unset => exact ⟨s, by rw [execOnSetup, hr], .unchanged (by simp) s⟩
  | host => exact ⟨s, by rw [execOnSetup, hr], .unchanged (by simp) s⟩
  | peripheral =>
    have hack : Cleared s (s.afterWrite s.cfg.periph.epIrq s.cfg.b.sudAv) := (spent_write s _ _).cleared
    cases hw : s.writeOk s.cfg.periph.epIrq s.cfg.b.sudAv with
    | false => exact ⟨_, execOnSetup_ackFault hr hw, (hack.emit _).flagAfter⟩
    | true =>
      rw [execOnSetup_burst hr hw]
      generalize s.afterWrite s.cfg.periph.epIrq s.cfg.b.sudAv = s1 at hack
      have hfilled : Cleared s s1.packetFilled :=
        ⟨rfl, hack.2.trans (spent_read s1 _ packetBytes).cleared.2⟩
      cases hburst : s1.busOk (s1.readBytes s1.cfg.periph.sudFifo packetBytes) with
      | false => exact ⟨_, fetchPacket_fault hburst, (hfilled.emit _).flagAfter⟩
      | true =>
        obtain ⟨q, hq⟩ := fetchPacket_dispatch hburst
        exact ⟨_, hq, flagAfter_dispatchRequest q _ hfilled⟩

theorem flagAfter_onInBufAvail (s : State) : ∃ t, exec .onInBufAvail s = .next t ∧ FlagAfter .onInBufAvail s t := by
  show ∃ t, execOnInBufAvail s = .next t ∧ FlagAfter .onInBufAvail s t
  unfold execOnInBufAvail
  split
  · exact ⟨s, rfl, .unchanged (by simp) s⟩
  · exact ⟨s, rfl, .unchanged (by simp) s⟩
  next hr => exact ⟨_, rfl, (cleared_onInBufAvail hr).flagAfter⟩

theorem flagAfter_onResetDone (s : State) : ∃ t, exec .onResetDone s = .next t ∧ FlagAfter .onResetDone s t := by
  show ∃ t, execOnResetDone s = .next t ∧ FlagAfter .onResetDone s t
  unfold execOnResetDone
  split
  · exact ⟨s, rfl, .unchanged (by simp) s⟩
  · exact ⟨s, rfl, .unchanged (by simp) s⟩
  · exact ⟨_, rfl, (cleared_resetDone s).flagAfter⟩

theorem flagAfter_onConnectDetect (s : State) :
    ∃ t, exec .onConnectDetect s = .next t ∧ FlagAfter .onConnectDetect s t := by
  show ∃ t, execOnConnectDetect s = .next t ∧ FlagAfter .onConnectDetect s t
  unfold execOnConnectDetect
  split
  · exact ⟨s, rfl, .unchanged (by simp) s⟩
  next hr => exact ⟨_, rfl, (cleared_connectDetect hr).flagAfter⟩
  · exact ⟨s, rfl, .unchanged (by simp) s⟩

/-- Every instruction: the operations by `opFlag_exec`, the raw transactions and the handlers each by its own lemma. -/
theorem flagAfter_exec {i : Instr} {s t : State} (hexec : exec i s = .next t) : FlagAfter i s t := by
  have hf : ∃ u, exec i s = .next u ∧ FlagAfter i s u := by
    cases hi : isOp i with
    | true =>
      obtain ⟨u, hu, hop⟩ := opFlag_exec i s hi
      exact ⟨u, hu, hop.flagAfter⟩
    | false =>
      cases i with
      | regrd a flag n =>
        exact ⟨_, rfl, flagAfter_rawTransaction (by simp) a .read flag _ (.inr (dummies_zero n)) s⟩
      | regwr a flag vs => exact ⟨_, rfl, flagAfter_rawTransaction (by simp) a .write flag vs (.inl rfl) s⟩
      | onSetup => exact flagAfter_onSetup s
      | onInBufAvail => exact flagAfter_onInBufAvail s
      | onResetDone => exact flagAfter_onResetDone s
      | onConnectDetect => exact flagAfter_onConnectDetect s
      | _ => cases hi
  obtain ⟨u, hu, hflag⟩ := hf
  cases hu.symm.trans hexec
  exact hflag

/-- Settles O55: the state table's frame, and what becomes of the flag. -/
theorem registersHaveNamedWriters : Obligations.RegistersHaveNamedWriters := by
  intro i s t hexec
  have hw := writers_exec hexec
  have hedges : ∃ evs, t.trace = s.trace ++ evs ∧ EdgesTaken (exchanges evs) s t := by
    obtain ⟨evs, htrace, -, hedges⟩ := hw.grows
    exact ⟨evs, htrace, hedges⟩
  have hkept : t.trace = s.trace → t.ackstat = if i = .setAckstat then true else s.ackstat := fun heq =>
    (flagAfter_exec hexec).elim (fun ⟨_, hflag⟩ => hflag) fun ⟨hne, _⟩ => absurd heq hne
  have hset : t.trace ≠ s.trace → t.ackstat = true → i = .onSetup ∧
      ∃ packet, Event.call (.respondToStatusRequest packet) ∈ t.trace.drop s.trace.length := fun hne =>
    (flagAfter_exec hexec).elim (fun ⟨heq, _⟩ => absurd heq hne) fun ⟨_, hcall⟩ => hcall
  have hresults (sel : Sel) (hne : t.results ≠ s.results) : decode (.evt sel) ≠ .ok i := fun hdec =>
    hne (hw.results ⟨sel, hdec⟩)
  exact ⟨hw.started, hw.connection, hkept, hset, hedges, hw.cb, hw.rxbuf, hw.beyond, hw.top, hw.endpoint, hw.sel, hw.cfg,
    hw.sched, fun hne => ⟨hresults _ hne, hresults _ hne, hresults _ hne, hresults _ hne⟩⟩

end Sys2Proof.Machine

/-! # The one-shot flag, the step, the report, power-on (O5, O8, O43, O53) -/

namespace Sys2Proof.Machine

/-- Settles O5: a command byte carries the flag of the state it is built in, and building it clears the flag. -/
theorem flagIsOneShot : Obligations.FlagIsOneShot := by
  intro a b d e s
  have hcarries (c : Addr) (f : Dir) (u : State) : (buildCmd c f u).1.getLsbD 0 = u.ackstat :=
    cmdAckstat_cmdByte c f u.ackstat
  exact ⟨hcarries a d _, hcarries b e _, rfl⟩

/-- An idle block without a pending event takes the next item of the schedule (R212). -/
theorem fetch_idle {s : State} (hsel : s.sel = 0) (hpend : s.irqPend = false) : fetch s = fetchItem s := by
  have hnone : decode (.evt s.sel) = .error .noHandler := by rw [hsel]; rfl
  simp [fetch, hnone, hpend]

/-- Settles O8: what is fetched is the decoded item or handler, and the step runs it. -/
theorem stepRunsDecodedInstruction : Obligations.StepRunsDecodedInstruction := by
  refine ⟨fun s w payload ref rest i hsel hpend hsched hdec => ?_, fun s bytes rest i hsel hpend hsched hdec => ?_,
    fun s h hdec => ?_⟩
  · simp only [step, fetch_idle hsel hpend, fetchItem, hsched, fetchOp, hdec]
  · simp only [step, fetch_idle hsel hpend, fetchItem, hsched, fetchBus, hdec]
  · simp only [step, fetch, hdec, retireHandler, clearLowest]

/-- Settles O43: the three ways through `notifyChange`. -/
theorem notifyOnChange : Obligations.NotifyOnChange := by
  refine fun s b => ⟨fun hsame => if_pos hsame, fun hchange hcb => ?_, fun cb hchange hcb => ?_⟩
  · simp only [notifyChange, if_neg hchange, hcb]
  · simp only [notifyChange, if_neg hchange, hcb]

/-- Settles O53: every clause is about the power-on values of R34, but for the configuration, which R7 constrains. -/
theorem invHoldsAtReset : Obligations.InvHoldsAtReset where
  memory := rfl
  framed := rfl
  armed := by simp [State.reset]
  pending hp := absurd hp Bool.false_ne_true
  endpoint _ := rfl
  hostOnly _ := ⟨rfl, rfl⟩
  busState := .inr ⟨rfl, rfl⟩
  handlers := rfl
  config := Config.validCfg.property

end Sys2Proof.Machine

/-! # The two bus transactions (O18) -/

namespace Sys2Proof.Machine

theorem exec_regrd (a : Addr) (flag : Bool) (n : Nat) (s : State) :
    exec (.regrd a flag n) s = .next (rawTransaction a .read flag (List.replicate n 0x00) s) := rfl

theorem exec_regwr (a : Addr) (flag : Bool) (vs : List Byte) (s : State) :
    exec (.regwr a flag vs) s = .next (rawTransaction a .write flag vs s) := rfl

/-- Settles O18: both are the raw transaction, whose closed form is one bus transaction or a refusal; a read presents as many dummies
as it asks for bytes. -/
theorem busTransactions : Obligations.BusTransactions := by
  refine ⟨fun s a flag n => ?read, fun s a flag vs => ?write⟩
  case read => rw [exec_regrd, rawTransaction_eq, List.length_replicate, answerRefused_eq]
  case write => rw [exec_regwr, rawTransaction_eq, answerRefused_eq]

end Sys2Proof.Machine

/-! # Words and instructions (O1, O2, O3) -/

namespace Sys2Proof.Machine

/-! ## Which words decode -/

/-- The words of the two illegal rows (R87). -/
def IllegalCode (w : OpWord) : Prop := (opcOf w).toNat = 0 ∨ 0x18 ≤ (opcOf w).toNat

/-- A word is not at fault exactly when every field its operation does not use is zero (R87). -/
theorem wordFault_eq_none_iff (w : OpWord) :
    wordFault w = none ↔ z1Of w = 0 ∧ z2Of w = 0 ∧ (usesAddr (opcOf w).toNat = false → addrOf w = 0) ∧
      (immIsZero (opcOf w).toNat = true → immOf w = 0) ∧ (immIsOneBit (opcOf w).toNat = true → immOf w >>> 1 = 0) := by
  simp [wordFault, ite_eq_iff]

/-- What an operation word decodes to, and when it does (R85, R87, R90). -/
theorem decode_op_eq_ok_iff (w : OpWord) (payload : List Byte) (ref : CallbackRef) (i : Instr) :
    decode (.op w payload ref) = .ok i ↔
      opOf w payload ref = i ∧ (IllegalCode w ∨ wordFault w = none ∧ payload.length = payloadCount w) := by
  by_cases hill : IllegalCode w
  · have hdec : decode (.op w payload ref) = .ok (opOf w payload ref) := if_pos hill
    simp [hdec, hill]
  · simp only [IllegalCode] at hill
    simp only [decode, decodeOp, IllegalCode, if_neg hill]
    cases wordFault w with
    | some e => simp [hill]
    | none => by_cases hlen : payload.length = payloadCount w <;> simp [hill, hlen]

/-- A word without fault is made of its operation code and the fields its operation uses (R84, R85). -/
theorem mkWord_of_noFault {w : OpWord} {k : Nat} (hfault : wordFault w = none) (hk : (opcOf w).toNat = k) :
    w = mkWord (BitVec.ofNat 5 k) 0 (if usesAddr k then addrOf w else 0) 0 (if immIsZero k then 0 else immOf w) := by
  obtain ⟨hz1, hz2, haddr, himm, -⟩ := (wordFault_eq_none_iff w).mp hfault
  rw [hk] at haddr himm
  have hcode : opcOf w = BitVec.ofNat 5 k := BitVec.eq_of_toNat_eq (by simp [← hk])
  have ha : (if usesAddr k then addrOf w else 0) = addrOf w := by
    split
    next => rfl
    next hunused => exact (haddr (by simpa using hunused)).symm
  have hi : (if immIsZero k then 0 else immOf w) = immOf w := by
    split
    next hzero => exact (himm hzero).symm
    next => rfl
  have hw := mkWord_fields w
  rw [hz1, hz2] at hw
  rw [ha, hi, ← hcode, hw]

/-- `multiWriteRegister` has its operation code to itself (R85). -/
theorem payloadCount_eq (w : OpWord) : payloadCount w = if (opcOf w).toNat = 6 then (immOf w).toNat else 0 := by
  simp [payloadCount, BitVec.toNat_eq]

/-! ## What decodes is well formed (O2) -/

/-- Of the operations only `multiWriteRegister` has a length to check: its payload's (R90). -/
theorem opOf_wellFormed {w : OpWord} {payload : List Byte} (ref : CallbackRef)
    (hlen : (opcOf w).toNat = 6 → payload.length ≤ maxBytes) : (opOf w payload ref).WellFormed := by
  unfold opOf
  split
  case h_6 hk => exact Nat.ble_eq.mpr (hlen hk)
  all_goals rfl

/-- The count of payload bytes is a byte (R84, R90). -/
theorem decodeOp_wellFormed {w : OpWord} {payload : List Byte} {ref : CallbackRef} {i : Instr}
    (h : decode (.op w payload ref) = .ok i) : i.WellFormed := by
  obtain ⟨rfl, hill | ⟨-, hlen⟩⟩ := (decode_op_eq_ok_iff w payload ref i).mp h
  · exact opOf_wellFormed ref fun hk => by unfold IllegalCode at hill; omega
  · refine opOf_wellFormed ref fun hk => ?_
    have := (immOf w).isLt
    rw [hlen, payloadCount_eq, if_pos hk, maxBytes]
    omega

/-- What the bytes of a bus transaction decode to, and when they do (R81, R82, R88). -/
theorem decode_bus_eq_ok_iff (c : Byte) (ds : List Byte) (i : Instr) :
    decode (.bus (c :: ds)) = .ok i ↔ cmdBit2 c = false ∧ ds.length ≤ maxBytes ∧
      (cmdIsWrite c = true ∧ .regwr (cmdAddr c) (cmdAckstat c) ds = i ∨
        cmdIsWrite c = false ∧ ds = List.replicate ds.length 0 ∧ .regrd (cmdAddr c) (cmdAckstat c) ds.length = i) := by
  have hzero : ds.all (· == 0) = true ↔ ds = List.replicate ds.length 0 := by simp [List.eq_replicate_iff]
  have hlong : Nat.blt maxBytes ds.length = true ↔ ¬ ds.length ≤ maxBytes := by simp [Nat.blt_eq]
  simp only [decode, decodeBus, hlong, hzero]
  cases cmdBit2 c with
  | true => simp
  | false =>
    by_cases hlen : ds.length ≤ maxBytes
    case neg => simp [hlen]
    case pos =>
      cases cmdIsWrite c with
      | true => simp [hlen]
      | false => simp [hlen, ite_eq_iff]

theorem decodeBus_wellFormed {bytes : List Byte} {i : Instr} (h : decode (.bus bytes) = .ok i) : i.WellFormed := by
  cases bytes with
  | nil => cases h
  | cons c ds =>
    obtain ⟨-, hlen, ⟨-, rfl⟩ | ⟨-, -, rfl⟩⟩ := (decode_bus_eq_ok_iff c ds i).mp h
    · exact Nat.ble_eq.mpr hlen
    · exact Nat.ble_eq.mpr hlen

/-- Settles O2: lengths are counted in a byte, on the bus as in the word; the handlers have none. -/
theorem decodedIsWellFormed : Obligations.DecodedIsWellFormed := by
  intro p i h
  cases p with
  | op w payload ref => exact decodeOp_wellFormed h
  | bus bytes => exact decodeBus_wellFormed h
  | evt sel => rcases isHandler_cases ⟨sel, h⟩ with rfl | rfl | rfl | rfl <;> rfl

/-! ## What decodes reads back (O3) -/

/-- A command byte with bit 2 clear is made of its fields (R81, R88). -/
theorem cmdByte_of_bit2 : ∀ c : Byte, cmdBit2 c = false →
    cmdByte (cmdAddr c) (if cmdIsWrite c then .write else .read) (cmdAckstat c) = c := by decide

theorem encode_decodeBus {bytes : List Byte} {i : Instr} (h : decode (.bus bytes) = .ok i) : encode i = .bus bytes := by
  cases bytes with
  | nil => cases h
  | cons c ds =>
    obtain ⟨hbit2, -, ⟨hdir, rfl⟩ | ⟨hdir, hzero, rfl⟩⟩ := (decode_bus_eq_ok_iff c ds i).mp h
    · have hc := cmdByte_of_bit2 c hbit2
      rw [hdir] at hc
      exact congrArg (fun b => Presented.bus (b :: ds)) hc
    · have hc := cmdByte_of_bit2 c hbit2
      rw [hdir] at hc
      rw [encode, ← hzero]
      exact congrArg (fun b => Presented.bus (b :: ds)) hc

/-- The rest of the operation codes, from `0x18` on, is the second illegal row (R87). -/
theorem opOf_illegal18to1F {w : OpWord} (h : 0x18 ≤ (opcOf w).toNat) (payload : List Byte) (ref : CallbackRef) :
    opOf w payload ref = .illegal18to1F (w.extractLsb' 0 22) := by
  unfold opOf
  split
  case h_25 => rfl
  all_goals omega

/-- An illegal row's word comes back whole; its payload is not taken (R87). -/
theorem encode_opOf_illegal {w : OpWord} (hill : IllegalCode w) (payload : List Byte) (ref : CallbackRef) :
    encode (opOf w payload ref) = .op w [] 0 := by
  rcases hill with h | h
  · simp only [opOf, h, encode, word_of_illegal00 h]
  · rw [opOf_illegal18to1F h, encode, word_of_illegal18 h]

/-- The two values an immediate of which bit 0 alone is used can have (R85). -/
theorem imm_oneBit : ∀ b : Byte, b >>> 1 = 0 → b = if b.getLsbD 0 then 1 else 0 := by decide

theorem encode_start (b : Bool) :
    encode (.start (if b then .peripheral else .host)) = immWord 0x15 (if b then 1 else 0) := by cases b <;> rfl

/-- The word of `registerCallback` says whether there is a reference; the reference itself stands beside it (log entry 6). -/
theorem encode_registerCallback (b : Bool) (ref : CallbackRef) :
    encode (.registerCallback (if b then some ref else none)) =
      .op (mkWord 0x17 0 0 0 (if b then 1 else 0)) [] (if b then ref else 0) := by cases b <;> rfl

theorem encode_opOf {w : OpWord} {payload : List Byte} (ref : CallbackRef) (hfault : wordFault w = none)
    (hlen : payload.length = payloadCount w) (hlegal : ¬ IllegalCode w) :
    ∃ ref', encode (opOf w payload ref) = .op w payload ref' := by
  obtain ⟨-, -, -, -, hone⟩ := (wordFault_eq_none_iff w).mp hfault
  rw [payloadCount_eq] at hlen
  have hw {k : Nat} (hk : (opcOf w).toNat = k) := mkWord_of_noFault hfault hk
  have hnil (h6 : (opcOf w).toNat ≠ 6) : payload = [] := by simpa [h6] using hlen
  unfold IllegalCode at hlegal
  unfold opOf
  split
  case h_6 hk =>
    rw [if_pos hk] at hlen
    have himm : BitVec.ofNat 8 payload.length = immOf w := by simp [hlen]
    refine ⟨0, ?_⟩
    rw [encode, himm]
    exact congrArg (Presented.op · payload 0) (hw hk).symm
  case h_21 hk =>
    obtain rfl := hnil (by omega)
    rw [encode_start, ← imm_oneBit _ (hone (by rw [hk]; rfl))]
    exact ⟨0, congrArg (Presented.op · [] 0) (hw hk).symm⟩
  case h_23 hk =>
    obtain rfl := hnil (by omega)
    rw [encode_registerCallback, ← imm_oneBit _ (hone (by rw [hk]; rfl))]
    exact ⟨_, congrArg (Presented.op · [] _) (hw hk).symm⟩
  case h_24 hk => exact absurd (.inl hk) hlegal
  case h_25 =>
    simp only [imp_false] at *
    omega
  all_goals
    rename_i hk
    obtain rfl := hnil (by omega)
    exact ⟨0, congrArg (Presented.op · [] 0) (hw hk).symm⟩

/-- Settles O3: what decodes is made of its fields, on the bus and in the word, and the encoder puts the fields back together. -/
theorem decodedReadsBack : Obligations.DecodedReadsBack := by
  refine ⟨fun bytes i h => encode_decodeBus h, fun w payload ref i h => ?_⟩
  rw [opcOf_shift]
  obtain ⟨rfl, hok⟩ := (decode_op_eq_ok_iff w payload ref i).mp h
  by_cases hill : IllegalCode w
  · exact .inr ⟨hill, 0, encode_opOf_illegal hill payload ref⟩
  · obtain ⟨hfault, hlen⟩ := hok.resolve_left hill
    exact .inl (encode_opOf ref hfault hlen hill)

/-! ## The round trip (O1) -/

/-- The operation code is of an operation, and each of the other fields is zero or is used by it (R85, R87). -/
structure FieldsLegal (opc : BitVec 5) (a : Addr) (imm : Byte) : Prop where
  code : ¬ (opc.toNat = 0 ∨ 0x18 ≤ opc.toNat)
  addr : a = 0 ∨ usesAddr opc.toNat = true
  immZero : imm = 0 ∨ immIsZero opc.toNat = false
  immOneBit : imm >>> 1 = 0 ∨ immIsOneBit opc.toNat = false

theorem FieldsLegal.noFault {opc : BitVec 5} {a : Addr} {imm : Byte} (h : FieldsLegal opc a imm) :
    wordFault (mkWord opc 0 a 0 imm) = none := by
  rw [wordFault_eq_none_iff, opcOf_mkWord, z1Of_mkWord, z2Of_mkWord, addrOf_mkWord, immOf_mkWord]
  exact ⟨rfl, rfl, fun hunused => h.addr.resolve_right (by simp [hunused]),
    fun hzero => h.immZero.resolve_right (by simp [hzero]), fun hone => h.immOneBit.resolve_right (by simp [hone])⟩

/-- A word built from such fields decodes to the operation of its code, given the payload it announces (R84, R85, R90). -/
theorem decode_mkWord {opc : BitVec 5} {a : Addr} {imm : Byte} {payload : List Byte} {ref : CallbackRef} {i : Instr}
    (h : FieldsLegal opc a imm) (hlen : payload.length = if opc = 6 then imm.toNat else 0)
    (hop : opOf (mkWord opc 0 a 0 imm) payload ref = i) : decode (.op (mkWord opc 0 a 0 imm) payload ref) = .ok i := by
  refine (decode_op_eq_ok_iff ..).mpr ⟨hop, .inr ⟨h.noFault, ?_⟩⟩
  rwa [payloadCount, opcOf_mkWord, immOf_mkWord]

/-- Settles O1: on the bus the fields of the command byte come back; every legal row of R85 is a word whose unused fields are zero; the
words of the two illegal rows are recognised by their operation code, the handlers' vectors have one bit. -/
theorem decodeEncodeRoundTrip : Obligations.DecodeEncodeRoundTrip := by
  intro i hwf
  cases i with
  | regrd a flag n =>
    have hn : n ≤ maxBytes := Nat.ble_eq.mp hwf
    exact (decode_bus_eq_ok_iff ..).mpr ⟨cmdBit2_cmdByte .., by simpa using hn, .inr ⟨cmdIsWrite_read .., by simp, by simp⟩⟩
  | regwr a flag vs =>
    exact (decode_bus_eq_ok_iff ..).mpr ⟨cmdBit2_cmdByte .., Nat.ble_eq.mp hwf, .inl ⟨cmdIsWrite_write .., by simp⟩⟩
  | multiWriteRegister a vs =>
    have hlen : vs.length < 2 ^ 8 := Nat.lt_succ_of_le (Nat.ble_eq.mp hwf)
    refine decode_mkWord ⟨by decide, .inr rfl, .inr rfl, .inr rfl⟩ ?_ (by simp [opOf])
    rw [if_pos rfl, BitVec.toNat_ofNat, Nat.mod_eq_of_lt hlen]
  | writeRegister _ _ | writeRegisterAS _ _ | multiReadRegister _ _ | enableOptions _ _ | disableOptions _ _ =>
    exact decode_mkWord ⟨by decide, .inr rfl, .inr rfl, .inr rfl⟩ rfl (by simp [opOf])
  | readRegister _ | readRegisterAS _ =>
    exact decode_mkWord ⟨by decide, .inr rfl, .inl rfl, .inr rfl⟩ rfl (by simp [opOf])
  | enableInterrupts _ | disableInterrupts _ | enableEndpointInterrupts _ | disableEndpointInterrupts _
  | clearInterruptStatus _ | clearEndpointInterruptStatus _ =>
    exact decode_mkWord ⟨by decide, .inl rfl, .inr rfl, .inr rfl⟩ rfl (by simp [opOf])
  | setAckstat | getEnabledInterruptStatus | getEnabledEndpointInterruptStatus | masterEnable | masterDisable | reset
  | scanBus => exact decode_mkWord ⟨by decide, .inl rfl, .inl rfl, .inl rfl⟩ rfl rfl
  | start r => cases r <;> exact decode_mkWord ⟨by decide, .inl rfl, .inr rfl, .inl rfl⟩ rfl rfl
  | registerCallback cb => cases cb <;> exact decode_mkWord ⟨by decide, .inl rfl, .inr rfl, .inl rfl⟩ rfl rfl
  | illegal00 low =>
    obtain ⟨hcode, hlow⟩ := illegal00_fields low
    exact (decode_op_eq_ok_iff ..).mpr ⟨by simp only [opOf, hcode, hlow], .inl (.inl hcode)⟩
  | illegal18to1F low =>
    obtain ⟨hcode, hlow⟩ := illegal18_fields low
    exact (decode_op_eq_ok_iff ..).mpr ⟨by rw [opOf_illegal18to1F hcode, hlow], .inl (.inr hcode)⟩
  | onSetup | onInBufAvail | onResetDone | onConnectDetect => rfl

end Sys2Proof.Machine

/-! # The command byte, known words, handlers outside their role (O4, O6, O51) -/

namespace Sys2Proof.Machine

/-- Settles O4: the fields of a command byte are those it is built from. -/
theorem commandByteLayout : Obligations.CommandByteLayout := by
  intro a d s
  refine ⟨cmdAddr_cmdByte a d s.ackstat, cmdBit2_cmdByte a d s.ackstat, ?_, cmdAckstat_cmdByte a d s.ackstat, rfl⟩
  cases d with
  | read => exact cmdIsWrite_read a s.ackstat
  | write => exact cmdIsWrite_write a s.ackstat

/-- Settles O6 by evaluation: every word is written out. -/
theorem knownWordsDecode : Obligations.KnownWordsDecode :=
  ⟨rfl, rfl, rfl, rfl, rfl, rfl, rfl, rfl, rfl, rfl, rfl⟩

/-- Settles O51: each handler looks at the role first. -/
theorem handlersOutsideTheirRole : Obligations.HandlersOutsideTheirRole := by
  refine fun s => ⟨fun hrole => ?_, fun hrole => ?_⟩
  · cases h : s.role with
    | host => exact absurd h hrole
    | unset | peripheral => simp only [exec, execOnConnectDetect, h]
  · cases h : s.role with
    | peripheral => exact absurd h hrole
    | unset | host => simp only [exec, execOnSetup, execOnInBufAvail, execOnResetDone, h, and_self]

end Sys2Proof.Machine

/-! # Refused words, and where a step stops (O7, O15) -/

namespace Sys2Proof.Machine

/-! ## The words of R87, by their fields -/

/-- A field of a word, read by shifting and masking. -/
theorem shift_and_mask_eq_zero_iff (w : OpWord) (k : Nat) {n : Nat} (hn : n ≤ 24) :
    (w >>> k) &&& BitVec.ofNat 24 (2 ^ n - 1) = 0 ↔ w.extractLsb' k n = 0 := by
  have hmask : (2 ^ n - 1) % 2 ^ 24 = 2 ^ n - 1 :=
    Nat.mod_eq_of_lt (Nat.sub_one_lt_of_le (Nat.two_pow_pos n) (Nat.pow_le_pow_right Nat.two_pos hn))
  have hfield : ((w >>> k) &&& BitVec.ofNat 24 (2 ^ n - 1)).toNat = (w.extractLsb' k n).toNat := by
    rw [BitVec.toNat_and, BitVec.toNat_ushiftRight, BitVec.toNat_ofNat, hmask, Nat.and_two_pow_sub_one_eq_mod,
      BitVec.extractLsb'_toNat]
  rw [BitVec.toNat_eq, hfield, BitVec.toNat_eq]
  rfl

/-- The bits of `IMM` above bit 0, in the word. -/
theorem immHigh_of_and {w : OpWord} (h : immOf w >>> 1 = 0) : w &&& 0xFE = 0 := by
  have hmask : (0xFE : OpWord) = mkWord 0 0 0 0 0xFE := by decide
  have himm : ∀ b : Byte, b >>> 1 = 0 → b &&& 0xFE = 0 := by decide
  have hw := Laws.EncodeRow.and_mkWord (opcOf w) 0 (z1Of w) 0 (addrOf w) 0 (z2Of w) 0 (immOf w) 0xFE
  rw [mkWord_fields, ← hmask, himm _ h] at hw
  simpa [mkWord] using hw

/-- A malformed word of R87 is of an illegal row, or at fault. -/
theorem illegalWord_cases {w : OpWord} (h : IllegalWord w) : IllegalCode w ∨ wordFault w ≠ none := by
  refine or_iff_not_imp_right.mpr fun hok => ?_
  obtain ⟨hz1, hz2, haddr, himm, hone⟩ := (wordFault_eq_none_iff w).mp (not_not.mp hok)
  have hunused : ∀ k, 8 < k → usesAddr k = false := fun k hk => Bool.eq_false_iff.mpr fun h => by
    simp only [usesAddr, Bool.and_eq_true, Nat.ble_eq] at h
    omega
  have hzero : ∀ k ∈ [0x01, 0x03, 0x09, 0x10, 0x11, 0x12, 0x13, 0x14, 0x16], immIsZero k = true := by decide
  have hbit : ∀ k ∈ [0x15, 0x17], immIsOneBit k = true := by decide
  simp only [IllegalWord, opcOf_shift] at h
  rcases h with hc | hc | hc | hc | ⟨hc, hf⟩ | ⟨hc, hf⟩ | ⟨hc, hf⟩
  · exact .inl hc
  · exact .inr hc
  · exact absurd ((shift_and_mask_eq_zero_iff w 16 (n := 3) (by decide)).mpr hz1) hc
  · exact absurd ((shift_and_mask_eq_zero_iff w 8 (n := 3) (by decide)).mpr hz2) hc
  · exact absurd ((shift_and_mask_eq_zero_iff w 11 (n := 5) (by decide)).mpr (haddr (hunused _ hc))) hf
  · exact absurd ((shift_and_mask_eq_zero_iff w 0 (n := 8) (by decide)).mpr (himm (hzero _ hc))) hf
  · exact absurd (immHigh_of_and (hone (hbit _ hc))) hf

/-! ## What the step does with them -/

/-- An idle block with nothing pending takes the operation word at the head of the schedule (R212, R261). -/
theorem fetch_op {s : State} {w : OpWord} {payload : List Byte} {ref : CallbackRef} {rest : List Item} (hsel : s.sel = 0)
    (hpend : s.irqPend = false) (hsched : s.sched = .op w payload ref :: rest) :
    fetch s = fetchOp w payload ref { s with sched := rest } := by
  simp only [fetch_idle hsel hpend, fetchItem, hsched]

/-- An operation word is answered `Refused`, and nothing else happens, if it decodes to nothing or only to what is refused (R87, R223). -/
theorem step_refusedWord {s : State} {w : OpWord} {payload : List Byte} {ref : CallbackRef} {rest : List Item}
    (hsel : s.sel = 0) (hpend : s.irqPend = false) (hsched : s.sched = .op w payload ref :: rest)
    (hexec : ∀ i, decode (.op w payload ref) = .ok i →
      exec i { s with sched := rest } = .next (answerRefused { s with sched := rest })) :
    step s = .next { s with sched := rest, results := s.results ++ [⟨.refused, []⟩] } := by
  cases hdec : decode (.op w payload ref) with
  | error e =>
    simp only [step, fetch_op hsel hpend hsched, fetchOp, hdec]
    rfl
  | ok i =>
    simp only [step, fetch_op hsel hpend hsched, fetchOp, hdec]
    exact hexec i hdec

/-- A word of an illegal row is one of the two instructions whose meaning is `Refused`. -/
theorem exec_opOf_illegal {w : OpWord} (hill : IllegalCode w) (payload : List Byte) (ref : CallbackRef) (s : State) :
    exec (opOf w payload ref) s = .next (answerRefused s) := by
  rcases hill with h | h
  · simp only [opOf, h, exec, execIllegal00]
  · rw [opOf_illegal18to1F h]
    rfl

/-- A malformed word decodes to nothing, but for those of the illegal rows. -/
theorem exec_illegalWord {w : OpWord} (hill : IllegalWord w) {payload : List Byte} {ref : CallbackRef} {i : Instr}
    (hdec : decode (.op w payload ref) = .ok i) (s : State) : exec i s = .next (answerRefused s) := by
  obtain ⟨rfl, hok⟩ := (decode_op_eq_ok_iff w payload ref i).mp hdec
  refine exec_opOf_illegal (hok.elim id fun hlegal => ?_) payload ref s
  exact (illegalWord_cases hill).resolve_right (not_not.mpr hlegal.1)

/-- A multi word of more than `MAX_BURST` bytes decodes to a burst that is refused, if its payload lets it decode at all (R87, R90). -/
theorem exec_burstTooLong {s : State} {w : OpWord} (hlong : BurstTooLong s.cfg w) {payload : List Byte} {ref : CallbackRef}
    {i : Instr} (hdec : decode (.op w payload ref) = .ok i) : exec i s = .next (answerRefused s) := by
  obtain ⟨rfl, hok⟩ := (decode_op_eq_ok_iff w payload ref i).mp hdec
  obtain ⟨a, n, hn, rfl | rfl⟩ := hlong
  case inl =>
    have hop : opOf (mkWord 0x05 0 a 0 n) payload ref = .multiReadRegister a n := by simp [opOf]
    rw [hop]
    simp only [exec, execMultiReadRegister, burstRead_eq, if_neg (Nat.not_le.mpr hn)]
    rfl
  case inr =>
    have hop : opOf (mkWord 0x06 0 a 0 n) payload ref = .multiWriteRegister a payload := by simp [opOf]
    have hlen : payload.length = n.toNat := by
      simpa [payloadCount] using (hok.resolve_left (by simp [IllegalCode])).2
    rw [hop]
    simp only [exec, execMultiWriteRegister, burstWrite_eq, hlen, if_neg (Nat.not_le.mpr hn)]
    rfl

/-- Settles O7: whatever such a word decodes to is refused. -/
theorem illegalWordsAreRefused : Obligations.IllegalWordsAreRefused := by
  intro s w payload ref rest hsel hpend hsched hword
  refine step_refusedWord hsel hpend hsched fun i hdec => ?_
  rcases hword with hill | hlong
  · exact exec_illegalWord hill hdec _
  · exact exec_burstTooLong (s := { s with sched := rest }) hlong hdec

/-! ## Where a step stops -/

/-- No instruction stops the block (R220, R227). -/
theorem exec_completes (i : Instr) (s : State) : ∃ t, exec i s = .next t := by
  by_cases hi : Instr.IsHandler i
  · rcases isHandler_cases hi with rfl | rfl | rfl | rfl
    · exact (writers_onSetup s).imp fun _ => And.left
    · exact (writers_onInBufAvail s).imp fun _ => And.left
    · exact (writers_onResetDone s).imp fun _ => And.left
    · exact (writers_onConnectDetect s).imp fun _ => And.left
  · exact (opStep_exec i s hi).imp fun _ => And.left

/-- A step completes unless arbitration finds no meaning. -/
theorem step_next_or_stop (s : State) : (∃ t, step s = .next t) ∨ ∃ r, fetch s = .stop r ∧ step s = .refused r := by
  unfold step
  cases fetch s with
  | run i u => exact .inl (exec_completes i u)
  | done u => exact .inl ⟨u, rfl⟩
  | stop r => exact .inr ⟨r, rfl, rfl⟩

/-- A vector that selects no handler is zero (R89). -/
theorem sel_of_noHandler {sel : Sel} {e : DecodeError} (h : decode (.evt sel) = .error e) : sel = 0 := by
  have hzero : ∀ v : Sel, (decode (.evt v)).toOption = none → v = 0 := by decide
  exact hzero sel (by rw [h]; rfl)

/-- Arbitration finds no meaning only in raw bytes that are no transaction, on an idle block with nothing pending (R88, R212). -/
theorem fetch_stop {s : State} {r : Refusal} (h : fetch s = .stop r) :
    s.sel = 0 ∧ s.irqPend = false ∧ r = .notATransaction ∧
      ∃ bytes rest e, s.sched = .bus bytes :: rest ∧ decode (.bus bytes) = .error e := by
  unfold fetch at h
  split at h
  next => cases h
  next e hsel =>
    split at h
    next => cases h
    next hpend =>
      refine ⟨sel_of_noHandler hsel, by simpa using hpend, ?_⟩
      unfold fetchItem at h
      split at h
      next => cases h
      next =>
        unfold fetchOp at h
        split at h
        next => cases h
        next => cases h
      next bytes rest hsched =>
        unfold fetchBus at h
        split at h
        next => cases h
        next e hdec =>
          cases h
          exact ⟨rfl, bytes, rest, e, hsched, hdec⟩
      next => cases h

/-- Settles O15: an instruction always completes, so a step stops only where arbitration does; a word that decodes to nothing is refused. -/
theorem stepStopsOnlyOnMalformedItems : Obligations.StepStopsOnlyOnMalformedItems := by
  intro s
  refine ⟨fun f hf => ?_, fun r hr => ?_, fun w payload ref rest e hsel hpend hsched hdec => ?_⟩
  · rcases step_next_or_stop s with ⟨t, ht⟩ | ⟨r, -, hr⟩
    · cases ht.symm.trans hf
    · cases hr.symm.trans hf
  · rcases step_next_or_stop s with ⟨t, ht⟩ | ⟨r', hstop, hr'⟩
    · cases ht.symm.trans hr
    · cases hr'.symm.trans hr
      exact fetch_stop hstop
  · refine step_refusedWord hsel hpend hsched fun i hi => ?_
    cases hi.symm.trans hdec

end Sys2Proof.Machine

/-! # The start of a dispatcher run (O10, O11) -/

namespace Sys2Proof.Machine

theorem selBit_anyBit (v mask : Byte) (i : Nat) : selBit (anyBit v mask) i = if v &&& mask = 0 then 0 else 1#4 <<< i := by
  by_cases h : v &&& mask = 0 <;> simp [selBit, anyBit, h]

/-- The vector in Host role: the top-level status alone counts (R89). -/
theorem selVector_host (c : Cfg) (t e : Byte) :
    selVector c .host t e = if t &&& c.b.conDet = 0 then 0 else 0b1000 := selBit_anyBit t c.b.conDet 3

/-- The vector in Peripheral role (R89). -/
theorem selVector_peripheral (c : Cfg) (t e : Byte) :
    selVector c .peripheral t e = (if e &&& c.b.sudAv = 0 then 0 else 0b0001) |||
      (if e &&& c.b.inBAv = 0 then 0 else 0b0010) ||| (if t &&& c.b.uresDn = 0 then 0 else 0b0100) := by
  simp only [selVector, selBit_anyBit]
  rfl

/-- An idle block with an event pending starts a dispatcher run (R212). -/
theorem step_takeInterrupt {s : State} (hsel : s.sel = 0) (hpend : s.irqPend = true) : step s = .next (takeInterrupt s) := by
  have hnone : decode (.evt s.sel) = .error .noHandler := by rw [hsel]; rfl
  simp [step, fetch, hnone, hpend]

section
variable {s s1 s2 : State} {t e : Byte} {k : FaultKind}

/-- A fault in the first status read ends the run (R213). -/
theorem takeInterrupt_topFault (htop : statusTop { s with irqPend := false } = (.fault k, s1)) :
    takeInterrupt s = s1.logFault k := by
  simp only [takeInterrupt, htop]

/-- A fault in the second status read ends the run (R213). -/
theorem takeInterrupt_endpointFault (htop : statusTop { s with irqPend := false } = (.ok t, s1))
    (hep : statusEp s1 = (.fault k, s2)) : takeInterrupt s = s2.logFault k := by
  simp only [takeInterrupt, htop, hep]

/-- The snapshot is taken and the vector computed from it (R89, R213). -/
theorem takeInterrupt_vector (htop : statusTop { s with irqPend := false } = (.ok t, s1))
    (hep : statusEp s1 = (.ok e, s2)) : takeInterrupt s = { s2 with sel := selVector s2.cfg s2.role t e } := by
  simp only [takeInterrupt, htop, hep]

end

/-- Settles O10: of the snapshot's two reads only the first is one of the bus, as the endpoint status is 0 in Host role (R139). -/
theorem dispatcherEntryHost : Obligations.DispatcherEntryHost := by
  intro s hsel hpend hrole s0 a
  have htop : statusTop s0 = (if s0.readOk a then .ok (s0.readByte a &&& s.enabledTopIRQ) else .fault .transportError,
      s0.afterRead a) := statusTop_eq (by simp only [s0, topIrq, hrole, a])
  obtain ⟨-, -, -, hep⟩ := endpoint_host (s := s0.afterRead a) hrole 0
  rw [step_takeInterrupt hsel hpend, ← selVector_host s.cfg _ 0, ← hrole]
  cases hok : s0.readOk a with
  | false =>
    rw [hok] at htop
    rw [takeInterrupt_topFault htop]
    rfl
  | true =>
    rw [hok] at htop
    rw [takeInterrupt_vector htop hep]
    rfl

/-- Settles O11: the snapshot's two reads, along which of them goes through. -/
theorem dispatcherEntryPeripheral : Obligations.DispatcherEntryPeripheral := by
  intro s hsel hpend hrole s0 a b s1 t e
  have htop : statusTop s0 = (if s0.readOk a then .ok t else .fault .transportError, s1) :=
    statusTop_eq (by simp only [s0, topIrq, hrole, a])
  have hep : statusEp s1 = (if s1.readOk b then .ok e else .fault .transportError, s1.afterRead b) := statusEp_eq hrole
  rw [step_takeInterrupt hsel hpend, ← selVector_peripheral s.cfg t e, ← hrole]
  cases hok : s0.readOk a with
  | false =>
    rw [hok] at htop
    rw [takeInterrupt_topFault htop]
    rfl
  | true =>
    rw [hok] at htop
    cases hok' : s1.readOk b with
    | false =>
      rw [hok'] at hep
      rw [takeInterrupt_endpointFault htop hep]
      rfl
    | true =>
      rw [hok'] at hep
      rw [takeInterrupt_vector htop hep]
      rfl

end Sys2Proof.Machine

/-! # A list of bytes as one transaction (O17) -/

namespace Sys2Proof.Machine

/-! ## The exchanges, by the bytes shifted in -/

/-- The exchanges that succeeded, each with the byte it shifted in. -/
def exchanged (outs ins : List Byte) : List Event := List.zipWith (fun o b => Event.x o (some b)) outs ins

/-- The first byte is the only one sent if its exchange fails (R101). -/
theorem draws_fault {script : List ChipAnswer} {h : List Event} {o : Byte} {os : List Byte}
    (ha : answerOf script h o = ⟨none⟩) : draws script h (o :: os) = [⟨none⟩] := by
  rw [draws, ha]
  rfl

/-- The rest of the list is sent if the first exchange succeeds. -/
theorem draws_answered {script : List ChipAnswer} {h : List Event} {o b : Byte} {os : List Byte}
    (ha : answerOf script h o = ⟨some b⟩) :
    draws script h (o :: os) = ⟨some b⟩ :: draws script.tail (h ++ [.x o (some b)]) os := by
  rw [draws, ha]
  rfl

/-- Without a fault, every exchange has shifted in a byte. -/
theorem draws_events_of_ok (outs : List Byte) (script : List ChipAnswer) (h : List Event)
    (hok : (draws script h outs).all (·.miso.isSome) = true) :
    List.zipWith (fun o u => Event.x o u.miso) outs (draws script h outs) =
      exchanged outs ((draws script h outs).filterMap (·.miso)) := by
  induction outs generalizing script h with
  | nil => rfl
  | cons o os ih =>
    rcases ha : answerOf script h o with ⟨_ | b⟩
    case none => simp [draws_fault ha] at hok
    case some =>
      rw [draws_answered ha] at hok ⊢
      simpa [exchanged] using ih _ _ hok

/-- A fault is the last exchange, and the byte sent in it the one after those answered (R101, R102). -/
theorem draws_events_of_fault (outs : List Byte) (script : List ChipAnswer) (h : List Event)
    (hok : (draws script h outs).all (·.miso.isSome) = false) :
    ∃ o, outs[((draws script h outs).filterMap (·.miso)).length]? = some o ∧
      List.zipWith (fun o u => Event.x o u.miso) outs (draws script h outs) =
        exchanged outs ((draws script h outs).filterMap (·.miso)) ++ [.x o none] := by
  induction outs generalizing script h with
  | nil => simp [draws] at hok
  | cons o os ih =>
    rcases ha : answerOf script h o with ⟨_ | b⟩
    case none => exact ⟨o, by simp [draws_fault ha, exchanged]⟩
    case some =>
      rw [draws_answered ha] at hok ⊢
      obtain ⟨p, hp, hev⟩ := ih _ _ hok
      exact ⟨p, hp, congrArg (Event.x o (some b) :: ·) hev⟩

/-! ## The sequence -/

/-- The closed form of one sequence (R54, R101): what `State.afterBus` leaves, but for `ACKSTAT`, which only a command byte clears. -/
theorem exchangeSequence_eq (outs : List Byte) (s : State) :
    exchangeSequence outs s =
      (⟨(s.drawn outs).filterMap (·.miso), s.busOk outs⟩, { s.afterBus outs with ackstat := s.ackstat }) := by
  rw [exchangeSequence, xchgs_eq]
  refine Prod.ext rfl ?_
  ext1 <;> simp [State.afterBus, busEvents, State.latchAfter, State.drawn]

theorem afterBus_edgesTaken (outs : List Byte) (s : State) : EdgesTaken (s.drawn outs).length s (s.afterBus outs) := ⟨rfl, rfl⟩

/-- A transaction is a sequence whose first byte is the command byte, and whose first answer is discarded (R56, R57, R83). -/
theorem transaction_eq_exchangeSequence (a : Addr) (d : Dir) (datas : List Byte) (s : State) :
    transaction a d datas s =
      let r := exchangeSequence (cmdByte a d s.ackstat :: datas) { s with ackstat := false }
      (⟨r.1.ins.tail, r.1.ok⟩, r.2) := rfl

/-- Settles O17: the closed form of the sequence, whose events are told by the bytes shifted in; the block's two transactions are this over
their command byte. -/
theorem exchangeSequence_framed : Obligations.ExchangeSequence := by
  refine ⟨fun outs s => ?sequence, fun a n s => transaction_eq_exchangeSequence a .read _ s,
    fun a vs s => transaction_eq_exchangeSequence a .write vs s⟩
  case sequence =>
    rw [exchangeSequence_eq]
    refine ⟨fun hok => ⟨?answered, ?events⟩, fun hok => ?fault, rfl, ?frame, (afterBus_edgesTaken outs s).latch rfl⟩
    case answered => exact (filterMap_miso_length _ hok).trans (draws_length _ _ _ hok)
    case events =>
      have hev := draws_events_of_ok outs s.chip _ hok
      simp [State.afterBus, busEvents, State.drawn, hev, exchanged]
    case fault =>
      obtain ⟨o, ho, hev⟩ := draws_events_of_fault outs s.chip _ hok
      exact ⟨o, ho, by simp [State.afterBus, busEvents, State.drawn, hev, exchanged]⟩
    case frame => exact ⟨rfl, rfl, rfl, rfl, rfl, rfl, rfl, rfl, rfl, rfl, rfl, rfl, rfl⟩

end Sys2Proof.Machine

/-! # Register access (O19 to O25) -/

namespace Sys2Proof.Machine

/-! ## Words of the register operations -/

/-- The callback reference is an operand of `registerCallback` alone (R86). -/
theorem opOf_ref {w : OpWord} (hne : opcOf w ≠ 0x17) (payload : List Byte) (ref : CallbackRef) :
    opOf w payload ref = opOf w payload 0 := by
  have hcode : (opcOf w).toNat ≠ 23 := fun h => hne (BitVec.eq_of_toNat_eq h)
  unfold opOf
  split
  case h_23 h => exact absurd h hcode
  all_goals rfl

/-- The word of a well-formed operation decodes to it with any callback reference presented beside it, unless it registers one. -/
theorem decode_op_of_encode {w : OpWord} {payload : List Byte} {i : Instr} (hne : opcOf w ≠ 0x17) (hwf : i.WellFormed)
    (henc : encode i = .op w payload 0) (ref : CallbackRef) : decode (.op w payload ref) = .ok i := by
  have hround : decode (.op w payload 0) = .ok i := henc ▸ decodeEncodeRoundTrip i hwf
  obtain ⟨hop, hok⟩ := (decode_op_eq_ok_iff w payload 0 i).mp hround
  exact (decode_op_eq_ok_iff w payload ref i).mpr ⟨(opOf_ref hne payload ref).trans hop, hok⟩

theorem codedAs_of_encode {opc : BitVec 5} {a : Addr} {imm : Byte} {i : Instr} (hne : opc ≠ 0x17) (hwf : i.WellFormed)
    (henc : encode i = .op (mkWord opc 0 a 0 imm) [] 0) : CodedAs opc a imm i :=
  decode_op_of_encode (by rwa [opcOf_mkWord]) hwf henc

/-! ## Single accesses (O20, O21, O22) -/

/-- The instruction makes one transaction with these outgoing bytes, and answers the byte shifted in during the data phase, or
`TransportError` with no data. -/
def SingleAccess (i : Instr) (s : State) (outs : List Byte) : Prop :=
  (s.busOk outs = true → ∃ v, s.busData outs = [v] ∧ exec i s = .next ((s.afterBus outs).answer ⟨.ok, [v]⟩)) ∧
  (s.busOk outs = false → exec i s = .next ((s.afterBus outs).answer ⟨.transportError, []⟩))

/-- A transaction with one data byte that goes through has shifted in one byte. -/
theorem busData_single {s : State} {c d : Byte} (hok : s.busOk [c, d] = true) : ∃ v, s.busData [c, d] = [v] :=
  List.length_eq_one_iff.mp (busData_length hok)

/-- An instruction whose answer is the closed form of a single access (`readReg_eq`, `writeReg_eq`) is one. -/
theorem singleAccess_of_exec {i : Instr} {s : State} {c d : Byte} {r : Res Byte × State} (hexec : exec i s = .next (answerByte r))
    (hr : r = (if s.busOk [c, d] then .ok ((s.busData [c, d]).headD 0) else .fault .transportError, s.afterBus [c, d])) :
    SingleAccess i s [c, d] := by
  rw [SingleAccess, hexec, hr]
  refine ⟨fun hok => ?answered, fun hfault => ?fault⟩
  case answered =>
    obtain ⟨v, hv⟩ := busData_single hok
    exact ⟨v, hv, by rw [if_pos hok, hv]; rfl⟩
  case fault => rw [hfault]; rfl

theorem singleAccess_readRegister (a : Addr) (s : State) :
    SingleAccess (.readRegister a) s [cmdByte a .read s.ackstat, 0x00] :=
  singleAccess_of_exec rfl (readReg_eq a s)

theorem singleAccess_writeRegister (a : Addr) (v : Byte) (s : State) :
    SingleAccess (.writeRegister a v) s [cmdByte a .write s.ackstat, v] :=
  singleAccess_of_exec rfl (writeReg_eq a v s)

/-- The flag is set before the command byte is built (R92). -/
theorem singleAccess_readRegisterAS (a : Addr) (s : State) :
    SingleAccess (.readRegisterAS a) s [cmdByte a .read true, 0x00] :=
  singleAccess_readRegister a (setFlag s)

/-- The flag is set before the command byte is built (R92). -/
theorem singleAccess_writeRegisterAS (a : Addr) (v : Byte) (s : State) :
    SingleAccess (.writeRegisterAS a v) s [cmdByte a .write true, v] :=
  singleAccess_writeRegister a v (setFlag s)

/-- Settles O19: the operation is the setting of the flag, answered. -/
theorem setAckstatResult : Obligations.SetAckstatResult :=
  ⟨codedAs_of_encode (by decide) rfl rfl, fun _ => rfl⟩

/-- Settles O20: the bytes are those the encoder gives the read of one byte. -/
theorem readRegisterResult : Obligations.ReadRegisterResult := fun s a =>
  ⟨codedAs_of_encode (by decide) rfl rfl, decodeEncodeRoundTrip (.regrd a s.ackstat 1) rfl, singleAccess_readRegister a s⟩

/-- Settles O21: the bytes are those the encoder gives the write of one byte. -/
theorem writeRegisterResult : Obligations.WriteRegisterResult := fun s a v =>
  ⟨codedAs_of_encode (by decide) rfl rfl, decodeEncodeRoundTrip (.regwr a s.ackstat [v]) rfl, singleAccess_writeRegister a v s⟩

/-- Settles O22: the acknowledge forms are the plain ones with the flag set first. -/
theorem acknowledgeForms : Obligations.AcknowledgeForms :=
  ⟨fun s a => ⟨codedAs_of_encode (by decide) rfl rfl, singleAccess_readRegisterAS a s⟩,
    fun s a v => ⟨codedAs_of_encode (by decide) rfl rfl, singleAccess_writeRegisterAS a v s⟩⟩

/-! ## What a scripted chip gives -/

/-- Answers that hand out these bytes. -/
def handedOut (bs : List Byte) : List ChipAnswer := bs.map fun b => ⟨some b⟩

@[simp] theorem handedOut_length (bs : List Byte) : (handedOut bs).length = bs.length := List.length_map _

@[simp] theorem handedOut_answered (bs : List Byte) : (handedOut bs).all (·.miso.isSome) = true := by
  simp [handedOut]

@[simp] theorem handedOut_bytes (bs : List Byte) : (handedOut bs).filterMap (·.miso) = bs := by
  simp [handedOut, List.filterMap_map]

/-- A script's answers are drawn in order, as long as none of them is a fault and there is a byte to send (R52). -/
theorem draws_append (us rest : List ChipAnswer) (h : List Event) (outs : List Byte) (hok : us.all (·.miso.isSome) = true)
    (hlen : us.length ≤ outs.length) : draws (us ++ rest) h outs =
      us ++ draws rest (h ++ List.zipWith (fun o u => Event.x o u.miso) outs us) (outs.drop us.length) := by
  induction us generalizing h outs with
  | nil => simp
  | cons u us ih =>
    cases outs with
    | nil => simp at hlen
    | cons o os =>
      simp only [List.all_cons, Bool.and_eq_true] at hok
      obtain ⟨b, hb⟩ := Option.isSome_iff_exists.mp hok.1
      have ha : answerOf (u :: us ++ rest) h o = ⟨some b⟩ := congrArg ChipAnswer.mk hb
      rw [draws_answered ha, List.cons_append, List.tail_cons, ih _ _ hok.2 (Nat.le_of_succ_le_succ hlen)]
      obtain ⟨m⟩ := u
      cases hb
      simp

/-- A script that answers every byte: its answers are those drawn. -/
theorem drawn_of_script {s : State} {us rest : List ChipAnswer} {outs : List Byte} (hchip : s.chip = us ++ rest)
    (hok : us.all (·.miso.isSome) = true) (hlen : us.length = outs.length) : s.drawn outs = us := by
  rw [State.drawn, hchip, draws_append us rest _ outs hok hlen.le, List.drop_eq_nil_of_le hlen.ge, draws, List.append_nil]

/-- A script that faults on the way: its answers are drawn up to the fault. -/
theorem drawn_of_faultScript {s : State} {us rest : List ChipAnswer} {outs : List Byte} (hchip : s.chip = us ++ ⟨none⟩ :: rest)
    (hok : us.all (·.miso.isSome) = true) (hlen : us.length < outs.length) : s.drawn outs = us ++ [⟨none⟩] := by
  rw [State.drawn, hchip, draws_append us _ _ outs hok hlen.le, List.drop_eq_getElem_cons hlen, draws_fault rfl]

/-- The bytes handed out in the data phase are the data. -/
theorem bus_of_handedOut {s : State} {c : ChipAnswer} {bs : List Byte} {rest : List ChipAnswer} {outs : List Byte}
    (hc : c.miso.isSome = true) (hchip : s.chip = c :: handedOut bs ++ rest) (hlen : outs.length = bs.length + 1) :
    s.busOk outs = true ∧ s.busData outs = bs := by
  have hdrawn : s.drawn outs = c :: handedOut bs := drawn_of_script hchip (by simp [hc]) (by simp [hlen])
  obtain ⟨b, hb⟩ := Option.isSome_iff_exists.mp hc
  rw [State.busOk, State.busData, hdrawn]
  simp [hb]

/-- The bytes handed out before a fault in the data phase are the data (R116). -/
theorem bus_of_handedOut_fault {s : State} {c : ChipAnswer} {bs : List Byte} {rest : List ChipAnswer} {outs : List Byte}
    (hc : c.miso.isSome = true) (hchip : s.chip = c :: handedOut bs ++ ⟨none⟩ :: rest) (hlen : bs.length + 1 < outs.length) :
    s.busOk outs = false ∧ s.busData outs = bs := by
  have hdrawn : s.drawn outs = c :: handedOut bs ++ [⟨none⟩] := drawn_of_faultScript hchip (by simp [hc]) (by simpa using hlen)
  obtain ⟨b, hb⟩ := Option.isSome_iff_exists.mp hc
  rw [State.busOk, State.busData, hdrawn]
  simp [hb]

/-- A transaction that a script answers in full leaves the rest of the script to the next. -/
theorem afterBus_chip_of_script {s : State} {us rest : List ChipAnswer} {outs : List Byte} (hchip : s.chip = us ++ rest)
    (hok : us.all (·.miso.isSome) = true) (hlen : us.length = outs.length) :
    s.busOk outs = true ∧ (s.afterBus outs).chip = rest := by
  have hdrawn := drawn_of_script hchip hok hlen
  refine ⟨by rwa [State.busOk, hdrawn], ?_⟩
  rw [State.afterBus, hdrawn, hchip, List.drop_left]

/-! ## Bursts (O23, O24) -/

theorem exec_multiReadRegister {s : State} {n : Byte} (hn : n.toNat ≤ s.cfg.maxBurst) (a : Addr) :
    exec (.multiReadRegister a n) s = .next ((s.afterBus (s.readBytes a n.toNat)).answer
      ⟨busCode (s.busOk (s.readBytes a n.toNat)), s.busData (s.readBytes a n.toNat)⟩) := by
  change execMultiReadRegister a n s = _
  rw [execMultiReadRegister, burstRead_eq, if_pos hn, ← busRes_code]

theorem exec_multiWriteRegister {s : State} {vs : List Byte} (hvs : vs.length ≤ s.cfg.maxBurst) (a : Addr) :
    exec (.multiWriteRegister a vs) s = .next ((s.afterBus (s.writeBytes a vs)).answer
      ⟨busCode (s.busOk (s.writeBytes a vs)), []⟩) := by
  change execMultiWriteRegister a vs s = _
  rw [execMultiWriteRegister, burstWrite_eq, if_pos hvs, answerUnit, busRes_code]

theorem exec_multiReadRegister_handedOut {s : State} {n : Byte} {c : ChipAnswer} {bs : List Byte} {rest : List ChipAnswer}
    (a : Addr) (hn : n.toNat ≤ s.cfg.maxBurst) (hc : c.miso.isSome = true) (hchip : s.chip = c :: handedOut bs ++ rest)
    (hbs : bs.length = n.toNat) :
    exec (.multiReadRegister a n) s = .next ((s.afterBus (s.readBytes a n.toNat)).answer ⟨.ok, bs⟩) := by
  obtain ⟨hok, hdata⟩ := bus_of_handedOut (outs := s.readBytes a n.toNat) hc hchip (by simp [State.readBytes, hbs])
  rw [exec_multiReadRegister hn, hok, hdata]
  rfl

/-- A burst write followed by a burst read of a chip that answers the first in full, and hands the values out in the second. -/
theorem exec_burst_echo {s : State} {n : Byte} (a : Addr) {vs : List Byte} {w r : ChipAnswer} {ws rest : List ChipAnswer}
    (hn : n.toNat ≤ s.cfg.maxBurst) (hvs : vs.length = n.toNat) (hws : ws.length = n.toNat) (hw : w.miso.isSome = true)
    (hall : ws.all (·.miso.isSome) = true) (hr : r.miso.isSome = true)
    (hchip : s.chip = w :: ws ++ r :: handedOut vs ++ rest) :
    ∃ t u : State, exec (.multiWriteRegister a vs) s = .next t ∧ exec (.multiReadRegister a n) t = .next u ∧
      u.results = s.results ++ [⟨.ok, []⟩, ⟨.ok, vs⟩] := by
  rw [List.append_assoc] at hchip
  obtain ⟨hwok, hleft⟩ := afterBus_chip_of_script (outs := s.writeBytes a vs) hchip (by simp [hw, hall])
    (by simp [State.writeBytes, hws, hvs])
  have hwrite := exec_multiWriteRegister (hvs.trans_le hn) a
  rw [hwok] at hwrite
  exact ⟨_, _, hwrite, exec_multiReadRegister_handedOut a hn hr hleft hvs, List.append_assoc ..⟩

/-- Settles O23: a burst read is one transaction; the bytes a script hands out in its data phase are the data, also those before a
fault. -/
theorem multiReadResult : Obligations.MultiReadResult := by
  intro s a n hn outs
  have houts : outs.length = n.toNat + 1 := by simp [outs]
  refine ⟨codedAs_of_encode (by decide) rfl rfl, exec_multiReadRegister hn a, fun hok => ?count,
    fun c bs rest hc hbs hchip => ?handedOut, fun c bs rest hc hbs hchip => ?fault,
    fun vs w r ws rest hvs hws hw hall hr hchip => exec_burst_echo a hn hvs hws hw hall hr hchip⟩
  case count => exact (busData_length hok).trans List.length_replicate
  case handedOut => exact bus_of_handedOut hc hchip (by rw [houts, hbs])
  case fault => exact bus_of_handedOut_fault hc hchip (by omega)

/-- Settles O24: a burst write is one transaction, whose data is discarded; the word carries the count. -/
theorem multiWriteResult : Obligations.MultiWriteResult := fun _ a values hlen =>
  ⟨fun h256 => decode_op_of_encode (by rw [opcOf_mkWord]; decide) (i := .multiWriteRegister a values)
    (Nat.ble_eq.mpr (Nat.le_of_lt_succ h256)) rfl, exec_multiWriteRegister hlen a⟩

/-! ## Read-modify-write (O25) -/

/-- A faulted read ends a read-modify-write. -/
theorem rmw_readFault {s : State} {a : Addr} (hread : s.readOk a = false) (f : Byte → Byte) :
    rmw f a s = (busRes false, s.afterRead a) := by
  unfold State.readOk at hread
  simp [rmw_eq, State.rmwOk, State.afterRmw, State.afterRead, hread]

/-- The write back is a second transaction, and the read has spent the flag. -/
theorem rmw_writeBack {s : State} {a : Addr} (hread : s.readOk a = true) (f : Byte → Byte) :
    rmw f a s = (busRes ((s.afterRead a).busOk [cmdByte a .write false, f (s.readByte a)]),
      (s.afterRead a).afterBus [cmdByte a .write false, f (s.readByte a)]) := by
  unfold State.readOk at hread
  rw [rmw_eq, State.rmwOk, State.afterRmw, hread]
  rfl

theorem answerUnit_busRes (ok : Bool) (s : State) : answerUnit (busRes ok, s) = s.answer ⟨busCode ok, []⟩ := by
  rw [answerUnit, busRes_code]

theorem exec_enableOptions (a : Addr) (bits : Byte) (s : State) :
    exec (.enableOptions a bits) s = .next (answerUnit (rmw (· ||| bits) a s)) := rfl

theorem exec_disableOptions (a : Addr) (bits : Byte) (s : State) :
    exec (.disableOptions a bits) s = .next (answerUnit (rmw (· &&& ~~~bits) a s)) := rfl

/-- Settles O25: both are a read-modify-write, which a faulted read ends. -/
theorem readModifyWrite : Obligations.ReadModifyWrite := by
  intro s a bits
  refine ⟨codedAs_of_encode (by decide) rfl rfl, codedAs_of_encode (by decide) rfl rfl, fun hfault => ?fault, fun hok => ?ok⟩
  case fault =>
    rw [exec_enableOptions, exec_disableOptions, rmw_readFault hfault, rmw_readFault hfault, answerUnit_busRes]
    exact ⟨rfl, rfl⟩
  case ok =>
    rw [exec_enableOptions, exec_disableOptions, rmw_writeBack hok, rmw_writeBack hok, answerUnit_busRes, answerUnit_busRes]
    exact ⟨rfl, rfl⟩

end Sys2Proof.Machine

/-! # Interrupt shadow state (O26 to O31)

The closed forms of the shadow operations stand in Laws/Ops; here they become answers on the operation port. -/

namespace Sys2Proof.Machine

/-! ## Answers of closed forms -/

theorem exec_of_busRes {i : Instr} {s t : State} {r : Res Unit × State} {ok : Bool} (hexec : exec i s = .next (answerUnit r))
    (hr : r = (busRes ok, t)) : exec i s = .next (t.answer ⟨busCode ok, []⟩) := by
  rw [hexec, hr, answerUnit_busRes]

theorem exec_of_byteRes {i : Instr} {s t : State} {r : Res Byte × State} {ok : Bool} {v : Byte}
    (hexec : exec i s = .next (answerByte r)) (hr : r = (if ok then .ok v else .fault .transportError, t)) :
    exec i s = .next (t.answer (if ok then ⟨.ok, [v]⟩ else ⟨.transportError, []⟩)) := by
  rw [hexec, hr]
  cases ok <;> rfl

theorem exec_of_refusedUnit {i : Instr} {s : State} {r : Res Unit × State} (hexec : exec i s = .next (answerUnit r))
    (hr : r = (.refused, s)) : exec i s = .next (answerRefused s) := by
  rw [hexec, hr]
  rfl

theorem exec_of_refusedByte {i : Instr} {s : State} {r : Res Byte × State} (hexec : exec i s = .next (answerByte r))
    (hr : r = (.refused, s)) : exec i s = .next (answerRefused s) := by
  rw [hexec, hr]
  rfl

/-! ## The role's registers -/

/-- A register that both roles have is found in the table of the role that is set (R136). -/
theorem roleAddr_eq_some {f : Role → Option Addr} {x y a : Addr} {r : Role} (hhost : f .host = some x)
    (hperiph : f .peripheral = some y) (h : (r = .host ∧ a = x) ∨ (r = .peripheral ∧ a = y)) : f r = some a := by
  obtain ⟨rfl, rfl⟩ | ⟨rfl, rfl⟩ := h
  · exact hhost
  · exact hperiph

theorem Role.host_or_peripheral {r : Role} (h : r ≠ .unset) : r = .host ∨ r = .peripheral := by
  cases r with
  | unset => exact absurd rfl h
  | host => exact .inl rfl
  | peripheral => exact .inr rfl

theorem roleAddr_isSome {f : Role → Option Addr} {x y : Addr} {r : Role} (hhost : f .host = some x)
    (hperiph : f .peripheral = some y) (h : r ≠ .unset) : ∃ a, f r = some a := by
  obtain rfl | rfl := Role.host_or_peripheral h
  · exact ⟨x, hhost⟩
  · exact ⟨y, hperiph⟩

/-! ## The operations -/

/-- Settles O31: each of the ten looks for the role's register or at the role first (R136, R142). -/
theorem shadowNeedsARole : Obligations.ShadowNeedsARole := by
  intro i s hi hrole
  have hunset := shadow_unset hrole
  cases i with
  | enableInterrupts bits =>
    obtain ⟨h, -⟩ := hunset bits
    exact exec_of_refusedUnit rfl h
  | disableInterrupts bits =>
    obtain ⟨-, h, -⟩ := hunset bits
    exact exec_of_refusedUnit rfl h
  | enableEndpointInterrupts bits =>
    obtain ⟨-, -, h, -⟩ := hunset bits
    exact exec_of_refusedUnit rfl h
  | disableEndpointInterrupts bits =>
    obtain ⟨-, -, -, h, -⟩ := hunset bits
    exact exec_of_refusedUnit rfl h
  | clearInterruptStatus bits =>
    obtain ⟨-, -, -, -, h, -⟩ := hunset bits
    exact exec_of_refusedUnit rfl h
  | clearEndpointInterruptStatus bits =>
    obtain ⟨-, -, -, -, -, h, -⟩ := hunset bits
    exact exec_of_refusedUnit rfl h
  | getEnabledInterruptStatus =>
    obtain ⟨-, -, -, -, -, -, h, -⟩ := hunset 0
    exact exec_of_refusedByte rfl h
  | getEnabledEndpointInterruptStatus =>
    obtain ⟨-, -, -, -, -, -, -, h, -⟩ := hunset 0
    exact exec_of_refusedByte rfl h
  | masterEnable =>
    obtain ⟨-, -, -, -, -, -, -, -, h, -⟩ := hunset 0
    exact exec_of_refusedUnit rfl h
  | masterDisable =>
    obtain ⟨-, -, -, -, -, -, -, -, -, h⟩ := hunset 0
    exact exec_of_refusedUnit rfl h
  | _ => cases hi

/-- Settles O26: in a role both are the read-modify-write of its enable register, with the mask written on top. -/
theorem topLevelEnables : Obligations.TopLevelEnables := by
  intro s bits
  refine ⟨codedAs_of_encode (by decide) rfl rfl, codedAs_of_encode (by decide) rfl rfl, fun a ha => ?role, fun hrole => ?unset⟩
  case role =>
    have hien : topIen s.cfg s.role = some a := roleAddr_eq_some rfl rfl ha
    exact ⟨exec_of_busRes rfl (enableTop_eq hien bits), exec_of_busRes rfl (disableTop_eq hien bits)⟩
  case unset => exact ⟨shadowNeedsARole _ s rfl hrole, shadowNeedsARole _ s rfl hrole⟩

/-- Settles O27: the role decides between nothing, the read-modify-write of the endpoint enable register, and a refusal. -/
theorem endpointEnables : Obligations.EndpointEnables := by
  intro s bits
  refine ⟨codedAs_of_encode (by decide) rfl rfl, codedAs_of_encode (by decide) rfl rfl, fun hrole => ?host,
    fun hrole => ?peripheral, fun hrole => ?unset⟩
  case host =>
    obtain ⟨hen, hdis, -⟩ := endpoint_host hrole bits
    exact ⟨exec_of_busRes (ok := true) rfl hen, exec_of_busRes (ok := true) rfl hdis⟩
  case peripheral => exact ⟨exec_of_busRes rfl (enableEp_eq hrole bits), exec_of_busRes rfl (disableEp_eq hrole bits)⟩
  case unset => exact ⟨shadowNeedsARole _ s rfl hrole, shadowNeedsARole _ s rfl hrole⟩

/-- Settles O28: a clear is the plain write of the role's status register, the endpoint one only in Peripheral role. -/
theorem statusClears : Obligations.StatusClears := by
  intro s bits
  refine ⟨codedAs_of_encode (by decide) rfl rfl, codedAs_of_encode (by decide) rfl rfl, fun hrole => ?host,
    fun hrole => ?peripheral, fun hrole => ?unset⟩
  case host =>
    obtain ⟨-, -, hclear, -⟩ := endpoint_host hrole bits
    have hirq : topIrq s.cfg s.role = some s.cfg.host.topIrq := by rw [hrole]; rfl
    exact ⟨exec_of_busRes rfl (clearTop_eq hirq bits), exec_of_busRes (ok := true) rfl hclear⟩
  case peripheral =>
    have hirq : topIrq s.cfg s.role = some s.cfg.periph.topIrq := by rw [hrole]; rfl
    exact ⟨exec_of_busRes rfl (clearTop_eq hirq bits), exec_of_busRes rfl (clearEp_eq hrole bits)⟩
  case unset => exact ⟨shadowNeedsARole _ s rfl hrole, shadowNeedsARole _ s rfl hrole⟩

/-- Settles O29: both are a single read whose byte is masked, the endpoint one only in Peripheral role. -/
theorem enabledStatusReads : Obligations.EnabledStatusReads := by
  intro s
  refine ⟨codedAs_of_encode (by decide) rfl rfl, codedAs_of_encode (by decide) rfl rfl, fun a ha => ?top, fun hrole => ?host,
    fun hrole => ?peripheral, fun hrole => ?unset⟩
  case top => exact exec_of_byteRes rfl (statusTop_eq (roleAddr_eq_some (f := topIrq s.cfg) rfl rfl ha))
  case host =>
    obtain ⟨-, -, -, hstatus⟩ := endpoint_host hrole 0
    exact exec_of_byteRes (ok := true) rfl hstatus
  case peripheral => exact exec_of_byteRes rfl (statusEp_eq hrole)
  case unset => exact ⟨shadowNeedsARole _ s rfl hrole, shadowNeedsARole _ s rfl hrole⟩

/-- Settles O30: both are the read-modify-write of the role's gate register by the gate mask. -/
theorem masterGate : Obligations.MasterGate := by
  intro s
  refine ⟨codedAs_of_encode (by decide) rfl rfl, codedAs_of_encode (by decide) rfl rfl, fun a ha => ?role, fun hrole => ?unset⟩
  case role =>
    have hgate : gateReg s.cfg s.role = some a := roleAddr_eq_some rfl rfl ha
    exact ⟨exec_of_busRes rfl (gateOn_eq hgate), exec_of_busRes rfl (gateOff_eq hgate)⟩
  case unset => exact ⟨shadowNeedsARole _ s rfl hrole, shadowNeedsARole _ s rfl hrole⟩

end Sys2Proof.Machine

/-! # What is refused (O57)

`refusedCase` names the cases of R223. In each the meaning is `answerRefused`; in every other the operation is `Accepted`. -/

namespace Sys2Proof.Machine

/-! ## The cases of R223 -/

theorem refusedCase_of_isShadow {i : Instr} (h : isShadow i = true) (s : State) :
    refusedCase s i = (s.role == .unset) := by
  cases i <;> cases h <;> rfl

/-- In a case of R223 the operation is answered `Refused` and nothing else happens. -/
theorem exec_refusedCase {i : Instr} {s : State} (hi : isOp i = true) (h : refusedCase s i = true) :
    exec i s = .next (answerRefused s) := by
  by_cases hshadow : isShadow i = true
  · rw [refusedCase_of_isShadow hshadow] at h
    exact shadowNeedsARole i s hshadow (eq_of_beq h)
  cases i with
  | multiReadRegister a n =>
    have hlong : ¬ n.toNat ≤ s.cfg.maxBurst := Nat.not_le.mpr (Nat.blt_eq.mp h)
    simp only [exec, execMultiReadRegister, burstRead_eq, if_neg hlong]
    rfl
  | multiWriteRegister a vs =>
    have hlong : ¬ vs.length ≤ s.cfg.maxBurst := Nat.not_le.mpr (Nat.blt_eq.mp h)
    exact exec_of_refusedUnit rfl ((burstWrite_eq a vs s).trans (if_neg hlong))
  | start r => exact exec_of_refusedUnit rfl (if_neg (bne_iff_ne.mp h))
  | scanBus =>
    have hrole : s.role ≠ .host := bne_iff_ne.mp h
    have hscan : scanOp s = (.refused, s) := by
      cases hr : s.role with
      | host => exact absurd hr hrole
      | _ => simp only [scanOp, hr]
    exact exec_of_refusedByte rfl hscan
  | reset =>
    have hrole : s.role = .unset := eq_of_beq h
    have hreset : resetOp s = (.refused, s) := by simp only [resetOp, hrole, chipCtl]
    exact exec_of_refusedUnit rfl hreset
  | illegal00 _ => rfl
  | illegal18to1F _ => rfl
  | onSetup | onInBufAvail | onResetDone | onConnectDetect | regrd | regwr => cases hi
  | enableInterrupts | disableInterrupts | enableEndpointInterrupts | disableEndpointInterrupts | clearInterruptStatus
  | clearEndpointInterruptStatus | getEnabledInterruptStatus | getEnabledEndpointInterruptStatus | masterEnable
  | masterDisable => exact absurd rfl hshadow
  | _ => cases h

/-! ## Results that are no refusal -/

theorem Res.code_ne_refused {α : Type} {r : Res α} (h : r ≠ .refused) : r.code ≠ .refused := by
  rcases r with _ | ⟨_ | _⟩ | _
  · nofun
  · nofun
  · nofun
  · exact absurd rfl h

theorem okOrFault_ne_refused {α : Type} (ok : Bool) (v : α) : (if ok then .ok v else .fault .transportError : Res α) ≠ .refused := by
  cases ok <;> nofun

theorem busRes_ne_refused (ok : Bool) : busRes ok ≠ .refused := okOrFault_ne_refused ok ()

theorem busCode_ne_refused (ok : Bool) : busCode ok ≠ .refused := by
  cases ok <;> nofun

theorem readReg_ne_refused (a : Addr) (s : State) : (readReg a s).1 ≠ .refused := by
  rw [readReg_eq]
  exact okOrFault_ne_refused _ _

theorem rmw_ne_refused (f : Byte → Byte) (a : Addr) (s : State) : (rmw f a s).1 ≠ .refused := by
  rw [rmw_eq]
  exact busRes_ne_refused _

theorem Res.map_ne_refused {α β : Type} {f : α → β} {r : Res α} (h : r ≠ .refused) : r.map f ≠ .refused := by
  cases r with
  | ok _ => nofun
  | fault _ => nofun
  | refused => exact absurd rfl h

theorem andThen_ne_refused {r : Res Unit × State} {f : State → Res Unit × State} (hr : r.1 ≠ .refused)
    (hf : (f r.2).1 ≠ .refused) : (andThen r f).1 ≠ .refused := by
  obtain ⟨_ | _ | _, u⟩ := r
  · exact hf
  · nofun
  · exact absurd rfl hr

theorem timedOut_ne_refused {r : Res Unit} (h : r ≠ .refused) : timedOut r ≠ .refused := by
  cases r with
  | ok _ => nofun
  | fault _ => nofun
  | refused => exact absurd rfl h

/-- Only the want of a role could refuse the gate's read-modify-write within `reset()`. -/
theorem resetInterrupts_ne_refused {s : State} (hrole : s.role ≠ .unset) : (resetInterrupts s).1 ≠ .refused := by
  obtain ⟨g, hg⟩ := roleAddr_isSome (f := gateReg s.cfg) rfl rfl hrole
  rw [resetInterrupts_eq hg]
  exact busRes_ne_refused _

theorem resetFromPoll_ne_refused (osc : Addr) {s : State} (hrole : s.role ≠ .unset) : (resetFromPoll osc s).1 ≠ .refused := by
  have hkept := (busStep_poll osc (oscStable s.cfg) id BusStep.refl s.cfg.oscPollCap s).frame.role
  unfold resetFromPoll
  split
  next s1 he =>
    rw [he] at hkept
    exact resetInterrupts_ne_refused (hkept ▸ hrole)
  next s1 he =>
    rw [he] at hkept
    exact timedOut_ne_refused (resetInterrupts_ne_refused (hkept ▸ hrole))
  next => nofun

theorem resetBus_ne_refused (ctl osc : Addr) {s : State} (hrole : s.role ≠ .unset) : (resetBus ctl osc s).1 ≠ .refused := by
  refine andThen_ne_refused (rmw_ne_refused _ ctl s) (andThen_ne_refused (rmw_ne_refused _ ctl _) ?_)
  apply resetFromPoll_ne_refused
  rwa [(busStep_disableOpts ctl _ _).frame.role, (busStep_enableOpts ctl _ s).frame.role]

theorem scanLines_ne_refused (p : PollEnd × State) : (scanLines p).1 ≠ .refused := by
  obtain ⟨_ | _ | _, s⟩ := p
  · exact Res.map_ne_refused (readReg_ne_refused s.cfg.host.lineState s)
  · nofun
  · nofun

theorem scanOp_ne_refused {s : State} (hrole : s.role = .host) : (scanOp s).1 ≠ .refused := by
  simp only [scanOp, hrole, enableOpts_eq]
  cases s.rmwOk s.cfg.host.sampleReg (setBits · s.cfg.b.sampleBus) with
  | false => nofun
  | true => exact scanLines_ne_refused _

/-! ## Accepted operations -/

/-- The operation reaches a next state with one answer added, which is no refusal. -/
def Accepted (i : Instr) (s : State) : Prop :=
  ∃ (t : State) (a : Answer), exec i s = .next t ∧ t.results = s.results ++ [a] ∧ a.code ≠ .refused

section
variable {i : Instr} {s u : State}

theorem accepted_of_answer {a : Answer} (hexec : exec i s = .next (u.answer a)) (hresults : u.results = s.results)
    (hcode : a.code ≠ .refused) : Accepted i s :=
  ⟨_, a, hexec, by rw [answer_results, hresults], hcode⟩

theorem accepted_unit {r : Res Unit × State} (hexec : exec i s = .next (answerUnit r)) (hresults : r.2.results = s.results)
    (hr : r.1 ≠ .refused) : Accepted i s :=
  accepted_of_answer hexec hresults (Res.code_ne_refused hr)

theorem accepted_byte {r : Res Byte × State} (hexec : exec i s = .next (answerByte r)) (hresults : r.2.results = s.results)
    (hr : r.1 ≠ .refused) : Accepted i s :=
  accepted_of_answer hexec hresults (Res.code_ne_refused hr)

theorem accepted_busRes {r : Res Unit × State} {ok : Bool} (hexec : exec i s = .next (answerUnit r))
    (hresults : r.2.results = s.results) (hr : r = (busRes ok, u)) : Accepted i s :=
  accepted_unit hexec hresults (hr ▸ busRes_ne_refused ok)

theorem accepted_byteRes {r : Res Byte × State} {ok : Bool} {v : Byte} (hexec : exec i s = .next (answerByte r))
    (hresults : r.2.results = s.results) (hr : r = (if ok then .ok v else .fault .transportError, u)) : Accepted i s :=
  accepted_byte hexec hresults (hr ▸ okOrFault_ne_refused ok v)

/-- Once there is a role no shadow operation is refused: it is nothing, one access, or a read-modify-write. -/
theorem accepted_shadow (hi : isShadow i = true) (hrole : s.role ≠ .unset) : Accepted i s := by
  obtain ⟨ien, hien⟩ := roleAddr_isSome (f := topIen s.cfg) rfl rfl hrole
  obtain ⟨irq, hirq⟩ := roleAddr_isSome (f := topIrq s.cfg) rfl rfl hrole
  obtain ⟨g, hg⟩ := roleAddr_isSome (f := gateReg s.cfg) rfl rfl hrole
  have hhost := endpoint_host (s := s)
  cases i with
  | enableInterrupts bits => exact accepted_busRes rfl (callStep_enableTop bits s).frame.results (enableTop_eq hien bits)
  | disableInterrupts bits => exact accepted_busRes rfl (callStep_disableTop bits s).frame.results (disableTop_eq hien bits)
  | enableEndpointInterrupts bits =>
    have hresults := (callStep_enableEp bits s).frame.results
    obtain h | h := Role.host_or_peripheral hrole
    · obtain ⟨hnoop, -⟩ := hhost h bits
      exact accepted_busRes (ok := true) rfl hresults hnoop
    · exact accepted_busRes rfl hresults (enableEp_eq h bits)
  | disableEndpointInterrupts bits =>
    have hresults := (callStep_disableEp bits s).frame.results
    obtain h | h := Role.host_or_peripheral hrole
    · obtain ⟨-, hnoop, -⟩ := hhost h bits
      exact accepted_busRes (ok := true) rfl hresults hnoop
    · exact accepted_busRes rfl hresults (disableEp_eq h bits)
  | clearInterruptStatus bits => exact accepted_busRes rfl (busStep_clearTop bits s).frame.results (clearTop_eq hirq bits)
  | clearEndpointInterruptStatus bits =>
    have hresults := (busStep_clearEp bits s).frame.results
    obtain h | h := Role.host_or_peripheral hrole
    · obtain ⟨-, -, hnoop, -⟩ := hhost h bits
      exact accepted_busRes (ok := true) rfl hresults hnoop
    · exact accepted_busRes rfl hresults (clearEp_eq h bits)
  | getEnabledInterruptStatus => exact accepted_byteRes rfl (busStep_statusTop s).frame.results (statusTop_eq hirq)
  | getEnabledEndpointInterruptStatus =>
    have hresults := (busStep_statusEp s).frame.results
    obtain h | h := Role.host_or_peripheral hrole
    · obtain ⟨-, -, -, hnoop⟩ := hhost h 0
      exact accepted_byteRes (ok := true) rfl hresults hnoop
    · exact accepted_byteRes rfl hresults (statusEp_eq h)
  | masterEnable => exact accepted_busRes rfl (busStep_gateOn s).frame.results (gateOn_eq hg)
  | masterDisable => exact accepted_busRes rfl (busStep_gateOff s).frame.results (gateOff_eq hg)
  | _ => cases hi

theorem accepted_reset (hrole : s.role ≠ .unset) : Accepted .reset s := by
  obtain ⟨ctl, hctl⟩ := roleAddr_isSome (f := chipCtl s.cfg) rfl rfl hrole
  obtain ⟨osc, hosc⟩ := roleAddr_isSome (f := oscStat s.cfg) rfl rfl hrole
  have hreset : resetOp s = ((resetBus ctl osc s).1, clearShadow (resetBus ctl osc s).2) := by simp only [resetOp, hctl, hosc]
  refine accepted_unit rfl ?results ?code
  case results =>
    rw [hreset]
    exact (busStep_resetBus ctl osc s).frame.results
  case code =>
    rw [hreset]
    exact resetBus_ne_refused ctl osc hrole

theorem accepted_start (r : UsbRole) (hrole : s.role = .unset) : Accepted (.start r) s := by
  have hstart : startOp r s = optionSetup { s with role := roleOf r, intArmed := true } := if_pos hrole
  cases r with
  | host =>
    have hrmw := hstart.trans (enableOpts_eq s.cfg.host.mode s.cfg.b.hostOpts _)
    refine accepted_busRes rfl ?_ hrmw
    rw [hrmw]
    exact (busStep_afterRmw _ _ _).frame.results
  | peripheral => exact accepted_busRes (ok := true) rfl (congrArg (·.2.results) hstart) hstart

theorem le_of_blt_false {m n : Nat} (h : Nat.blt m n = false) : n ≤ m :=
  Nat.not_lt.mp fun hlt => Bool.false_ne_true (h.symm.trans (Nat.blt_eq.mpr hlt))

/-- Outside the cases of R223 every operation is accepted. -/
theorem accepted_of_not_refusedCase (hi : isOp i = true) (h : refusedCase s i = false) : Accepted i s := by
  by_cases hshadow : isShadow i = true
  · rw [refusedCase_of_isShadow hshadow] at h
    exact accepted_shadow hshadow (ne_of_beq_false h)
  cases i with
  | readRegister a => exact accepted_byteRes rfl (busStep_readReg a s).frame.results (readReg_eq a s)
  | writeRegister a v => exact accepted_byteRes rfl (busStep_writeReg a v s).frame.results (writeReg_eq a v s)
  | readRegisterAS a => exact accepted_byteRes rfl (busStep_readRegAS a s).frame.results (readReg_eq a (setFlag s))
  | writeRegisterAS a v => exact accepted_byteRes rfl (busStep_writeRegAS a v s).frame.results (writeReg_eq a v (setFlag s))
  | multiReadRegister a n =>
    have hshort : n.toNat ≤ s.cfg.maxBurst := le_of_blt_false h
    exact accepted_of_answer (exec_multiReadRegister hshort a) rfl (busCode_ne_refused _)
  | multiWriteRegister a vs =>
    have hshort : vs.length ≤ s.cfg.maxBurst := le_of_blt_false h
    exact accepted_of_answer (exec_multiWriteRegister hshort a) rfl (busCode_ne_refused _)
  | enableOptions a bits => exact accepted_busRes rfl (busStep_enableOpts a bits s).frame.results (enableOpts_eq a bits s)
  | disableOptions a bits => exact accepted_busRes rfl (busStep_disableOpts a bits s).frame.results (disableOpts_eq a bits s)
  | setAckstat => exact accepted_of_answer (u := setFlag s) rfl rfl nofun
  | registerCallback cb => exact accepted_of_answer (u := { s with cb := cb }) rfl rfl nofun
  | reset => exact accepted_reset (ne_of_beq_false h)
  | start r => exact accepted_start r (bne_eq_false_iff_eq.mp h)
  | scanBus =>
    have hrole : s.role = .host := bne_eq_false_iff_eq.mp h
    exact accepted_byte rfl (busStep_scanOp s).frame.results (scanOp_ne_refused hrole)
  | illegal00 | illegal18to1F => cases h
  | onSetup | onInBufAvail | onResetDone | onConnectDetect | regrd | regwr => cases hi
  | _ => exact absurd rfl hshadow

end

/-- Settles O57: the cases of R223 are refused, all others accepted. -/
theorem refusedExactly : Obligations.RefusedExactly :=
  fun _ _ hi => ⟨exec_refusedCase hi, accepted_of_not_refusedCase hi⟩

end Sys2Proof.Machine

/-! # `reset()`, `start(role)` and `registerCallback(cb)` (O33 to O36) -/

namespace Sys2Proof.Machine

/-! ## The end of a poll, after its misses -/

section
variable {a : Addr} {hit : Byte → Bool} {miss : State → State} {between : List Event} {n cap : Nat} {s : State}
  (hm : ∀ u, miss u = { u with trace := u.trace ++ between }) (hmisses : s.misses a hit between n = true)
include hm hmisses

theorem poll_eq_fault (hn : n < cap) (hread : (s.afterMisses a between n).readOk a = false) :
    poll a hit miss cap s = (.fault, (s.afterMisses a between n).afterRead a) := by
  obtain ⟨k, rfl⟩ := Nat.exists_eq_add_of_lt hn
  rw [Nat.add_assoc, poll_misses hm n (k + 1) s hmisses, poll_fault hread]

theorem poll_eq_seen (hn : n < cap) (hread : (s.afterMisses a between n).readOk a = true)
    (hhit : hit ((s.afterMisses a between n).readByte a) = true) :
    poll a hit miss cap s = (.seen, (s.afterMisses a between n).afterRead a) := by
  obtain ⟨k, rfl⟩ := Nat.exists_eq_add_of_lt hn
  rw [Nat.add_assoc, poll_misses hm n (k + 1) s hmisses, poll_hit hread hhit]

theorem poll_eq_timeout : poll a hit miss n s = (.timeout, s.afterMisses a between n) :=
  poll_misses hm n 0 s hmisses

end

/-! ## Steps 3 to 5 of `reset()` (R151, R152, R154) -/

/-- The oscillator wait records nothing between its reads. -/
theorem id_records_nothing (u : State) : id u = { u with trace := u.trace ++ [] } := by
  rw [List.append_nil, id]

section
variable {osc : Addr} {n : Nat} {s : State} (hmisses : s.misses osc (oscStable s.cfg) [] n = true)
include hmisses

theorem resetFromPoll_fault (hn : n < s.cfg.oscPollCap) (hread : (s.afterMisses osc [] n).readOk osc = false) :
    resetFromPoll osc s = (.fault .transportError, (s.afterMisses osc [] n).afterRead osc) := by
  rw [resetFromPoll, poll_eq_fault id_records_nothing hmisses hn hread]

theorem resetFromPoll_seen (hn : n < s.cfg.oscPollCap) (hread : (s.afterMisses osc [] n).readOk osc = true)
    (hstable : oscStable s.cfg ((s.afterMisses osc [] n).readByte osc) = true) :
    resetFromPoll osc s = resetInterrupts ((s.afterMisses osc [] n).afterRead osc) := by
  rw [resetFromPoll, poll_eq_seen id_records_nothing hmisses hn hread hstable]

theorem resetFromPoll_timeout (hn : n = s.cfg.oscPollCap) :
    resetFromPoll osc s =
      (timedOut (resetInterrupts (s.afterMisses osc [] n)).1, (resetInterrupts (s.afterMisses osc [] n)).2) := by
  subst hn
  rw [resetFromPoll, poll_eq_timeout id_records_nothing hmisses]

end

/-- Steps 4 and 5 reached by bus activity use the registers of the role in which `reset()` was presented. -/
theorem resetInterrupts_of_busStep {g : Addr} {s u : State} (hu : BusStep s u) (hg : gateReg s.cfg s.role = some g) :
    resetInterrupts u =
      (busRes (u.rmwOk g (· &&& ~~~s.cfg.b.gate) && (u.afterRmw g (· &&& ~~~s.cfg.b.gate)).writesOk (resetWrites s.cfg s.role)),
        if u.rmwOk g (· &&& ~~~s.cfg.b.gate) then
          (u.afterRmw g (· &&& ~~~s.cfg.b.gate)).afterWrites (resetWrites s.cfg s.role)
        else u.afterRmw g (· &&& ~~~s.cfg.b.gate)) := by
  have hcfg := hu.frame.cfg
  have hrole := hu.frame.role
  rw [resetInterrupts_eq (g := g) (by rw [hcfg, hrole, hg]), hcfg, hrole]

/-- A transport fault after a timeout is the one answered (R154). -/
theorem timedOut_busRes_code (ok : Bool) : (timedOut (busRes ok)).code = if ok then .hardwareTimeout else .transportError := by
  cases ok <;> rfl

/-! ## Steps 1 and 2 of `reset()`: the pulse (R150) -/

/-- The chip reset pulse, and what follows it once both halves have gone through. -/
theorem resetBus_eq (ctl osc : Addr) (s : State) :
    resetBus ctl osc s =
      let s1 := s.afterRmw ctl (· ||| s.cfg.b.chipRes)
      let s2 := s1.afterRmw ctl (· &&& ~~~s.cfg.b.chipRes)
      if s.rmwOk ctl (· ||| s.cfg.b.chipRes) then
        if s1.rmwOk ctl (· &&& ~~~s.cfg.b.chipRes) then resetFromPoll osc s2 else (.fault .transportError, s2)
      else (.fault .transportError, s1) := by
  have hcfg : (s.afterRmw ctl (· ||| s.cfg.b.chipRes)).cfg = s.cfg := (busStep_afterRmw s ctl _).frame.cfg
  simp only [resetBus, enableOpts_eq, disableOpts_eq, setBits, clearBits, andThen_busRes, hcfg]

/-! ## The operation `reset()` -/

/-- Step 6 is done whatever the bus steps gave, and the operation answers what they gave (R153, R154). -/
theorem exec_reset {ctl osc : Addr} {s : State} (hctl : chipCtl s.cfg s.role = some ctl)
    (hosc : oscStat s.cfg s.role = some osc) :
    exec .reset s = .next ((clearShadow (resetBus ctl osc s).2).answer ⟨(resetBus ctl osc s).1.code, []⟩) := by
  have hreset : resetOp s = ((resetBus ctl osc s).1, clearShadow (resetBus ctl osc s).2) := by simp only [resetOp, hctl, hosc]
  calc exec .reset s
    _ = .next (answerUnit (resetOp s)) := rfl
    _ = _ := by rw [hreset, answerUnit]

/-- Settles O34: after the pulse the wait ends by a fault, by the stable bit or by its bound; steps 4 and 5 follow the
last two. -/
theorem resetSequence : Obligations.ResetSequence := by
  intro s ctl osc gate hregs stop stable s1 s2 polled gated gateOk tail tailOk
  have hctl : chipCtl s.cfg s.role = some ctl :=
    roleAddr_eq_some rfl rfl (hregs.imp (fun ⟨hr, hc, _⟩ => ⟨hr, hc⟩) fun ⟨hr, hc, _⟩ => ⟨hr, hc⟩)
  have hosc : oscStat s.cfg s.role = some osc :=
    roleAddr_eq_some rfl rfl (hregs.imp (fun ⟨hr, _, ho, _⟩ => ⟨hr, ho⟩) fun ⟨hr, _, ho, _⟩ => ⟨hr, ho⟩)
  have hgate : gateReg s.cfg s.role = some gate :=
    roleAddr_eq_some rfl rfl (hregs.imp (fun ⟨hr, _, _, hg⟩ => ⟨hr, hg⟩) fun ⟨hr, _, _, hg⟩ => ⟨hr, hg⟩)
  have hstop {u : State} {r : Res Unit} (h : resetBus ctl osc s = (r, u)) : exec .reset s = stop u r.code := by
    rw [exec_reset hctl hosc, h]
    rfl
  have hbus2 : BusStep s s2 := (busStep_afterRmw s ctl _).trans (busStep_afterRmw s1 ctl _)
  have hpolled (n : Nat) : BusStep s (polled n) := hbus2.trans (busStep_afterMisses osc [] rfl rfl rfl n s2)
  have htail {u : State} (hu : BusStep s u) : resetInterrupts u = (busRes (tailOk u), tail u) :=
    resetInterrupts_of_busStep hu hgate
  have hstable : stable = oscStable s2.cfg := congrArg oscStable hbus2.frame.cfg.symm
  have hcap : s2.cfg.oscPollCap = s.cfg.oscPollCap := congrArg Cfg.oscPollCap hbus2.frame.cfg
  refine ⟨fun hset => ?setFault, fun hset hclear => ?clearFault, fun hset hclear => ?pulsed⟩
  case setFault => exact hstop ((resetBus_eq ctl osc s).trans (if_neg (Bool.eq_false_iff.mp hset)))
  case clearFault => exact hstop (by rw [resetBus_eq, if_pos hset, if_neg (Bool.eq_false_iff.mp hclear)])
  case pulsed =>
    have hpulsed : resetBus ctl osc s = resetFromPoll osc s2 := by rw [resetBus_eq, if_pos hset, if_pos hclear]
    rw [hstable, ← hcap]
    refine ⟨fun n hn hmisses => ⟨fun hread => ?pollFault, fun hread hhit => ?seen⟩, fun hmisses => ?timeout⟩
    case pollFault => exact hstop (hpulsed.trans (resetFromPoll_fault hmisses hn hread))
    case seen =>
      have h := hstop ((hpulsed.trans (resetFromPoll_seen hmisses hn hread hhit)).trans
        (htail ((hpolled n).trans (busStep_read _ osc 1))))
      rwa [busRes_code] at h
    case timeout =>
      have h := hstop (hpulsed.trans (resetFromPoll_timeout hmisses rfl))
      rwa [htail (hpolled _), timedOut_busRes_code] at h

/-- Settles O33: the bus steps keep the frame however far they go, and step 6 follows them on every path. -/
theorem resetZeroesMasksAndFlag : Obligations.ResetZeroesMasksAndFlag := by
  intro s hrole
  obtain ⟨ctl, hctl⟩ := roleAddr_isSome (f := chipCtl s.cfg) rfl rfl hrole
  obtain ⟨osc, hosc⟩ := roleAddr_isSome (f := oscStat s.cfg) rfl rfl hrole
  have hbus := busStep_resetBus ctl osc s
  have hframe := hbus.frame
  refine ⟨_, (resetBus ctl osc s).1.code, exec_reset hctl hosc, rfl, rfl, rfl, hframe.role, hframe.conn, hframe.cb,
    hframe.rxbuf, hframe.bstate, hframe.intArmed, hbus.latch, hframe.sel, hframe.cfg, hframe.collab, hframe.sched, ?results, ?code⟩
  case results => rw [answer_results, clearShadow_results, hframe.results]
  case code => exact Res.code_ne_refused (resetBus_ne_refused ctl osc hrole)

/-! ## `start(role)` and `registerCallback(cb)` -/

/-- The accepted `start` is the option setup in the role it fixes, the edge detector in service (R155, R156). -/
theorem startOp_unset {s : State} (hrole : s.role = .unset) (r : UsbRole) :
    startOp r s = optionSetup { s with role := roleOf r, intArmed := true } := if_pos hrole

/-- Settles O35: the option setup is a read-modify-write in Host role and nothing in Peripheral role. -/
theorem startOnce : Obligations.StartOnce := by
  intro s
  refine ⟨codedAs_of_encode (by decide) rfl rfl, codedAs_of_encode (by decide) rfl rfl, fun hrole => ⟨?host, ?peripheral⟩,
    fun hrole r => exec_refusedCase rfl (bne_iff_ne.mpr hrole)⟩
  case host => exact exec_of_busRes rfl ((startOp_unset hrole .host).trans (enableOpts_eq _ _ _))
  case peripheral => exact exec_of_busRes (ok := true) rfl (startOp_unset hrole .peripheral)

/-- Settles O36: bit 0 of the word says whether the reference beside it is taken (log entry 6); the meaning is one
register write. -/
theorem registerCallbackResult : Obligations.RegisterCallbackResult :=
  ⟨fun _ => decode_mkWord ⟨by decide, .inl rfl, .inr rfl, .inl rfl⟩ rfl rfl,
    fun _ => decode_mkWord ⟨by decide, .inl rfl, .inr rfl, .inl rfl⟩ rfl rfl,
    fun _ _ => rfl⟩

end Sys2Proof.Machine

/-! # Completion, the line state, a call (O14, O38, O39) -/

namespace Sys2Proof.Machine

/-- Settles O14: an instruction that is no handler by its closed form, a handler by what it writes. -/
theorem everyInstructionCompletes : Obligations.EveryInstructionCompletes := exec_completes

/-- A device is present unless both line bits are zero (R171). -/
theorem devicePresent_iff (v : Byte) : devicePresent v = true ↔ v &&& 0xC0 ≠ 0 := by
  have hshift : ∀ w : Byte, (w &&& 0xC0) >>> 6 = 0 ↔ w &&& 0xC0 = 0 := by decide
  exact bne_iff_ne.trans (hshift v).not

theorem devicePresent_eq_false_iff (v : Byte) : devicePresent v = false ↔ v &&& 0xC0 = 0 := by
  rw [← Bool.not_eq_true, devicePresent_iff, not_not]

/-- Settles O38: the named bytes by evaluation, any byte by `devicePresent_iff`. -/
theorem lineStateMapping : Obligations.LineStateMapping :=
  ⟨rfl, rfl, rfl, rfl, rfl, rfl, rfl, rfl, fun v => ⟨rfl, devicePresent_iff v⟩⟩

/-- The state in which a callee's operations begin: the call recorded, its entry of the script taken (R228). -/
def State.called (s : State) (e : Event) : State := { s with trace := s.trace ++ [e], collab := s.collab.tail }

theorem callOut_eq (e : Event) (s : State) :
    callOut e s = ((s.emit e).collabAnswer.success, runAll (s.emit e).collabAnswer.ops (s.called e)) := rfl

/-- Settles O39: after the call is recorded its operations run, and what they do is said of any list of them in Laws/Calls. -/
theorem callsAndMasks : Obligations.CallsAndMasks := by
  intro e s ops t
  have hrun : CallStep [] (s.called e) t := callStep_runAll ops _
  obtain ⟨evs, htrace, hframed, hnote, -⟩ := hrun.grows
  refine ⟨{ hrun.frame with }, hrun.latch, runAll_collab ops (s.called e), runAll_top ops (s.called e),
    runAll_endpoint ops (s.called e), runAll_ackstat ops (s.called e), ⟨evs, ?trace, hframed, hnote⟩, fun hquiet => ?quiet⟩
  case trace => rw [htrace, State.called, List.append_assoc, List.singleton_append]
  case quiet =>
    have ht : t = runAll ops (s.called e) := rfl
    rw [ht, hquiet]
    rfl

end Sys2Proof.Machine

/-! # `scanBus()` (O37) -/

namespace Sys2Proof.Machine

/-- A delay is recorded, and nothing else happens (R260). -/
theorem delay_records (d : DelayName) (u : State) : u.delay d = { u with trace := u.trace ++ [.delay d] } := rfl

/-- After the sample is complete, the line state is one more read (R180). -/
theorem scanLines_seen (u : State) :
    scanLines (.seen, u) = (if u.readOk u.cfg.host.lineState then .ok (lineState (u.readByte u.cfg.host.lineState))
      else .fault .transportError, u.afterRead u.cfg.host.lineState) := by
  rw [scanLines, readReg_eq]
  exact Prod.ext (apply_ite (Res.map lineState) _ _ _) rfl

/-- In Host role the scan begins with the sample option, and polls once that is set (R180). -/
theorem scanOp_eq {s : State} (hrole : s.role = .host) :
    scanOp s =
      let s1 := s.afterRmw s.cfg.host.sampleReg (· ||| s.cfg.b.sampleBus)
      if s.rmwOk s.cfg.host.sampleReg (· ||| s.cfg.b.sampleBus) then
        scanLines (poll s.cfg.host.sampleDone (sampleDone s.cfg) (·.delay .samplePoll) s.cfg.samplePollCap s1)
      else (.fault .transportError, s1) := by
  have hcfg : (s.afterRmw s.cfg.host.sampleReg (· ||| s.cfg.b.sampleBus)).cfg = s.cfg := (busStep_afterRmw s _ _).frame.cfg
  simp only [scanOp, hrole, enableOpts_eq, setBits]
  cases s.rmwOk s.cfg.host.sampleReg (· ||| s.cfg.b.sampleBus) with
  | false => rfl
  | true => simp only [busRes, if_true, hcfg]

theorem exec_scanBus_of_fault {s t : State} {k : FaultKind} (h : scanOp s = (.fault k, t)) :
    exec .scanBus s = .next (t.answer ⟨(Res.fault k : Res Byte).code, []⟩) := by
  change Host.Outcome.next (answerByte (scanOp s)) = _
  rw [h]
  rfl

/-- Settles O37: after the sample option the poll ends by a fault, by the sample, or by its bound. -/
theorem scanBusResult : Obligations.ScanBusResult := by
  intro s
  refine ⟨codedAs_of_encode (by decide) rfl rfl, fun hrole => exec_refusedCase rfl (bne_iff_ne.mpr hrole), fun hrole => ?host⟩
  intro sampled s1 a line polled
  have hscan := scanOp_eq hrole
  have hpolled (n : Nat) : BusStep s (polled n) :=
    (busStep_afterRmw s _ _).trans (busStep_afterMisses a [.delay .samplePoll] rfl rfl rfl n s1)
  refine ⟨fun hset => ?optionFault, fun hset => ?polled⟩
  case optionFault => exact exec_scanBus_of_fault (hscan.trans (if_neg (Bool.eq_false_iff.mp hset)))
  case polled =>
    replace hscan := hscan.trans (if_pos hset)
    refine ⟨fun n hn hmisses => ⟨fun hread => ?pollFault, fun hread hhit => ?seen⟩, fun hmisses => ?timeout⟩
    case pollFault =>
      exact exec_scanBus_of_fault
        (hscan.trans (congrArg scanLines (poll_eq_fault (delay_records .samplePoll) hmisses hn hread)))
    case seen =>
      have hcfg : ((polled n).afterRead a).cfg = s.cfg := ((hpolled n).trans (busStep_read _ a 1)).frame.cfg
      replace hscan :=
        hscan.trans (congrArg scanLines (poll_eq_seen (delay_records .samplePoll) hmisses hn hread hhit))
      rw [scanLines_seen, hcfg] at hscan
      exact exec_of_byteRes rfl hscan
    case timeout =>
      exact exec_scanBus_of_fault
        (hscan.trans (congrArg scanLines (poll_eq_timeout (delay_records .samplePoll) hmisses)))

end Sys2Proof.Machine

/-! # `onConnectDetect` (O40, O41, O42)

Each path is cut where the statements cut it: the line-state read, start of frame on, the frame wait, and the two ends, `bringUp` and
`notConnected`. -/

namespace Sys2Proof.Machine

/-! ## The end of the handler (R173 to R175) -/

/-- After the acknowledge of the connect-detect bit, its fault logged (R174). -/
def State.acknowledged (c : Cfg) (u : State) : State :=
  (u.afterWrite c.host.topIrq c.b.conDet).logUnless (u.writeOk c.host.topIrq c.b.conDet)

/-- After start of frame is turned off, its fault logged, and `BSTATE` set to `NoDevice` (R173, R175). -/
def State.detached (c : Cfg) (s : State) : State :=
  { (s.afterRmw c.host.sofReg (· &&& ~~~c.b.sofEn)).logUnless (s.rmwOk c.host.sofReg (· &&& ~~~c.b.sofEn)) with
    bstate := .noDevice }

section
variable {c : Cfg} {s : State} (hrole : s.role = .host) (hcfg : s.cfg = c)
include hrole hcfg

/-- The report is followed by the acknowledge: the callback changes neither the role nor the configuration (R174). -/
theorem finishConnect_eq (connected : Bool) : finishConnect connected s = (notifyChange connected s).acknowledged c := by
  subst hcfg
  have hstep := (reported_notifyChange connected s).step
  have hirq : topIrq (notifyChange connected s).cfg (notifyChange connected s).role = some s.cfg.host.topIrq := by
    rw [hstep.role, hstep.cfg, hrole]
    rfl
  rw [finishConnect, clearTop_eq hirq, logged_busRes]
  rfl

theorem notConnected_eq : notConnected s = (notifyChange false (s.detached c)).acknowledged c := by
  have hoff : logged (disableOpts s.cfg.host.sofReg s.cfg.b.sofEn s) =
      (s.afterRmw c.host.sofReg (· &&& ~~~c.b.sofEn)).logUnless (s.rmwOk c.host.sofReg (· &&& ~~~c.b.sofEn)) := by
    rw [disableOpts_eq, logged_busRes, hcfg]
    rfl
  have hframe := ((busStep_afterRmw s c.host.sofReg (· &&& ~~~c.b.sofEn)).trans
    (busStep_logUnless _ (s.rmwOk c.host.sofReg (· &&& ~~~c.b.sofEn)))).frame
  rw [notConnected, hoff]
  exact finishConnect_eq (s := s.detached c) (hframe.role.trans hrole) (hframe.cfg.trans hcfg) false

end

/-! ## The frame wait (R172, R176) -/

/-- How `onConnectDetect` goes on after the frame wait. -/
def afterFrameWait : PollEnd × State → State
  | (.seen, s) => bringUp s
  | (.timeout, s) => abortConnect .hardwareTimeout s
  | (.fault, s) => abortConnect .transportError s

/-- Steps 2a and 2b: start of frame on, and the frame wait once that has gone through. -/
theorem connectedPath_eq (s : State) :
    connectedPath s =
      let s1 := s.afterRmw s.cfg.host.sofReg (· ||| s.cfg.b.sofEn)
      if s.rmwOk s.cfg.host.sofReg (· ||| s.cfg.b.sofEn) then
        afterFrameWait (poll s.cfg.host.topIrq (frameSeen s.cfg) id s.cfg.framePollCap s1)
      else abortConnect .transportError s1 := by
  have hcfg : (s.afterRmw s.cfg.host.sofReg (· ||| s.cfg.b.sofEn)).cfg = s.cfg := (busStep_afterRmw s _ _).frame.cfg
  simp only [connectedPath, enableOpts_eq, setBits]
  cases s.rmwOk s.cfg.host.sofReg (· ||| s.cfg.b.sofEn) with
  | false => rfl
  | true =>
    simp only [busRes, if_true, hcfg]
    rcases poll s.cfg.host.topIrq (frameSeen s.cfg) id s.cfg.framePollCap
      (s.afterRmw s.cfg.host.sofReg (· ||| s.cfg.b.sofEn)) with ⟨_ | _ | _, u⟩ <;> rfl

/-! ## The line-state read (R171) -/

theorem exec_onConnectDetect {s : State} (hrole : s.role = .host) : exec .onConnectDetect s = .next (connectDetect s) := by
  simp only [exec, execOnConnectDetect, hrole]

section
variable {s : State}

theorem connectDetect_fault (hread : s.readOk s.cfg.host.lineState = false) :
    connectDetect s = notConnected ((s.afterRead s.cfg.host.lineState).logUnless false) := by
  unfold State.readOk at hread
  simp only [connectDetect, readReg_eq, hread, Bool.false_eq_true, if_false]
  rfl

variable (hread : s.readOk s.cfg.host.lineState = true)
include hread

theorem connectDetect_absent (hline : s.readByte s.cfg.host.lineState &&& 0xC0 = 0) :
    connectDetect s = notConnected (s.afterRead s.cfg.host.lineState) := by
  unfold State.readOk at hread
  simp only [connectDetect, readReg_eq, hread, if_true, (devicePresent_eq_false_iff _).mpr hline, Bool.false_eq_true, if_false]
  rfl

theorem connectDetect_present (hline : s.readByte s.cfg.host.lineState &&& 0xC0 ≠ 0) :
    connectDetect s = connectedPath { s.afterRead s.cfg.host.lineState with bstate := .connected } := by
  unfold State.readOk at hread
  simp only [connectDetect, readReg_eq, hread, if_true, (devicePresent_iff _).mpr hline]
  rfl

end

/-! ## The three statements -/

/-- Settles O40: without a device, or with a faulted read, the handler is `notConnected` after the read. -/
theorem connectDetectNotConnected : Obligations.ConnectDetectNotConnected := by
  intro s hrole hline s1 off u
  have hpath : connectDetect s = notConnected s1 := by
    cases hread : s.readOk s.cfg.host.lineState with
    | false => rw [connectDetect_fault hread, ← hread]
    | true =>
      rw [connectDetect_absent hread (hline hread)]
      simp only [s1, hread, State.logUnless, if_true]
  have hstep : BusStep s s1 := (busStep_read s s.cfg.host.lineState 1).trans (busStep_logUnless _ _)
  rw [exec_onConnectDetect hrole, hpath, notConnected_eq (hstep.frame.role.trans hrole) hstep.frame.cfg]
  rfl

/-- Settles O41: a fault in start of frame or in the frame wait, or its bound, ends in `notConnected` after it is logged. -/
theorem connectDetectAborted : Obligations.ConnectDetectAborted := by
  intro s hrole hread hline sof top frame s1 s2 polled abort
  have hpath := connectDetect_present hread hline
  rw [connectedPath_eq] at hpath
  have habort {k : FaultKind} {v : State} (hv : BusStep s1 v) (h : connectDetect s = abortConnect k v) :
      exec .onConnectDetect s = abort k v := by
    rw [exec_onConnectDetect hrole, h, abortConnect,
      notConnected_eq (s := v.logFault k) (hv.frame.role.trans hrole) hv.frame.cfg]
    rfl
  have hsof : BusStep s1 s2 := busStep_afterRmw s1 sof _
  have hpolled (n : Nat) : BusStep s1 (polled n) := hsof.trans (busStep_afterMisses top [] rfl rfl rfl n s2)
  refine ⟨fun hset => ?sofFault, fun hset => ?wait⟩
  case sofFault => exact habort hsof (hpath.trans (if_neg (Bool.eq_false_iff.mp hset)))
  case wait =>
    replace hpath := hpath.trans (if_pos hset)
    refine ⟨fun n hn hmisses hfault => ?pollFault, fun hmisses => ?timeout⟩
    case pollFault =>
      exact habort ((hpolled n).trans (busStep_read _ top 1))
        (hpath.trans (congrArg afterFrameWait (poll_eq_fault id_records_nothing hmisses hn hfault)))
    case timeout =>
      exact habort (hpolled _) (hpath.trans (congrArg afterFrameWait (poll_eq_timeout id_records_nothing hmisses)))

/-- Settles O42: once the frame bit is seen the handler is `bringUp`, whose calls keep the role and the configuration. -/
theorem connectDetectConnected : Obligations.ConnectDetectConnected := by
  intro s n hrole hread hline sof top frame s1 s2 polled hset hn hmisses hok hseen s3 r s4 u
  have hpath : connectDetect s = bringUp (polled.afterRead top) := by
    rw [connectDetect_present hread hline, connectedPath_eq]
    exact (if_pos hset).trans (congrArg afterFrameWait (poll_eq_seen id_records_nothing hmisses hn hok hseen))
  have hbus : BusStep s1 (polled.afterRead top) :=
    ((busStep_afterRmw s1 sof _).trans (busStep_afterMisses top [] rfl rfl rfl n s2)).trans (busStep_read _ top 1)
  have hreset := (callStep_callOut (.call .performBusReset) { polled.afterRead top with bstate := .resetting } rfl rfl).frame
  have henum := (callStep_callOut (.call .performEnumeration)
    { s3 with bstate := .enumerating, trace := s3.trace ++ [.delay .settle] } rfl rfl).frame
  have hrole4 : s4.role = .host := henum.role.trans (hreset.role.trans (hbus.frame.role.trans hrole))
  have hcfg4 : s4.cfg = s.cfg := henum.cfg.trans (hreset.cfg.trans hbus.frame.cfg)
  rw [exec_onConnectDetect hrole, hpath, bringUp_eq]
  exact congrArg Host.Outcome.next (finishConnect_eq hrole4 hcfg4 true)

end Sys2Proof.Machine

/-! # The attach scenario (O44)

Every access of the scenario is answered by the chip's script, so each leaves a state that can be written out (`State.accessed`); so do
the three calls, whose callees present nothing. -/

namespace Sys2Proof.Machine

/-! ## Accesses that a script answers -/

/-- The events of a single access that goes through: the command byte and the data byte, each with the byte shifted in (R54). -/
def accessEvents (cmd data : Byte) (cmdIn : Option Byte) (dataIn : Byte) : List Event :=
  [.ss false, .x cmd cmdIn, .x data (some dataIn), .ss true]

/-- The state a single access leaves when the script answers both its exchanges, and `rest` is left of the script. -/
def State.accessed (s : State) (rest : List ChipAnswer) (evs : List Event) : State :=
  { s with
    ackstat := false
    irqPend := s.latchAfter 2
    chip := rest
    midEdges := s.midEdges.drop 2
    trace := s.trace ++ evs }

section
variable {s : State} {c : ChipAnswer} {v : Byte} {rest : List ChipAnswer} (hc : c.miso.isSome = true)
  (hchip : s.chip = c :: ⟨some v⟩ :: rest)
include hc hchip

theorem afterBus_of_script (cmd data : Byte) :
    s.afterBus [cmd, data] = s.accessed rest (accessEvents cmd data c.miso v) := by
  have hdrawn : s.drawn [cmd, data] = [c, ⟨some v⟩] :=
    drawn_of_script (us := [c, ⟨some v⟩]) (rest := rest) hchip (by simp [hc]) rfl
  rw [State.afterBus, hdrawn, hchip]
  rfl

theorem read_of_script (a : Addr) :
    s.readOk a = true ∧ s.readByte a = v ∧
      s.afterRead a = s.accessed rest (accessEvents (cmdByte a .read s.ackstat) 0x00 c.miso v) := by
  obtain ⟨hok, hdata⟩ := bus_of_handedOut (bs := [v]) (outs := s.readBytes a 1) hc hchip rfl
  exact ⟨hok, by rw [State.readByte, hdata]; rfl, afterBus_of_script hc hchip _ _⟩

theorem write_of_script (a : Addr) (w : Byte) :
    s.writeOk a w = true ∧
      s.afterWrite a w = s.accessed rest (accessEvents (cmdByte a .write s.ackstat) w c.miso v) := by
  obtain ⟨hok, -⟩ := bus_of_handedOut (bs := [v]) (outs := s.writeBytes a [w]) hc hchip rfl
  exact ⟨hok, afterBus_of_script hc hchip _ _⟩

end

/-- A read-modify-write whose four exchanges a script answers; its write carries no flag, the read having spent it (R83, R117). -/
theorem rmw_of_script {s : State} {c d : ChipAnswer} {v w : Byte} {rest : List ChipAnswer} (hc : c.miso.isSome = true)
    (hd : d.miso.isSome = true) (hchip : s.chip = c :: ⟨some v⟩ :: d :: ⟨some w⟩ :: rest) (a : Addr) (f : Byte → Byte) :
    s.rmwOk a f = true ∧
      s.afterRmw a f =
        (s.accessed (d :: ⟨some w⟩ :: rest) (accessEvents (cmdByte a .read s.ackstat) 0x00 c.miso v)).accessed rest
          (accessEvents (cmdByte a .write false) (f v) d.miso w) := by
  obtain ⟨hread, hbyte, hleft⟩ := read_of_script hc hchip a
  obtain ⟨hwrite, hend⟩ := write_of_script (s := s.accessed (d :: ⟨some w⟩ :: rest)
    (accessEvents (cmdByte a .read s.ackstat) 0x00 c.miso v)) hd rfl a (f v)
  have hrmwOk : s.rmwOk a f = (s.readOk a && (s.afterRead a).writeOk a (f (s.readByte a))) := rfl
  have hrmw : s.afterRmw a f = if s.readOk a then (s.afterRead a).afterWrite a (f (s.readByte a)) else s.afterRead a := rfl
  rw [hrmwOk, hrmw, hread, hbyte, hleft]
  exact ⟨hwrite, hend⟩

/-! ## Calls whose callees present nothing (R228) -/

theorem callOut_quiet {s : State} {q : CollabAnswer} {quiet : List CollabAnswer} (hcollab : s.collab = q :: quiet)
    (hq : q.ops = []) (e : Event) :
    callOut e s = (q.success, { s with trace := s.trace ++ [e], collab := quiet }) := by
  have hanswer : (s.emit e).collabAnswer = q := by rw [State.collabAnswer, emit_collab, hcollab]
  rw [callOut_eq, hanswer, hq, State.called, hcollab]
  rfl

/-- The state after a device has been reported to a callback that presents nothing. -/
def State.reported (s : State) (cb : CallbackRef) (quiet : List CollabAnswer) : State :=
  { s with conn := true, collab := quiet, trace := s.trace ++ [.notify cb true] }

/-- The state after a bus reset and a successful enumeration whose callees present nothing. -/
def State.broughtUp (s : State) (quiet : List CollabAnswer) : State :=
  { s with
    bstate := .ready
    collab := quiet
    trace := s.trace ++ [.call .performBusReset, .delay .settle, .call .performEnumeration, .log (.enumResult true),
      .delay .stabilize] }

/-- A change is notified, with the new value (R174). -/
theorem notifyChange_quiet {s : State} {cb : CallbackRef} {q : CollabAnswer} {quiet : List CollabAnswer}
    (hconn : s.conn = false) (hcb : s.cb = some cb) (hcollab : s.collab = q :: quiet) (hq : q.ops = []) :
    notifyChange true s = s.reported cb quiet := by
  obtain ⟨-, -, hreport⟩ := notifyOnChange s true
  rw [hreport cb (by rw [hconn]; exact Bool.noConfusion) hcb, callOut_quiet (s := { s with conn := true }) hcollab hq]
  rfl

/-- The two calls with the delay between them, the log and the second delay (R172, R178). -/
theorem bringUp_quiet {s : State} {q1 q2 : CollabAnswer} {quiet : List CollabAnswer} (hcollab : s.collab = q1 :: q2 :: quiet)
    (hq1 : q1.ops = []) (hq2 : q2.ops = []) (hsuccess : q2.success = true) :
    bringUp s = finishConnect true (s.broughtUp quiet) := by
  rw [bringUp_eq, callOut_quiet (s := { s with bstate := .resetting }) hcollab hq1]
  dsimp only
  rw [callOut_quiet rfl hq2, hsuccess]
  simp only [State.broughtUp, List.append_assoc, List.cons_append, List.nil_append, if_true]

/-! ## The scenario -/

theorem framePollCap_pos {c : Cfg} (h : c.Valid) : 0 < c.framePollCap := by
  simp only [Cfg.Valid, Cfg.valid, Bool.and_eq_true, Nat.ble_eq] at h
  omega

/-- The state when a device has been seen: the line state read, `BSTATE` set to `Connected`. -/
def State.deviceSeen (s : State) (c1 : ChipAnswer) (v : Byte) (rest : List ChipAnswer) : State :=
  { s.accessed rest (accessEvents (cmdByte s.cfg.host.lineState .read s.ackstat) 0x00 c1.miso v) with bstate := .connected }

/-- A script that shows a device on the line leads to the connected path (R171). -/
theorem connectDetect_of_script {s : State} {c1 : ChipAnswer} {v : Byte} {rest : List ChipAnswer} (hc1 : c1.miso.isSome = true)
    (hline : v &&& 0xC0 ≠ 0) (hchip : s.chip = c1 :: ⟨some v⟩ :: rest) :
    connectDetect s = connectedPath (s.deviceSeen c1 v rest) := by
  obtain ⟨hread, hbyte, hafter⟩ := read_of_script hc1 hchip s.cfg.host.lineState
  rw [connectDetect_present hread (hbyte.symm ▸ hline), hafter]
  rfl

/-- The state when the frame bit has been seen: start of frame set by read-modify-write, then one status read. -/
def State.frameAwaited (s : State) (f1 w1 g1 : ChipAnswer) (x r f : Byte) (rest : List ChipAnswer) : State :=
  let s1 := s.accessed (w1 :: ⟨some r⟩ :: g1 :: ⟨some f⟩ :: rest)
    (accessEvents (cmdByte s.cfg.host.sofReg .read s.ackstat) 0x00 f1.miso x)
  let s2 := s1.accessed (g1 :: ⟨some f⟩ :: rest)
    (accessEvents (cmdByte s.cfg.host.sofReg .write false) (x ||| s.cfg.b.sofEn) w1.miso r)
  s2.accessed rest (accessEvents (cmdByte s.cfg.host.topIrq .read false) 0x00 g1.miso f)

/-- A script that shows the frame bit in the first status read leads to `bringUp` (R172, R176). -/
theorem connectedPath_of_script {s : State} {f1 w1 g1 : ChipAnswer} {x r f : Byte} {rest : List ChipAnswer}
    (hvalid : s.cfg.Valid) (hf1 : f1.miso.isSome = true) (hw1 : w1.miso.isSome = true) (hg1 : g1.miso.isSome = true)
    (hframe : f &&& s.cfg.b.frame ≠ 0) (hchip : s.chip = f1 :: ⟨some x⟩ :: w1 :: ⟨some r⟩ :: g1 :: ⟨some f⟩ :: rest) :
    connectedPath s = bringUp (s.frameAwaited f1 w1 g1 x r f rest) := by
  obtain ⟨hsof, hset⟩ := rmw_of_script hf1 hw1 hchip s.cfg.host.sofReg (· ||| s.cfg.b.sofEn)
  have hchip2 : (s.afterRmw s.cfg.host.sofReg (· ||| s.cfg.b.sofEn)).chip = g1 :: ⟨some f⟩ :: rest := by rw [hset]; rfl
  obtain ⟨hread, hbyte, hafter⟩ := read_of_script hg1 hchip2 s.cfg.host.topIrq
  have hseen : frameSeen s.cfg f = true := bne_iff_ne.mpr hframe
  have hpoll := poll_eq_seen (n := 0) (s := s.afterRmw s.cfg.host.sofReg (· ||| s.cfg.b.sofEn)) (hit := frameSeen s.cfg)
    id_records_nothing rfl (framePollCap_pos hvalid) hread (hbyte.symm ▸ hseen)
  rw [connectedPath_eq, if_pos hsof, hpoll]
  change bringUp ((s.afterRmw s.cfg.host.sofReg (· ||| s.cfg.b.sofEn)).afterRead s.cfg.host.topIrq) = _
  rw [hafter, hset]
  rfl

/-- The state at the end of the scenario, from the one in which the frame bit has been seen. -/
def State.attached (s : State) (cb : CallbackRef) (quiet : List CollabAnswer) (k1 : ChipAnswer) (g : Byte)
    (rest : List ChipAnswer) : State :=
  ((s.broughtUp quiet).reported cb quiet).accessed rest
    (accessEvents (cmdByte s.cfg.host.topIrq .write s.ackstat) s.cfg.b.conDet k1.miso g)

/-- The calls, the report and the acknowledge, when no callee presents anything and a script answers the acknowledge (R172, R174). -/
theorem bringUp_of_script {s : State} {cb : CallbackRef} {q1 q2 q3 : CollabAnswer} {quiet : List CollabAnswer}
    {k1 : ChipAnswer} {g : Byte} {rest : List ChipAnswer} (hrole : s.role = .host) (hconn : s.conn = false)
    (hcb : s.cb = some cb) (hcollab : s.collab = q1 :: q2 :: q3 :: quiet) (hq1 : q1.ops = []) (hq2 : q2.ops = [])
    (hq3 : q3.ops = []) (hsuccess : q2.success = true) (hk1 : k1.miso.isSome = true)
    (hchip : s.chip = k1 :: ⟨some g⟩ :: rest) : bringUp s = s.attached cb quiet k1 g rest := by
  have hreport : notifyChange true (s.broughtUp (q3 :: quiet)) = (s.broughtUp (q3 :: quiet)).reported cb quiet :=
    notifyChange_quiet hconn hcb rfl hq3
  obtain ⟨hok, hafter⟩ := write_of_script (s := (s.broughtUp (q3 :: quiet)).reported cb quiet) hk1 hchip
    s.cfg.host.topIrq s.cfg.b.conDet
  rw [bringUp_quiet hcollab hq1 hq2 hsuccess, finishConnect_eq (s := s.broughtUp (q3 :: quiet)) (c := s.cfg) hrole rfl, hreport,
    State.acknowledged, hok, hafter]
  rfl

/-- Settles O44: the three stages of the scenario one after the other; the end state is written out, so that its registers are read
off it. -/
theorem attachScenario : Obligations.AttachScenario := by
  intro s cb q1 q2 q3 quiet c1 f1 w1 x1 g1 k1 v f r g rest w2 k2 hvalid hrole hconn hcb hcollab hq1 hq2 hq3 hsuccess hc1 hf1
    hw1 hx1 hg1 hk1 hw2 hk2 hline hframe hchip
  obtain ⟨x, hx⟩ := Option.isSome_iff_exists.mp hx1
  obtain rfl : x1 = ⟨some x⟩ := congrArg ChipAnswer.mk hx
  obtain rfl : w2 = ⟨some r⟩ := congrArg ChipAnswer.mk hw2
  obtain rfl : k2 = ⟨some g⟩ := congrArg ChipAnswer.mk hk2
  have hexec := exec_onConnectDetect hrole
  rw [connectDetect_of_script hc1 hline hchip,
    connectedPath_of_script (s := s.deviceSeen c1 v _) hvalid hf1 hw1 hg1 hframe rfl,
    bringUp_of_script (s := (s.deviceSeen c1 v _).frameAwaited f1 w1 g1 x r f _) hrole hconn hcb hcollab hq1 hq2 hq3 hsuccess hk1
      rfl] at hexec
  refine ⟨x, _, rfl, hexec, rfl, rfl, rfl, rfl, rfl, rfl, rfl, rfl, rfl, rfl, rfl, rfl, rfl, rfl, rfl, ?trace⟩
  simp [State.attached, State.reported, State.broughtUp, State.frameAwaited, State.deviceSeen, State.accessed, accessEvents]

end Sys2Proof.Machine

/-! # `onSetup` by its request (O46, O47, O48)

The dispatch runs in the state `State.packetFilled`, on the byte the burst delivered at offset 1; one lemma then says what each kind of
request does there. -/

namespace Sys2Proof.Machine

/-! ## The request byte and the packet (R190, R192) -/

/-- From a buffer that a whole packet has just filled, the dispatch reads the packet's own bytes. -/
theorem dispatchPacket_of_filled {u : State} {data : List Byte} {q : Byte} {m : List Host.Cell}
    (hrxbuf : u.rxbuf = rxFill 0 data m) (hlen : data.length = packetBytes) (hq : data[1]? = some q) :
    dispatchPacket u = .next (dispatchRequest q data u) := by
  have h8 : data.length = 8 := hlen
  have hrequest : rxPeek u.rxbuf 1 = some q := by
    rw [hrxbuf, rxPeek_rxFill_zero data 1 m (by omega), if_pos (by omega), hq]
  have hpacket : rxReadMany 0 packetBytes u.rxbuf = .ok data := by
    rw [hrxbuf, ← hlen]
    exact rxReadMany_rxFill data 0 m (by omega)
  simp only [dispatchPacket, rxRead, hrequest, hpacket]

theorem fetchPacket_request {s : State} {q : Byte}
    (hburst : s.busOk (s.readBytes s.cfg.periph.sudFifo packetBytes) = true)
    (hq : (s.busData (s.readBytes s.cfg.periph.sudFifo packetBytes))[1]? = some q) :
    fetchPacket s =
      .next (dispatchRequest q (s.busData (s.readBytes s.cfg.periph.sudFifo packetBytes)) s.packetFilled) := by
  have hlen : (s.busData (s.readBytes s.cfg.periph.sudFifo packetBytes)).length = packetBytes :=
    (busData_length hburst).trans List.length_replicate
  have hfetch : fetchPacket s = dispatchPacket s.packetFilled := by
    simp only [fetchPacket, memRead_eq, hburst, if_true]
    rfl
  rw [hfetch, dispatchPacket_of_filled rfl hlen hq]

/-- After a successful acknowledge and a whole burst, `onSetup` is the dispatch on the byte at offset 1. The acknowledge has spent the flag,
so the burst's command byte carries none (R83). -/
theorem exec_onSetup_request {s : State} {q : Byte} (hr : s.role = .peripheral)
    (hack : s.writeOk s.cfg.periph.epIrq s.cfg.b.sudAv = true)
    (hburst : (s.afterWrite s.cfg.periph.epIrq s.cfg.b.sudAv).busOk
      (cmdByte s.cfg.periph.sudFifo .read false :: List.replicate 8 0x00) = true)
    (hq : ((s.afterWrite s.cfg.periph.epIrq s.cfg.b.sudAv).busData
      (cmdByte s.cfg.periph.sudFifo .read false :: List.replicate 8 0x00))[1]? = some q) :
    exec .onSetup s =
      .next (dispatchRequest q ((s.afterWrite s.cfg.periph.epIrq s.cfg.b.sudAv).busData
        (cmdByte s.cfg.periph.sudFifo .read false :: List.replicate 8 0x00))
        (s.afterWrite s.cfg.periph.epIrq s.cfg.b.sudAv).packetFilled) :=
  (execOnSetup_burst hr hack).trans (fetchPacket_request hburst hq)

/-! ## The three kinds of request (R191 to R193) -/

/-- The closed form of an acknowledging read whose data is discarded: its command byte carries the flag whatever `ACKSTAT` was (R113). -/
theorem logged_readRegAS (a : Addr) (s : State) :
    logged ((readRegAS a s).1.done, (readRegAS a s).2) =
      (s.afterBus [cmdByte a .read true, 0x00]).logUnless (s.busOk [cmdByte a .read true, 0x00]) := by
  have hdone : (readRegAS a s).1.done = busRes (s.busOk [cmdByte a .read true, 0x00]) := by
    rw [readRegAS, readReg_eq]
    exact apply_ite Res.done _ _ _
  have hleft : (readRegAS a s).2 = s.afterBus [cmdByte a .read true, 0x00] := by
    rw [readRegAS, readReg_eq]
    rfl
  rw [hdone, hleft, logged_busRes]

section
variable {q : Byte} {s : State} (packet : List Byte)

theorem dispatchRequest_setAddress (hq : q = s.cfg.reqSetAddress) :
    dispatchRequest q packet s =
      (s.afterBus [cmdByte s.cfg.periph.ackReg .read true, 0x00]).logUnless
        (s.busOk [cmdByte s.cfg.periph.ackReg .read true, 0x00]) := by
  rw [dispatchRequest, if_pos hq]
  exact logged_readRegAS s.cfg.periph.ackReg s

theorem dispatchRequest_getStatus (hne : q ≠ s.cfg.reqSetAddress) (hq : q = s.cfg.reqGetStatus) :
    dispatchRequest q packet s = (callOut (.call (.respondToStatusRequest packet)) s).2 := by
  rw [dispatchRequest, if_neg hne, if_pos hq]

theorem dispatchRequest_other (haddress : q ≠ s.cfg.reqSetAddress) (hstatus : q ≠ s.cfg.reqGetStatus) :
    dispatchRequest q packet s = s.emit (.log (.unimplementedRequest q)) := by
  rw [dispatchRequest, if_neg haddress, if_neg hstatus]

end

/-! ## The three statements -/

/-- Settles O46: the dispatch on `REQ_SET_ADDRESS` is the acknowledging read. -/
theorem setupSetAddress : Obligations.SetupSetAddress := by
  intro s hr s1 outs data ack hack hburst hq s2
  rw [exec_onSetup_request hr hack hburst hq]
  exact congrArg Host.Outcome.next (dispatchRequest_setAddress (s := s2) data rfl)

/-- Settles O47: the request codes being distinct, the dispatch on `REQ_GET_STATUS` is the call. -/
theorem setupGetStatus : Obligations.SetupGetStatus := by
  intro s hr hdistinct s1 outs data hack hburst hq s2
  rw [exec_onSetup_request hr hack hburst hq]
  exact congrArg Host.Outcome.next (dispatchRequest_getStatus (s := s2) data hdistinct rfl)

/-- Settles O48: the dispatch on any other request is its log entry. -/
theorem setupUnimplemented : Obligations.SetupUnimplemented := by
  intro s q hr haddress hstatus s1 outs data hack hburst hq
  rw [exec_onSetup_request hr hack hburst hq]
  exact congrArg Host.Outcome.next (dispatchRequest_other (s := s1.packetFilled) data haddress hstatus)

end Sys2Proof.Machine

/-! # `onInBufAvail` and `onResetDone` (O49, O50) -/

namespace Sys2Proof.Machine

/-- Settles O49: the one step of the handler is `disableEndpointInterrupts`, its fault logged. -/
theorem inBufAvailResult : Obligations.InBufAvailResult := by
  intro s hr a f
  have hexec : exec .onInBufAvail s = .next (logged (disableEp s.cfg.b.inBAv s)) := by
    simp only [exec, execOnInBufAvail, hr]
  rw [hexec, disableEp_eq hr, logged_busRes]

/-! ## The four steps of `onResetDone` (R194) -/

section
variable {c : Cfg} {s : State} (hr : s.role = .peripheral) (hcfg : s.cfg = c) (bits : Byte)
include hr hcfg

theorem logged_clearTop :
    logged (clearTop bits s) = (s.afterWrite c.periph.topIrq bits).logUnless (s.writeOk c.periph.topIrq bits) := by
  have hirq : topIrq s.cfg s.role = some c.periph.topIrq := by rw [hcfg, hr]; rfl
  rw [clearTop_eq hirq, logged_busRes]

theorem logged_enableEp :
    logged (enableEp bits s) =
      { s.afterRmw c.periph.epIen (· ||| bits) with enabledEndpointIRQ := s.enabledEndpointIRQ ||| bits }.logUnless
        (s.rmwOk c.periph.epIen (· ||| bits)) := by
  rw [enableEp_eq hr, logged_busRes, hcfg]

theorem logged_enableTop :
    logged (enableTop bits s) =
      { s.afterRmw c.periph.topIen (· ||| bits) with enabledTopIRQ := s.enabledTopIRQ ||| bits }.logUnless
        (s.rmwOk c.periph.topIen (· ||| bits)) := by
  have hien : topIen s.cfg s.role = some c.periph.topIen := by rw [hcfg, hr]; rfl
  rw [enableTop_eq hien, logged_busRes]

end

theorem logged_writeReg (a : Addr) (v : Byte) (s : State) :
    logged ((writeReg a v s).1.done, (writeReg a v s).2) = (s.afterWrite a v).logUnless (s.writeOk a v) := by
  rw [writeReg_done, writeReg_eq, logged_busRes]
  rfl

/-- Settles O50: each of the four steps in its closed form; the role, the configuration and the masks a step does not own reach it
unchanged. -/
theorem resetDoneResult : Obligations.ResetDoneResult := by
  intro s hr p b s1 s2 s3
  have hframe1 : BusFrame s s1 := ((busStep_write s p.topIrq [b.uresDn]).trans (busStep_logUnless _ _)).frame
  have hr1 : s1.role = .peripheral := hframe1.role.trans hr
  have hstep1 : logged (clearTop b.uresDn s) = s1 := logged_clearTop hr rfl _
  have hstep2 : logged (enableEp b.sudAv s1) = s2 := by
    rw [logged_enableEp hr1 hframe1.cfg, hframe1.enabledEndpointIRQ]
  have hframe2 : CallFrame s1 s2 := hstep2 ▸ (callStep_logged (callStep_enableEp b.sudAv s1)).frame
  have hcfg2 : s2.cfg = s.cfg := hframe2.cfg.trans hframe1.cfg
  have htop2 : s2.enabledTopIRQ = s1.enabledTopIRQ :=
    hstep2 ▸ (logged_enabledTopIRQ _).trans (enableEp_rest b.sudAv s1).1
  have hstep3 : logged (enableTop b.uresDn s2) = s3 := by
    rw [logged_enableTop (hframe2.role.trans hr1) hcfg2, htop2, hframe1.enabledTopIRQ]
  have hframe3 : CallFrame s2 s3 := hstep3 ▸ (callStep_logged (callStep_enableTop b.uresDn s2)).frame
  have hcfg3 : s3.cfg = s.cfg := hframe3.cfg.trans hcfg2
  have hexec : exec .onResetDone s = .next (resetDone s) := by
    simp only [exec, execOnResetDone, hr]
  have hdone : resetDone s =
      logged ((writeReg p.ep2InBc s.cfg.ep2Refill s3).1.done, (writeReg p.ep2InBc s.cfg.ep2Refill s3).2) := by
    simp only [resetDone, hstep1, hframe1.cfg, hstep2, hcfg2, hstep3, hcfg3, b, p]
  rw [hexec, hdone, logged_writeReg]

end Sys2Proof.Machine

/-! # Edges and idling, a dispatcher run (O9, O12, O13) -/

namespace Sys2Proof.Machine

/-- Settles O9: between items the edge is the item taken, inside an exchange it falls before the exchange is recorded. -/
theorem edgesAndIdling : Obligations.EdgesAndIdling := by
  refine ⟨fun s => rfl, fun s rest hsel hpend hsched => ?_, fun s out => ?_, fun s hsel hpend hsched => ?_⟩
  · have hfetch : fetch s = .done { s with sched := rest }.fallingEdge := by
      simp only [fetch_idle hsel hpend, fetchItem, hsched]
    simp only [step, hfetch, State.fallingEdge, hpend, Bool.false_or]
  · exact Prod.ext (xchg_fst out s) (xchg_snd out s)
  · have hfetch : fetch s = .done s := by simp only [fetch_idle hsel hpend, fetchItem, hsched]
    simp only [step, hfetch]

/-! ## One handler of a run (R214) -/

/-- The handler of the lowest bit of a vector that selects one (R89). -/
def lowestHandler (sel : Sel) : Instr :=
  if sel.getLsbD 0 then .onSetup else if sel.getLsbD 1 then .onInBufAvail
    else if sel.getLsbD 2 then .onResetDone else .onConnectDetect

theorem decode_evt_of_ne_zero {sel : Sel} (hsel : sel ≠ 0) : decode (.evt sel) = .ok (lowestHandler sel) := by
  cases hdec : decode (.evt sel) with
  | error e => exact absurd (sel_of_noHandler hdec) hsel
  | ok i =>
    simp only [decode, decodeEvt] at hdec
    unfold lowestHandler
    split_ifs at hdec ⊢ <;> exact hdec.symm

/-- A step of a running dispatcher runs the handler of the lowest bit, that bit struck beforehand (R214). -/
theorem step_handler {s : State} (hsel : s.sel ≠ 0) : step s = exec (lowestHandler s.sel) (retireHandler s) :=
  stepRunsDecodedInstruction.2.2 s _ (decode_evt_of_ne_zero hsel)

/-- Settles O12: a handler completes, and by the state table it writes neither the vector nor the schedule nor the results. -/
theorem handlersRunInAscendingOrder : Obligations.HandlersRunInAscendingOrder := by
  intro s hsel
  obtain ⟨t, hexec⟩ := exec_completes (lowestHandler s.sel) (retireHandler s)
  have hhandler : Instr.IsHandler (lowestHandler s.sel) := ⟨s.sel, decode_evt_of_ne_zero hsel⟩
  have hw := writers_exec hexec
  exact ⟨t, (step_handler hsel).trans hexec, hw.sel, hw.sched, hw.results hhandler, hexec⟩

/-! ## The whole run -/

/-- How many handlers a vector still selects. -/
def handlersLeft (sel : Sel) : Nat := (List.range 4).countP fun i => sel.getLsbD i

theorem sel_eq_zero_of_handlersLeft {sel : Sel} : handlersLeft sel = 0 → sel = 0 := by
  revert sel
  decide

/-- Striking the lowest bit leaves one handler fewer. -/
theorem handlersLeft_of_ne_zero {sel : Sel} : sel ≠ 0 → handlersLeft sel = handlersLeft (sel &&& (sel - 1)) + 1 := by
  revert sel
  decide

/-- A run whose first step completes goes on from there. -/
theorem run_succ_of_step {s u : State} (hstep : step s = .next u) (n : Nat) :
    Host.Core.run core (n + 1) s = Host.Core.run core n u := by
  have hcore : core.step s = .next u := hstep
  simp only [Host.Core.run, hcore]

/-- A dispatcher run with `n` handlers left ends after `n` steps, by induction on them. -/
theorem run_handlersLeft (n : Nat) (s : State) (hn : handlersLeft s.sel = n) :
    ∃ t : State, Host.Core.run core n s = .next t ∧ t.sel = 0 ∧ t.sched = s.sched ∧ t.results = s.results := by
  induction n generalizing s with
  | zero => exact ⟨s, rfl, sel_eq_zero_of_handlersLeft hn, rfl, rfl⟩
  | succ n ih =>
    have hsel : s.sel ≠ 0 := fun hzero => by
      rw [hzero] at hn
      cases hn
    obtain ⟨u, hstep, husel, husched, huresults, -⟩ := handlersRunInAscendingOrder s hsel
    have hleft : handlersLeft u.sel = n := by
      rw [husel]
      exact Nat.succ.inj ((handlersLeft_of_ne_zero hsel).symm.trans hn)
    obtain ⟨t, hrun, htsel, htsched, htresults⟩ := ih u hleft
    exact ⟨t, (run_succ_of_step hstep n).trans hrun, htsel, htsched.trans husched, htresults.trans huresults⟩

/-- Settles O13: the number of steps is that of the handlers left. -/
theorem dispatcherRunEnds : Obligations.DispatcherRunEnds := fun s => run_handlersLeft (handlersLeft s.sel) s rfl

end Sys2Proof.Machine

/-! # Power-on, and the end of a run (O52, O16)

Every step of a run that has not ended lowers `stepsOwed`: a handler is one fewer of its vector, a dispatcher entry pays for its at most
four handlers with the pending event, an item pays for the event it may leave pending. What an instruction does to the latch is paid for by
the edges placed in its exchanges (`EdgesTaken.budget`). -/

namespace Sys2Proof.Machine

/-- Settles O52: the registers are those of the table, and the first operation is taken by an idle block with nothing pending. -/
theorem powerOnValues : Obligations.PowerOnValues :=
  ⟨rfl, rfl, rfl, rfl, rfl, rfl, rfl, rfl, rfl, fun _ => rfl, rfl, rfl,
    fun w payload ref rest i hdec =>
      stepRunsDecodedInstruction.1 { State.reset with sched := .op w payload ref :: rest } w payload ref rest i rfl rfl rfl hdec,
    fun out => xchg_fst out State.reset⟩

/-! ## What a run still owes -/

theorem stepsOwed_eq (s : State) :
    stepsOwed s = 6 * s.sched.length + (6 * s.midEdges.count true + (if s.irqPend then 5 else 0)) + handlersLeft s.sel := by
  simp only [stepsOwed, handlersLeft, Nat.add_assoc]

theorem handlersLeft_le (sel : Sel) : handlersLeft sel ≤ 4 := List.countP_le_length

/-- Taking an item off the schedule pays its six steps. -/
theorem stepsOwed_of_item {s : State} {item : Item} {rest : List Item} (hsched : s.sched = item :: rest) :
    stepsOwed { s with sched := rest } + 6 = stepsOwed s := by
  simp only [stepsOwed_eq, hsched, List.length_cons]
  omega

/-- Exchanges alone never add to what is owed: an edge they catch was placed in them (R211, R261). -/
theorem stepsOwed_le_of_edgesTaken {n : Nat} {s t : State} (hedges : EdgesTaken n s t) (hsched : t.sched = s.sched)
    (hsel : t.sel = s.sel) : stepsOwed t ≤ stepsOwed s := by
  have hbudget := hedges.budget
  simp only [stepsOwed_eq, hsched, hsel]
  omega

theorem stepsOwed_exec_le {i : Instr} {s t : State} (hexec : exec i s = .next t) : stepsOwed t ≤ stepsOwed s := by
  have hw := writers_exec hexec
  obtain ⟨evs, -, -, hedges⟩ := hw.grows
  exact stepsOwed_le_of_edgesTaken hedges hw.sched hw.sel

theorem stepsOwed_busStep_le {s t : State} (hs : BusStep s t) : stepsOwed t ≤ stepsOwed s := by
  obtain ⟨evs, -, -, -, hedges⟩ := hs.grows
  exact stepsOwed_le_of_edgesTaken hedges hs.frame.sched hs.frame.sel

/-- The start of a dispatcher run: the event is taken, then bus activity, then the vector may be another (R212, R213). -/
theorem takeInterrupt_busStep (s : State) :
    ∃ (u : State) (sel : Sel), BusStep { s with irqPend := false } u ∧ takeInterrupt s = { u with sel := sel } := by
  have h1 := busStep_statusTop { s with irqPend := false }
  unfold takeInterrupt
  split
  next t s1 htop =>
    rw [htop] at h1
    have h2 := h1.trans (busStep_statusEp s1)
    split
    next e s2 hep =>
      rw [hep] at h2
      exact ⟨s2, _, h2, rfl⟩
    next k s2 hep =>
      rw [hep] at h2
      exact ⟨s2.logFault k, _, h2.trans (busStep_logFault s2 k), rfl⟩
    next s2 hep =>
      rw [hep] at h2
      exact ⟨s2, _, h2, rfl⟩
  next k s1 htop =>
    rw [htop] at h1
    exact ⟨s1.logFault k, _, h1.trans (busStep_logFault s1 k), rfl⟩
  next s1 htop =>
    rw [htop] at h1
    exact ⟨s1, _, h1, rfl⟩

/-! ## Each step lowers it -/

/-- A step is taken that leaves fewer to take, and adds nothing to the schedule. -/
def Progress (s : State) : Prop := ∃ t, step s = .next t ∧ stepsOwed t < stepsOwed s ∧ t.sched <:+ s.sched

/-- A handler is one of those owed (R214). -/
theorem progress_of_handler {s : State} (hsel : s.sel ≠ 0) : Progress s := by
  obtain ⟨t, hexec⟩ := exec_completes (lowestHandler s.sel) (retireHandler s)
  have hle := stepsOwed_exec_le hexec
  have hretired : stepsOwed (retireHandler s) + 1 = stepsOwed s := by
    simp only [stepsOwed_eq, retireHandler, clearLowest, handlersLeft_of_ne_zero hsel, Nat.add_assoc]
  exact ⟨t, (step_handler hsel).trans hexec, by omega, (writers_exec hexec).sched ▸ List.suffix_refl _⟩

/-- A pending event is worth its step and the four handlers it may select (R89, R212). -/
theorem progress_of_pending {s : State} (hsel : s.sel = 0) (hpend : s.irqPend = true) : Progress s := by
  obtain ⟨u, sel, hs, htake⟩ := takeInterrupt_busStep s
  refine ⟨_, step_takeInterrupt hsel hpend, ?_, htake ▸ hs.frame.sched ▸ List.suffix_refl _⟩
  have hle := stepsOwed_busStep_le hs
  have hleft := handlersLeft_le sel
  simp only [htake, stepsOwed_eq, hpend, Bool.false_eq_true, if_false, if_true] at hle ⊢
  have husel : u.sel = s.sel := hs.frame.sel
  rw [husel] at hle
  omega

/-- An item is worth more than what it leaves owed, if the state it leads to owes at most an event more than before (R261). -/
theorem progress_of_item {s t : State} {item : Item} {rest : List Item} (hsched : s.sched = item :: rest)
    (hstep : step s = .next t) (howed : stepsOwed t ≤ stepsOwed { s with sched := rest } + 5) (hrest : t.sched = rest) :
    Progress s := by
  have hitem := stepsOwed_of_item hsched
  exact ⟨t, hstep, by omega, hsched ▸ hrest ▸ List.suffix_cons _ _⟩

/-- An item that is decoded runs its instruction. -/
theorem progress_of_exec {s : State} {item : Item} {rest : List Item} {i : Instr} (hsched : s.sched = item :: rest)
    (hstep : step s = exec i { s with sched := rest }) : Progress s := by
  obtain ⟨t, hexec⟩ := exec_completes i { s with sched := rest }
  have hle := stepsOwed_exec_le hexec
  exact progress_of_item hsched (hstep.trans hexec) (by omega) (writers_exec hexec).sched

/-- An idle block with nothing pending takes the next item of a formed schedule (R212, R261). -/
theorem progress_of_sched {s : State} (hformed : ScheduleFormed s) (hsel : s.sel = 0) (hpend : s.irqPend = false)
    (hne : s.sched ≠ []) : Progress s := by
  obtain ⟨item, rest, hsched⟩ := List.exists_cons_of_ne_nil hne
  cases item with
  | op w payload ref =>
    cases hdec : decode (.op w payload ref) with
    | ok i => exact progress_of_exec hsched (stepRunsDecodedInstruction.1 s w payload ref rest i hsel hpend hsched hdec)
    | error e =>
      obtain ⟨-, -, hrefused⟩ := stepStopsOnlyOnMalformedItems s
      exact progress_of_item hsched (hrefused w payload ref rest e hsel hpend hsched hdec) (Nat.le_add_right _ _) rfl
  | bus bytes =>
    obtain ⟨i, hdec⟩ := hformed bytes (hsched ▸ List.mem_cons_self)
    exact progress_of_exec hsched (stepRunsDecodedInstruction.2.1 s bytes rest i hsel hpend hsched hdec)
  | edge =>
    refine progress_of_item hsched (edgesAndIdling.2.1 s rest hsel hpend hsched) ?_ rfl
    simp only [stepsOwed_eq]
    split <;> omega

theorem progress_of_not_runEnded {s : State} (hformed : ScheduleFormed s) (hrun : ¬ RunEnded s) : Progress s := by
  by_cases hsel : s.sel = 0
  · cases hpend : s.irqPend with
    | true => exact progress_of_pending hsel hpend
    | false => exact progress_of_sched hformed hsel hpend fun hnil => hrun ⟨hnil, hsel, hpend⟩
  · exact progress_of_handler hsel

/-- Settles O16, by strong induction on what is owed: a run that has not ended takes a step that lowers it. -/
theorem everyRunEnds : Obligations.EveryRunEnds := by
  intro s hformed
  induction howed : stepsOwed s using Nat.strong_induction_on generalizing s with
  | h k ih =>
    by_cases hend : RunEnded s
    · exact ⟨0, s, Nat.zero_le _, rfl, hend⟩
    · obtain ⟨u, hstep, hless, hsuffix⟩ := progress_of_not_runEnded hformed hend
      obtain ⟨n, t, hn, hrun, ht⟩ := ih _ (howed ▸ hless) u (fun bytes hb => hformed bytes (hsuffix.subset hb)) rfl
      exact ⟨n + 1, t, by omega, (run_succ_of_step hstep n).trans hrun, ht⟩

end Sys2Proof.Machine
